-- ==== Sys2Proof/Word.lean ====
section
/-! DEFINITION. The two word types: 32-bit registers and command words (00_scope.md R6), and bytes. -/

namespace Sys2Proof

/-- A register value, a command word or a binary32 bit pattern (00_scope.md R6, R8). -/
abbrev Word := BitVec 32

/-- A `u8` (00_scope.md R8). -/
abbrev Byte := BitVec 8

end Sys2Proof
end

