-- ==== Sys2Proof/Syntax.lean ====
section
/-! DEFINITION. The commands of the opcode map (30_encoding.md R106), one constructor per row of
spec/opcode_table.json, and the assembler's lines (30_encoding.md R112, R113). -/

namespace Sys2Proof

/-- The class of a Huffman table: DC = 0, AC = 1 (30_encoding.md R104). -/
inductive TableClass where
  | dc | ac
  deriving DecidableEq, Repr

/-- One command (30_encoding.md R106). `n` is format B's bit count, `cls` and `dst` are format T's slot, `b` is format
D's data byte. -/
inductive Instr where
  | nop
  | sreset
  | bcLoad
  | bcRead (n : Nat)
  | bcReadX (n : Nat)
  | bcAlign
  | bcExt (n : Nat)
  | htBuild (cls : TableClass) (dst : Fin 4)
  | htDecode (cls : TableClass) (dst : Fin 4)
  | idct
  | sfInit
  | sfPush (b : Byte)
  deriving DecidableEq, Repr

/-- One line of assembler: a command, or one of the three pseudo-instructions (30_encoding.md R113). -/
inductive AsmLine where
  | command (i : Instr)
  | bcSkip (n : Nat)
  | restart
  | cmd (w : Word)
  deriving DecidableEq, Repr

end Sys2Proof
end

