-- ==== Sys2Proof/WellFormed.lean ====
section
/-! DEFINITION. Which commands a word can name. The one check is that format B's count fits its 5-bit field
(30_encoding.md R103); every slot and every byte can be encoded (R104, R105). -/

namespace Sys2Proof

/-- The bit count of format B fits bits 12:8 (30_encoding.md R103). Counts 17 to 31 can be encoded; the command
refuses them when it runs (R109). -/
def bitCountFits (n : Nat) : Bool := n < 32

/-- The command has an encoding. -/
def Instr.wf : Instr → Bool
  | .nop => true
  | .sreset => true
  | .bcLoad => true
  | .bcRead n => bitCountFits n
  | .bcReadX n => bitCountFits n
  | .bcAlign => true
  | .bcExt n => bitCountFits n
  | .htBuild _ _ => true
  | .htDecode _ _ => true
  | .idct => true
  | .sfInit => true
  | .sfPush _ => true

end Sys2Proof
end

