-- ==== Sys2Proof/Decode.lean ====
section
/-! DEFINITION. Decoding a command word (30_encoding.md R100 to R111), the encoder, and the assembler (R112, R113). -/

namespace Sys2Proof

/-- Why a word is illegal (30_encoding.md R107, R108). The block reports both as ILLEGAL. -/
inductive IllegalWord where
  /-- OPC is not in the opcode map (R107). -/
  | freeOpcode (opc : Byte)
  /-- OPC is in the opcode map and a reserved bit is set (R108). -/
  | reservedBits (opc : Byte)
  deriving DecidableEq, Repr

/-- The four command formats (30_encoding.md R102 to R105). -/
inductive Format where
  | n | b | t | d
  deriving DecidableEq, Repr

/-- The lowest reserved bit of a format; every bit from there up must be 0 (30_encoding.md R102 to R105). -/
def Format.firstReservedBit : Format → Nat
  | .n => 8
  | .b => 13
  | .t => 11
  | .d => 16

/-- OPC, bits 7:0 (30_encoding.md R101). -/
def opcodeField (w : Word) : Byte := w.extractLsb' 0 8

/-- N, bits 12:8 (30_encoding.md R103). -/
def countField (w : Word) : Nat := (w.extractLsb' 8 5).toNat

/-- CLS, bit 10 (30_encoding.md R104). -/
def classField (w : Word) : TableClass := if w.getLsbD 10 then .ac else .dc

/-- DST, bits 9:8 (30_encoding.md R104). -/
def destField (w : Word) : Fin 4 := (w.extractLsb' 8 2).toFin

/-- BYTE, bits 15:8 (30_encoding.md R105). -/
def byteField (w : Word) : Byte := w.extractLsb' 8 8

/-- Accepts `i` when the reserved bits of its format are 0 (30_encoding.md R108). -/
def withReservedZero (f : Format) (w : Word) (i : Instr) : Except IllegalWord Instr :=
  if w >>> f.firstReservedBit = 0#32 then .ok i else .error (.reservedBits (opcodeField w))

/-- The command a word selects, or why it is illegal; total (30_encoding.md R100, R106). -/
def decode (w : Word) : Except IllegalWord Instr :=
  let opc := opcodeField w
  if opc = 0x00#8 then withReservedZero .n w .nop
  else if opc = 0x01#8 then withReservedZero .n w .sreset
  else if opc = 0x10#8 then withReservedZero .n w .bcLoad
  else if opc = 0x11#8 then withReservedZero .b w (.bcRead (countField w))
  else if opc = 0x12#8 then withReservedZero .b w (.bcReadX (countField w))
  else if opc = 0x13#8 then withReservedZero .n w .bcAlign
  else if opc = 0x14#8 then withReservedZero .b w (.bcExt (countField w))
  else if opc = 0x20#8 then withReservedZero .t w (.htBuild (classField w) (destField w))
  else if opc = 0x21#8 then withReservedZero .t w (.htDecode (classField w) (destField w))
  else if opc = 0x30#8 then withReservedZero .n w .idct
  else if opc = 0x40#8 then withReservedZero .n w .sfInit
  else if opc = 0x41#8 then withReservedZero .d w (.sfPush (byteField w))
  else .error (.freeOpcode opc)

/-- The instruction of a row of spec/opcode_table.json whose `nbits` bits are `w` (every bit above them 0). A command
is one word and has no byte order (20_memory.md R72, 30_encoding.md R100). -/
def decodeTableWord (nbits w : Nat) : Option Instr :=
  (decode (BitVec.ofNat 32 (w % 2 ^ nbits))).toOption

/-- Format N: OPC (30_encoding.md R102). -/
def encodeN (opc : Byte) : Word := opc.setWidth 32

/-- Format B: OPC | N << 8 (30_encoding.md R103, R112). -/
def encodeB (n : Nat) (opc : Byte) : Word := opc.setWidth 32 ||| (BitVec.ofNat 5 n).setWidth 32 <<< 8

/-- CLS: DC = 0, AC = 1 (30_encoding.md R104). -/
def TableClass.number : TableClass → Nat
  | .dc => 0
  | .ac => 1

/-- Format T: OPC | (CLS*4 + DST) << 8 (30_encoding.md R104, R112). -/
def encodeT (cls : TableClass) (dst : Fin 4) (opc : Byte) : Word :=
  opc.setWidth 32 ||| (BitVec.ofNat 3 (cls.number * 4 + dst.val)).setWidth 32 <<< 8

/-- Format D: OPC | BYTE << 8 (30_encoding.md R105, R112). -/
def encodeD (b : Byte) (opc : Byte) : Word := opc.setWidth 32 ||| b.setWidth 32 <<< 8

/-- The word of a well-formed command (30_encoding.md R106). -/
def encode : Instr → Word
  | .nop => encodeN 0x00#8
  | .sreset => encodeN 0x01#8
  | .bcLoad => encodeN 0x10#8
  | .bcRead n => encodeB n 0x11#8
  | .bcReadX n => encodeB n 0x12#8
  | .bcAlign => encodeN 0x13#8
  | .bcExt n => encodeB n 0x14#8
  | .htBuild cls dst => encodeT cls dst 0x20#8
  | .htDecode cls dst => encodeT cls dst 0x21#8
  | .idct => encodeN 0x30#8
  | .sfInit => encodeN 0x40#8
  | .sfPush b => encodeD b 0x41#8

/-- The (mask, match) of each row of the opcode table, in its order (30_encoding.md R106): a word is the row's command
exactly when `word &&& mask = match`. The decoder does not use it; statements do. -/
def opcodeRows : List (Word × Word) :=
  [(0xFFFFFFFF#32, 0x00000000#32),
   (0xFFFFFFFF#32, 0x00000001#32),
   (0xFFFFFFFF#32, 0x00000010#32),
   (0xFFFFE0FF#32, 0x00000011#32),
   (0xFFFFE0FF#32, 0x00000012#32),
   (0xFFFFFFFF#32, 0x00000013#32),
   (0xFFFFE0FF#32, 0x00000014#32),
   (0xFFFFF8FF#32, 0x00000020#32),
   (0xFFFFF8FF#32, 0x00000021#32),
   (0xFFFFFFFF#32, 0x00000030#32),
   (0xFFFFFFFF#32, 0x00000040#32),
   (0xFFFF00FF#32, 0x00000041#32)]

/-- The row of a command. -/
def Instr.row : Instr → Nat
  | .nop => 0
  | .sreset => 1
  | .bcLoad => 2
  | .bcRead _ => 3
  | .bcReadX _ => 4
  | .bcAlign => 5
  | .bcExt _ => 6
  | .htBuild _ _ => 7
  | .htDecode _ _ => 8
  | .idct => 9
  | .sfInit => 10
  | .sfPush _ => 11

/-- A word of the opcode map: it matches some row (30_encoding.md R100, R106 to R108). -/
def LegalWord (w : Word) : Prop := ∃ row ∈ opcodeRows, w &&& row.1 = row.2

/-- The word an assembler line issues (30_encoding.md R112, R113). -/
def assemble : AsmLine → Word
  | .command i => encode i
  | .bcSkip n => encode (.bcRead n)
  | .restart => encode .bcAlign
  | .cmd w => w

/-- How the assembler writes a class (30_encoding.md R112). -/
def TableClass.text : TableClass → String
  | .dc => "DC"
  | .ac => "AC"

/-- The assembler text of a command (30_encoding.md R112). -/
def Instr.text : Instr → String
  | .nop => "NOP"
  | .sreset => "SRESET"
  | .bcLoad => "BC.LOAD"
  | .bcRead n => "BC.READ " ++ toString n
  | .bcReadX n => "BC.READX " ++ toString n
  | .bcAlign => "BC.ALIGN"
  | .bcExt n => "BC.EXT " ++ toString n
  | .htBuild cls dst => "HT.BUILD " ++ cls.text ++ ", " ++ toString dst.val
  | .htDecode cls dst => "HT.DECODE " ++ cls.text ++ ", " ++ toString dst.val
  | .idct => "IDCT"
  | .sfInit => "SF.INIT"
  | .sfPush b => "SF.PUSH " ++ toString b.toNat

end Sys2Proof
end

