-- ==== Sys2Proof/Config.lean ====
section
/-! DEFINITION. What the spec leaves to the implementation (00_scope.md R7, 93_implementation_defined.md U1 to U6):
the capacities, the IDCT arithmetic, and the power-on contents of memory. Every open value is a constant without a body. -/

namespace Sys2Proof

/-- The banks of bytes: the four `u8` memory spaces of 10_state.md R57 and the two line buffers of R54. -/
inductive ByteBank where
  | stream | htLen | htSym | out | cur | prev
  deriving DecidableEq, Repr

/-- The banks of binary32 patterns: the two IDCT spaces of 10_state.md R57. -/
inductive WordBank where
  | idctIn | idctOut
  deriving DecidableEq, Repr

/-- The capacities a block is built with (00_scope.md R7). -/
structure Params where
  /-- STREAM_SIZE: bytes of the stream memory. -/
  streamSize : Nat
  /-- MAX_LINE: largest scanline size in bytes. -/
  maxLine : Nat
  /-- OUT_SIZE: bytes of the output image memory. -/
  outSize : Nat
  deriving DecidableEq, Repr

namespace Config

/-- Open: any number; `params` brings it into the range of STREAM_SIZE. -/
opaque openStreamSize : Nat

/-- Open: any number; MAX_LINE is 3 more, so any value in its range. -/
opaque openMaxLine : Nat

/-- Open: any number; OUT_SIZE is 4 more, so any value in its range. -/
opaque openOutSize : Nat

/-- The capacities of this block: any with `1 <= STREAM_SIZE < 2^31`, `3 <= MAX_LINE`, `4 <= OUT_SIZE`
(00_scope.md R7; log 6). -/
def params : Params where
  streamSize := 1 + openStreamSize % (2 ^ 31 - 1)
  maxLine := 3 + openMaxLine
  outSize := 4 + openOutSize

/-- IDCT_IMPL: the IDCT arithmetic, a total function that is open (44_idct.md R242 to R244). Free value (log 8). -/
opaque idctImpl : Vector Word 64 → Vector Word 64

/-- IDCT_EPS: its accuracy bound, open (44_idct.md R242). Free value (log 9). -/
opaque idctEps : Rat

/-- What a byte never written since power-on number `draw` holds (20_memory.md R89, 93_implementation_defined.md U6).
Free value (log 4). -/
opaque powerOnByte (draw : Nat) (bank : ByteBank) (index : Nat) : Byte

/-- What a binary32 element never written since power-on number `draw` holds (20_memory.md R89,
93_implementation_defined.md U6). Free value (log 4). -/
opaque powerOnWord (draw : Nat) (bank : WordBank) (index : Nat) : Word

end Config

end Sys2Proof
end

