-- ==== Sys2Proof/Machine/State.lean ====
section
/-! DEFINITION. The state of the block (10_state.md), the accesses a host can make, the error codes
(60_exceptions.md R260), the model's fault and refusal reasons, and the state after power-on reset
(70_reset_and_hazards.md R290, R291). -/

namespace Sys2Proof.Machine

/-- A memory of indexed elements: (index, element) pairs, indexes strictly rising. An index that is not listed has not
been written since power-on, so an entry never equals what an unlisted index reads as (log 4). -/
abbrev Store (α : Type) := List (Nat × α)

/-- The memory spaces of 10_state.md R57 and the line buffers of R54. -/
structure Memory where
  stream : List Host.Cell
  htLen : List Host.Cell
  htSym : List Host.Cell
  out : List Host.Cell
  /-- CUR, the current scanline. -/
  cur : List Host.Cell
  /-- PREV, the previous scanline. -/
  prev : List Host.Cell
  idctIn : List (Nat × Word)
  idctOut : List (Nat × Word)
  deriving DecidableEq, Repr

/-- The bit cursor (41_bitcursor.md R140): BC_BYTE, BC_BIT, BC_VALID and BC_END (10_state.md R38 to R41). -/
structure Cursor where
  byte : Word
  bit : BitVec 3
  valid : Bool
  endBound : Word
  deriving DecidableEq, Repr

/-- A child of a Huffman tree node, `Empty | Leaf | Inner` (10_state.md R53). -/
inductive Child where
  | empty
  | leaf (sym : Byte)
  | inner (c0 c1 : Child)
  deriving DecidableEq, Repr

/-- The root of a built table, always `Inner(c0, c1)` (10_state.md R53). -/
structure Root where
  c0 : Child
  c1 : Child
  deriving DecidableEq, Repr

/-- The five filter types (43_scanline.md R214). -/
inductive FilterType where
  | none | sub | up | average | paeth
  deriving DecidableEq, Repr

/-- The filter unit (43_scanline.md R210) but for its line buffers: SF_ROW, SF_COL, SF_FILTER, SF_ACTIVE, SF_LINE
(10_state.md R46 to R50) and the latched W_L, H_L, BPP_L, FT_EFF (R55). -/
structure FilterUnit where
  /-- SF_ROW. -/
  row : Word
  /-- SF_COL, an i32; 0xFFFFFFFF is -1, "next byte is filter-type tag"; any other pattern is a column, read
  unsigned (log 20). -/
  col : Word
  /-- SF_FILTER, bits 7:0. -/
  tag : Byte
  /-- SF_ACTIVE. -/
  active : Bool
  /-- SF_LINE, a u32 (10_state.md R50; log 7). -/
  line : Word
  /-- W_L. -/
  width : Word
  /-- H_L. -/
  height : Word
  /-- BPP_L. -/
  bpp : Word
  /-- FT_EFF. -/
  filterType : FilterType
  deriving DecidableEq, Repr

/-- What the host can do to the block (20_memory.md R76 to R79). -/
inductive HostAccess where
  /-- HostWriteReg(r, v) (R76). -/
  | writeReg (r : Byte) (v : Word)
  /-- HostReadReg(r) (R77). -/
  | readReg (r : Byte)
  /-- HostWriteMem(space, i, v) (R78). -/
  | writeMem (space index : Nat) (v : Word)
  /-- HostReadMem(space, i) (R79). -/
  | readMem (space index : Nat)
  /-- Power-on reset (70_reset_and_hazards.md R290), arriving between two accesses (log 3). -/
  | powerOn
  deriving DecidableEq, Repr

/-- The state of the block. The last four fields are the model's own (INVENTORY.md). -/
structure State where
  /-- STATUS (10_state.md R34). -/
  status : Word
  /-- RESULT (10_state.md R36). -/
  result : Word
  /-- ARG (10_state.md R37). -/
  arg : Word
  /-- BC_BYTE, BC_BIT, BC_VALID, BC_END (10_state.md R38 to R41). -/
  cursor : Cursor
  /-- SF_WIDTH (10_state.md R43). -/
  sfWidth : Word
  /-- SF_HEIGHT (10_state.md R44). -/
  sfHeight : Word
  /-- SF_BPP (10_state.md R45). -/
  sfBpp : Word
  /-- SF_ROW to SF_LINE and the latched configuration (10_state.md R46 to R50, R55). -/
  filter : FilterUnit
  /-- TREE[0..7] (10_state.md R53); HT_VALID is a view of it (R42). -/
  trees : Vector (Option Root) 8
  /-- The memory spaces and line buffers (10_state.md R54, R57). -/
  mem : Memory
  /-- The capacities the block was built with (00_scope.md R7). Nothing changes them. -/
  params : Params
  /-- Which power-on draw the unwritten elements hold (93_implementation_defined.md U6). -/
  draw : Nat
  /-- The host's accesses not yet performed, oldest first (20_memory.md R80). -/
  pending : List HostAccess
  /-- The values host reads have returned, oldest first (20_memory.md R77, R79). -/
  answers : List Word
  deriving DecidableEq, Repr

/-- The error codes of 60_exceptions.md R260, less NONE. Their numbers and STATUS bits are in Machine/Flags.lean. -/
inductive ErrCode where
  | illegal | badArg | cursorInvalid | underrun | tableInvalid | invalidCode
  | buildEmpty | buildOversub | buildTooMany | sfNotReady | sfOverrun | sfBadFilter | sfBadConfig
  deriving DecidableEq, Repr

/-- Why the model stops. No run from reset reaches either. -/
inductive Fault where
  /-- The block's own access to a byte bank at an index the bank does not have (20_memory.md R88 says there is none).
  Raised by `readByte`, `writeByte` and `copyLine` of Machine/Ops.lean. Safe: the model stops. -/
  | outsideSpace (bank : ByteBank) (index : Nat)
  /-- A data byte for a filter whose BPP_L is 0, where `c div BPP_L` (43_scanline.md R216) has no value; SF.INIT
  latches only 3 and 4. Raised by `execSfPush`. Safe: the model stops. -/
  | noPixelSize
  deriving DecidableEq, Repr

/-- Why the model has no meaning for an instruction. -/
inductive Refusal where
  /-- The instruction has no meaning yet. Raised by an arm of Machine/Dispatch.lean; no arm does. Safe. -/
  | notModelled (mnemonic : String)
  deriving DecidableEq, Repr

/-- Memory after power-on: nothing has been written (70_reset_and_hazards.md R291). -/
def Memory.unwritten : Memory where
  stream := []
  htLen := []
  htSym := []
  out := []
  cur := []
  prev := []
  idctIn := []
  idctOut := []

/-- The cursor after power-on reset: invalid (70_reset_and_hazards.md R290). -/
def Cursor.reset : Cursor where
  byte := 0#32
  bit := 0#3
  valid := false
  endBound := 0#32

/-- The filter after power-on reset: inactive, SF_COL = -1 (70_reset_and_hazards.md R290). -/
def FilterUnit.reset : FilterUnit where
  row := 0#32
  col := 0xFFFFFFFF#32
  tag := 0#8
  active := false
  line := 0#32
  width := 0#32
  height := 0#32
  bpp := 0#32
  filterType := .none

/-- A block with capacities `p` right after power-on reset, its unwritten elements holding draw `d`
(70_reset_and_hazards.md R290, R291). -/
def State.resetWith (p : Params) (d : Nat) : State where
  status := 0x00000001#32
  result := 0#32
  arg := 0#32
  cursor := Cursor.reset
  sfWidth := 0#32
  sfHeight := 0#32
  sfBpp := 0#32
  filter := FilterUnit.reset
  trees := Vector.replicate 8 none
  mem := Memory.unwritten
  params := p
  draw := d
  pending := []
  answers := []

/-- The machine right after reset (70_reset_and_hazards.md R290, R291), with this block's capacities and draw 0
(DESIGN CHOICE, log 5). -/
def State.reset : State := State.resetWith Config.params 0

end Sys2Proof.Machine
end

