-- ==== Sys2Proof/Machine/Flags.lean ====
section
/-! DEFINITION. STATUS (10_state.md R34): its fields, the numbers of the error codes (60_exceptions.md R260), and what
the success procedure, the error procedure and a host write do to it. -/

namespace Sys2Proof.Machine

/-- The LAST_ERR number of an error code (60_exceptions.md R260). -/
def ErrCode.number : ErrCode → Byte
  | .illegal => 0x01#8
  | .badArg => 0x02#8
  | .cursorInvalid => 0x03#8
  | .underrun => 0x04#8
  | .tableInvalid => 0x05#8
  | .invalidCode => 0x06#8
  | .buildEmpty => 0x07#8
  | .buildOversub => 0x08#8
  | .buildTooMany => 0x09#8
  | .sfNotReady => 0x0A#8
  | .sfOverrun => 0x0B#8
  | .sfBadFilter => 0x0C#8
  | .sfBadConfig => 0x0D#8

/-- bit(code): the sticky STATUS bit of an error code (60_exceptions.md R260). -/
def ErrCode.stickyBit : ErrCode → Nat
  | .illegal => 1
  | .badArg => 2
  | .cursorInvalid => 3
  | .underrun => 4
  | .tableInvalid => 5
  | .invalidCode => 6
  | .buildEmpty => 7
  | .buildOversub => 7
  | .buildTooMany => 7
  | .sfNotReady => 8
  | .sfOverrun => 9
  | .sfBadFilter => 10
  | .sfBadConfig => 11

/-- STATUS.OK, bit 0. -/
def statusOk (st : Word) : Bool := st.getLsbD 0

/-- STATUS.LAST_ERR, bits 31:24. -/
def lastErr (st : Word) : Byte := st.extractLsb' 24 8

/-- STATUS[11:1], the sticky bits, in place. -/
def stickyMask : Word := 0x00000FFE#32

/-- STATUS after the success procedure: OK <- 1, LAST_ERR <- 0 (60_exceptions.md R261). -/
def statusSucceed (st : Word) : Word := (st &&& 0x00FFFFFE#32) ||| 1#32

/-- STATUS after the error procedure: OK <- 0, LAST_ERR <- code, bit(code) <- 1 (60_exceptions.md R262). -/
def statusFail (code : ErrCode) (st : Word) : Word :=
  (st &&& 0x00FFFFFE#32) ||| (1#32 <<< code.stickyBit) ||| (code.number.setWidth 32 <<< 24)

/-- STATUS after a host write of `v`: each sticky bit that `v` selects is cleared (10_state.md R34). -/
def statusClear (v st : Word) : Word := st &&& ~~~(v &&& stickyMask)

end Sys2Proof.Machine
end

