-- ==== Sys2Proof/Machine/Operands.lean ====
section
/-! DEFINITION. The operand forms: the bit count of format B, the slot of format T, and receive/extend, which turns a
field of bits into a signed value (41_bitcursor.md R146). -/

namespace Sys2Proof.Machine

/-- MAX_BITS, the widest read (00_scope.md R6, 30_encoding.md R109). -/
def maxBits : Nat := 16

/-- SLOT = CLS*4 + DST, with class DC = 0 and AC = 1 (30_encoding.md R104, 10_state.md R42). -/
def slotOf (cls : TableClass) (dst : Fin 4) : Fin 8 :=
  match cls with
  | .dc => ⟨dst.val, by omega⟩
  | .ac => ⟨4 + dst.val, by omega⟩

/-- Extend(v, n): the signed value of an n-bit magnitude field (41_bitcursor.md R146). -/
def extend (v n : Nat) : Int :=
  if n = 0 then 0
  else if v.testBit (n - 1) then v
  else v - (2 ^ n - 1)

/-- sext_32 of a value that fits in 32 signed bits (41_bitcursor.md R147). -/
def signedWord (v : Int) : Word := BitVec.ofInt 32 v

/-- zext_32 of an unsigned value (00_scope.md R8). -/
def unsignedWord (v : Nat) : Word := BitVec.ofNat 32 v

/-- ARG[n-1:0], and 0 when n = 0 (41_bitcursor.md R152). -/
def lowBits (arg : Word) (n : Nat) : Nat := arg.toNat % 2 ^ n

end Sys2Proof.Machine
end

