-- ==== Sys2Proof/Machine/Ops.lean ====
section
/-! DEFINITION. The shared operations: sparse stores and the memory banks (10_state.md R54, R57), the two ways a command
ends (60_exceptions.md R261, R262), and the cursor primitives (41_bitcursor.md R141 to R143). -/

namespace Sys2Proof.Machine

/-- What a meaning answers. -/
abbrev Result := Host.Outcome State Fault Refusal

/-! Sparse stores. -/

/-- The element at index `i`, if it has been written. -/
def Store.find? {α : Type} : Store α → Nat → Option α
  | [], _ => none
  | (j, v) :: rest, i => if j = i then some v else Store.find? rest i

/-- Writes `v` at index `i`, keeping indexes strictly rising. -/
def Store.put {α : Type} : Store α → Nat → α → Store α
  | [], i, v => [(i, v)]
  | (j, w) :: rest, i, v =>
    if i < j then (i, v) :: (j, w) :: rest
    else if i = j then (i, v) :: rest
    else (j, w) :: Store.put rest i v

/-- The canonical form: indexes strictly rising. -/
def Store.wf {α : Type} : Store α → Bool
  | [] => true
  | [_] => true
  | (i, _) :: (j, w) :: rest => i < j && Store.wf ((j, w) :: rest)

/-- Every listed index is below `n`. -/
def Store.below {α : Type} (n : Nat) (st : Store α) : Bool := st.all fun e => e.1 < n

/-! The banks. -/

/-- The store of a byte bank. -/
def Memory.bytes (m : Memory) : ByteBank → Store Byte
  | .stream => m.stream
  | .htLen => m.htLen
  | .htSym => m.htSym
  | .out => m.out
  | .cur => m.cur
  | .prev => m.prev

/-- The memory with one byte bank's store replaced. -/
def Memory.setBytes (m : Memory) (b : ByteBank) (st : Store Byte) : Memory :=
  match b with
  | .stream => { m with stream := st }
  | .htLen => { m with htLen := st }
  | .htSym => { m with htSym := st }
  | .out => { m with out := st }
  | .cur => { m with cur := st }
  | .prev => { m with prev := st }

/-- The store of a binary32 bank. -/
def Memory.words (m : Memory) : WordBank → Store Word
  | .idctIn => m.idctIn
  | .idctOut => m.idctOut

/-- The memory with one binary32 bank's store replaced. -/
def Memory.setWords (m : Memory) (b : WordBank) (st : Store Word) : Memory :=
  match b with
  | .idctIn => { m with idctIn := st }
  | .idctOut => { m with idctOut := st }

/-- How many elements a byte bank has (10_state.md R54, R57). -/
def byteBankSize (p : Params) : ByteBank → Nat
  | .stream => p.streamSize
  | .htLen => 16
  | .htSym => 256
  | .out => p.outSize
  | .cur => p.maxLine
  | .prev => p.maxLine

/-- IDCT_N: how many elements each binary32 bank has (00_scope.md R6, 10_state.md R57). -/
def wordBankSize : Nat := 64

/-- Every store is in the canonical form. -/
def Memory.wf (m : Memory) : Bool :=
  Store.wf m.stream && Store.wf m.htLen && Store.wf m.htSym && Store.wf m.out &&
    Store.wf m.cur && Store.wf m.prev && Store.wf m.idctIn && Store.wf m.idctOut

/-- Every listed index exists in its bank. -/
def Memory.inBounds (p : Params) (m : Memory) : Bool :=
  Store.below (byteBankSize p .stream) m.stream && Store.below (byteBankSize p .htLen) m.htLen &&
    Store.below (byteBankSize p .htSym) m.htSym && Store.below (byteBankSize p .out) m.out &&
    Store.below (byteBankSize p .cur) m.cur && Store.below (byteBankSize p .prev) m.prev &&
    Store.below wordBankSize m.idctIn && Store.below wordBankSize m.idctOut

/-- What byte `i` of a bank reads as: the byte written there, or the power-on contents (20_memory.md R84, R89). -/
def State.byteAt (s : State) (b : ByteBank) (i : Nat) : Byte :=
  (Store.find? (s.mem.bytes b) i).getD (Config.powerOnByte s.draw b i)

/-- What element `i` of a binary32 bank reads as (20_memory.md R84, R89). -/
def State.wordAt (s : State) (b : WordBank) (i : Nat) : Word :=
  (Store.find? (s.mem.words b) i).getD (Config.powerOnWord s.draw b i)

/-- The state with byte `i` of a bank written. -/
def State.putByte (s : State) (b : ByteBank) (i : Nat) (v : Byte) : State :=
  { s with mem := s.mem.setBytes b (Store.put (s.mem.bytes b) i v) }

/-- The state with element `i` of a binary32 bank written. -/
def State.putWord (s : State) (b : WordBank) (i : Nat) (v : Word) : State :=
  { s with mem := s.mem.setWords b (Store.put (s.mem.words b) i v) }

/-- MemRead of a byte bank by the block; an index the bank does not have faults (log 10). -/
def readByte (s : State) (b : ByteBank) (i : Nat) : Except Fault Byte :=
  if i < byteBankSize s.params b then .ok (s.byteAt b i) else .error (.outsideSpace b i)

/-- MemWrite of a byte bank by the block; an index the bank does not have faults (log 10). -/
def writeByte (s : State) (b : ByteBank) (i : Nat) (v : Byte) : Except Fault State :=
  if i < byteBankSize s.params b then .ok (s.putByte b i v) else .error (.outsideSpace b i)

/-! How a command ends. -/

/-- The sentinel (60_exceptions.md R262). -/
def sentinel : Word := 0xFFFFFFFF#32

/-- `ok()`, the success procedure (60_exceptions.md R261). -/
def succeed (s : State) : State := { s with status := statusSucceed s.status }

/-- `fail(code)`, the error procedure (60_exceptions.md R262). The block has no traps (R264): this is everything that
happens, and the machine goes on. -/
def fail (code : ErrCode) (s : State) : State :=
  { s with status := statusFail code s.status, result := sentinel }

/-- RESULT <- v, then `ok()` (10_state.md R36). -/
def succeedWith (v : Word) (s : State) : State := succeed { s with result := v }

/-- The state with another cursor. -/
def State.withCursor (s : State) (c : Cursor) : State := { s with cursor := c }

/-- The state with BC_VALID <- 0 (10_state.md R40). -/
def State.invalidateCursor (s : State) : State := { s with cursor := { s.cursor with valid := false } }

/-- The state with another filter unit. -/
def State.withFilter (s : State) (f : FilterUnit) : State := { s with filter := f }

/-- The state with TREE[slot] replaced (10_state.md R53). -/
def State.withTree (s : State) (slot : Fin 8) (r : Option Root) : State :=
  { s with trees := s.trees.set slot.val r slot.isLt }

/-- TREE[slot] (10_state.md R53). -/
def State.tree (s : State) (slot : Fin 8) : Option Root := s.trees[slot.val]

/-- A command whose accesses may fault: it ends in `ok()` where none does. -/
def finish : Except Fault State → Result
  | .ok s => .next (succeed s)
  | .error f => .fault f

/-! The cursor. -/

/-- `avail()`, the bits left before the end bound (41_bitcursor.md R143). -/
def Cursor.avail (c : Cursor) : Nat :=
  if c.byte < c.endBound then 8 * (c.endBound.toNat - c.byte.toNat) - c.bit.toNat else 0

/-- The number of bits before the cursor. -/
def Cursor.position (c : Cursor) : Nat := 8 * c.byte.toNat + c.bit.toNat

/-- One bit further (41_bitcursor.md R141). -/
def Cursor.advance (c : Cursor) : Cursor :=
  if c.bit = 7#3 then { c with bit := 0#3, byte := c.byte + 1#32 } else { c with bit := c.bit + 1#3 }

/-- The bit `NextBit` returns: bit `7 - BC_BIT` of STREAM[BC_BYTE] (41_bitcursor.md R141, 20_memory.md R70). -/
def nextBit (s : State) (c : Cursor) : Except Fault Bool :=
  (readByte s .stream c.byte.toNat).map fun b => b.getLsbD (7 - c.bit.toNat)

/-- `ReadBitsRaw(n)` begun with the value `v`: the first bit read is the most significant (41_bitcursor.md R142). -/
def readBits (s : State) : Nat → Nat → Cursor → Except Fault (Nat × Cursor)
  | 0, v, c => .ok (v, c)
  | n + 1, v, c =>
    match nextBit s c with
    | .ok b => readBits s n (2 * v + b.toNat) c.advance
    | .error f => .error f

/-- BC_VALID <- 0, then `fail(code)` (41_bitcursor.md R144, 42_huffman.md R185, R186). -/
def failCursor (code : ErrCode) (s : State) : State := fail code s.invalidateCursor

end Sys2Proof.Machine
end

