-- ==== Sys2Proof/Machine/BitCursor.lean ====
section
/-! DEFINITION. The bit cursor commands (41_bitcursor.md). -/

namespace Sys2Proof.Machine

/-- BC.LOAD: start the cursor at byte ARG (41_bitcursor.md R148). -/
def execBcLoad (s : State) : Result :=
  if s.cursor.endBound < s.arg then .next (fail .badArg s)
  else .next (succeed (s.withCursor { s.cursor with byte := s.arg, bit := 0#3, valid := true }))

/-- A fixed-length read of `n` bits that returns `post` of the value read (41_bitcursor.md R149, R150, R144). -/
def readCommand (n : Nat) (post : Nat → Word) (s : State) : Result :=
  if maxBits < n then .next (fail .badArg s)
  else if s.cursor.valid = false then .next (fail .cursorInvalid s)
  else if s.cursor.avail < n then .next (failCursor .underrun s)
  else
    match readBits s n 0 s.cursor with
    | .ok (v, c) => .next (succeedWith (post v) (s.withCursor c))
    | .error f => .fault f

/-- BC.READ n: `readBits(n)` (41_bitcursor.md R149). -/
def execBcRead (n : Nat) (s : State) : Result := readCommand n unsignedWord s

/-- BC.READX n: read n bits and apply receive/extend (41_bitcursor.md R150). -/
def execBcReadX (n : Nat) (s : State) : Result := readCommand n (fun v => signedWord (extend v n)) s

/-- The cursor rounded up to a byte boundary (41_bitcursor.md R151). -/
def Cursor.align (c : Cursor) : Cursor :=
  if c.bit = 0#3 then c else { c with byte := c.byte + 1#32, bit := 0#3 }

/-- BC.ALIGN: `align()` (41_bitcursor.md R151). -/
def execBcAlign (s : State) : Result :=
  if s.cursor.valid = false then .next (fail .cursorInvalid s)
  else .next (succeed (s.withCursor s.cursor.align))

/-- BC.EXT n: receive/extend of ARG[n-1:0], without reading the stream (41_bitcursor.md R152). -/
def execBcExt (n : Nat) (s : State) : Result :=
  if maxBits < n then .next (fail .badArg s)
  else .next (succeedWith (signedWord (extend (lowBits s.arg n) n)) s)

end Sys2Proof.Machine
end

