-- ==== Sys2Proof/Machine/Control.lean ====
section
/-! DEFINITION. The control commands, NOP and SRESET (40_control.md). -/

namespace Sys2Proof.Machine

/-- NOP: no operation (40_control.md R130). -/
def execNop (s : State) : Result := .next (succeed s)

/-- SRESET: session reset (40_control.md R131). ARG, BC_END, SF_WIDTH, SF_HEIGHT, SF_BPP, the memory spaces and the
line buffers keep their values. -/
def execSreset (s : State) : Result :=
  .next (succeed
    { s with
      trees := Vector.replicate 8 none
      cursor := { s.cursor with valid := false, byte := 0#32, bit := 0#3 }
      filter :=
        { active := false, row := 0#32, col := 0xFFFFFFFF#32, tag := 0#8, line := 0#32
          width := 0#32, height := 0#32, bpp := 0#32, filterType := .none }
      result := 0#32
      status := 0#32 })

end Sys2Proof.Machine
end

