-- ==== Sys2Proof/Machine/Huffman.lean ====
section
/-! DEFINITION. The Huffman table commands (42_huffman.md): building a table from a histogram and a symbol list, and
decoding one symbol. -/

namespace Sys2Proof.Machine

/-! Building (R171 to R176). -/

/-- The symbol list cut by code length: the first L[1] symbols, the next L[2], and so on (42_huffman.md R172). -/
def splitByLength {α : Type} : List Nat → List α → List (List α)
  | [], _ => []
  | n :: ns, syms => syms.take n :: splitByLength ns (syms.drop n)

/-- Pairs off nodes into parents: `items[j]` is the 0-child and `items[j+1]` the 1-child; a lone item becomes the
0-child of a parent whose 1-child is Empty (42_huffman.md R174, 90_conflicts.md C1). -/
def pairUp : List Child → List Child
  | [] => []
  | [a] => [.inner a .empty]
  | a :: b :: rest => .inner a b :: pairUp rest

/-- The nodes at depth 1 of the tree whose symbols of length 1, 2, ... are the lists given: at each depth the leaves,
then the parents of the nodes one deeper (42_huffman.md R174). -/
def nodesAtDepthOne : List (List Byte) → List Child
  | [] => []
  | syms :: deeper => syms.map .leaf ++ pairUp (nodesAtDepthOne deeper)

/-- `BuildTree(L, S)`; `none` is OVERSUB (42_huffman.md R174). With no symbol at all there is no node, which HT.BUILD
rejects before (R176, log 21). -/
def buildTree (lengths : List Nat) (syms : List Byte) : Option Root :=
  match nodesAtDepthOne (splitByLength lengths syms) with
  | [a] => some { c0 := a, c1 := .empty }
  | [a, b] => some { c0 := a, c1 := b }
  | _ => none

/-- MAX_SYMBOLS (00_scope.md R6). -/
def maxSymbols : Nat := 256

/-- The histogram L[1..16]: HT_LEN[0..15] (42_huffman.md R171). -/
def histogram (s : State) : List Nat := (List.range 16).map fun k => (s.byteAt .htLen k).toNat

/-- N, the symbol count (42_huffman.md R171). -/
def symbolCount (s : State) : Nat := (histogram s).sum

/-- The symbol list S[0..N-1]: HT_SYM[0..N-1] (42_huffman.md R171). -/
def symbolList (s : State) : List Byte := (List.range (symbolCount s)).map fun i => s.byteAt .htSym i

/-- HT.BUILD into a slot; every build error leaves the slot empty (42_huffman.md R176). HT_SYM is read only where
N <= 256, so no access leaves its space. -/
def buildSlot (slot : Fin 8) (s : State) : State :=
  if maxSymbols < symbolCount s then fail .buildTooMany (s.withTree slot none)
  else if symbolCount s = 0 then fail .buildEmpty (s.withTree slot none)
  else
    match buildTree (histogram s) (symbolList s) with
    | none => fail .buildOversub (s.withTree slot none)
    | some r => succeed (s.withTree slot (some r))

/-- HT.BUILD cls, d: `build(lengths[16], symbols[])` into slot cls*4 + d (42_huffman.md R176). -/
def execHtBuild (cls : TableClass) (dst : Fin 4) (s : State) : Result := .next (buildSlot (slotOf cls dst) s)

/-! Decoding (R182 to R187). -/

/-- How a decode walk ends. -/
inductive WalkEnd where
  /-- A leaf was reached. -/
  | symbol (sym : Byte)
  /-- A bit was needed and none was left (42_huffman.md R185). -/
  | underrun
  /-- An Empty child was reached (42_huffman.md R186). -/
  | invalidCode
  deriving DecidableEq, Repr

/-- The decode walk from a node: at an inner node one bit is read, bit 0 selects c0 and bit 1 selects c1
(42_huffman.md R182 to R184). -/
def walk (s : State) : Child → Cursor → Except Fault (WalkEnd × Cursor)
  | .empty, c => .ok (.invalidCode, c)
  | .leaf sym, c => .ok (.symbol sym, c)
  | .inner c0 c1, c =>
    if c.avail = 0 then .ok (.underrun, c)
    else
      match nextBit s c with
      | .error f => .error f
      | .ok false => walk s c0 c.advance
      | .ok true => walk s c1 c.advance

/-- What a walk's end does: RESULT and `ok()`, or BC_VALID <- 0 and `fail`; the bits read stay consumed either way
(42_huffman.md R184 to R186). -/
def endWalk (s : State) : WalkEnd × Cursor → State
  | (.symbol sym, c) => succeedWith (sym.setWidth 32) (s.withCursor c)
  | (.underrun, c) => failCursor .underrun (s.withCursor c)
  | (.invalidCode, c) => failCursor .invalidCode (s.withCursor c)

/-- Decodes one symbol with the table in a slot (42_huffman.md R184). -/
def decodeSlot (slot : Fin 8) (s : State) : Result :=
  match s.tree slot with
  | none => .next (fail .tableInvalid s)
  | some r =>
    if s.cursor.valid = false then .next (fail .cursorInvalid s)
    else
      match walk s (.inner r.c0 r.c1) s.cursor with
      | .ok e => .next (endWalk s e)
      | .error f => .fault f

/-- HT.DECODE cls, d: `decode(cursor)` with the table in slot cls*4 + d (42_huffman.md R184). -/
def execHtDecode (cls : TableClass) (dst : Fin 4) (s : State) : Result := decodeSlot (slotOf cls dst) s

/-! The codes a table decodes (R178); the machine does not use them. -/

/-- The k-bit binary value of `code`, most significant bit first (42_huffman.md R178). -/
def codeBits : Nat → Nat → List Bool
  | 0, _ => []
  | k + 1, code => code.testBit k :: codeBits k code

/-- The canonical codes of the symbols of length k, k+1, ..., in list order, the first of them `code`
(42_huffman.md R178). -/
def canonicalCodesFrom : Nat → Nat → List Nat → List (List Bool)
  | _, _, [] => []
  | k, code, n :: ns =>
    (List.range n).map (fun j => codeBits k (code + j)) ++ canonicalCodesFrom (k + 1) (2 * (code + n)) ns

/-- The canonical codes of a histogram, one per symbol, in list order (42_huffman.md R178). -/
def canonicalCodes (lengths : List Nat) : List (List Bool) := canonicalCodesFrom 1 0 lengths

end Sys2Proof.Machine
end

