-- ==== Sys2Proof/Machine/Idct.lean ====
section
/-! DEFINITION. The inverse DCT command (44_idct.md R240), what a binary32 pattern denotes, and IDCT_ACCURATE, the
named property a claim may assume of IDCT_IMPL (R241, R242), with the forward transform of R246. The machine uses only `execIdct`. -/

namespace Sys2Proof.Machine

/-- The 64 elements of a binary32 bank. -/
def block (s : State) (b : WordBank) : Vector Word 64 := Vector.ofFn fun j => s.wordAt b j.val

/-- A store after all 64 elements of a block are written into it, in index order. -/
def putBlock (y : Vector Word 64) (st : Store Word) : Store Word :=
  (List.finRange 64).foldl (fun st j => Store.put st j.val (y.get j)) st

/-- Writes all 64 elements of IDCT_OUT (44_idct.md R240). -/
def writeBlock (y : Vector Word 64) (s : State) : State :=
  { s with mem := s.mem.setWords .idctOut (putBlock y s.mem.idctOut) }

/-- The IDCT of a block whose arithmetic is `impl`: IDCT_OUT <- impl(IDCT_IN) (44_idct.md R240). -/
def idctWith (impl : Vector Word 64 → Vector Word 64) (s : State) : Result :=
  .next (succeed (writeBlock (impl (block s .idctIn)) s))

/-- IDCT: the 8x8 inverse transform of IDCT_IN into IDCT_OUT by IDCT_IMPL (44_idct.md R240, R242). -/
def execIdct (s : State) : Result := idctWith Config.idctImpl s

/-! IEEE 754 binary32 (00_scope.md R8, 10_state.md R61). PRESUMED from IEEE 754 (log 24). -/

/-- The sign bit. -/
def floatSign (w : Word) : Bool := w.getLsbD 31

/-- The exponent field. -/
def floatExponent (w : Word) : Nat := (w.extractLsb' 23 8).toNat

/-- The fraction field. -/
def floatFraction (w : Word) : Nat := (w.extractLsb' 0 23).toNat

/-- The pattern is a finite number, not a NaN or an infinity. -/
def floatFinite (w : Word) : Bool := floatExponent w != 255

/-- The magnitude of a finite pattern, subnormals included. -/
def floatMagnitude (w : Word) : Rat :=
  if floatExponent w = 0 then floatFraction w / 2 ^ 149
  else (2 ^ 23 + floatFraction w) * 2 ^ floatExponent w / 2 ^ 150

/-- The value of a finite pattern. -/
def floatValue (w : Word) : Rat := if floatSign w then -floatMagnitude w else floatMagnitude w

/-- `e` is IDCT_EXACT of the real coefficients `f` at output (x, y) (44_idct.md R241): the double sum in real
arithmetic, `f u v` being in[u][v]. -/
def IsIdctExact (f : Fin 8 → Fin 8 → ℝ) (x y : Fin 8) (e : ℝ) : Prop :=
  e = 1 / 4 * ∑ u : Fin 8, ∑ v : Fin 8,
    (if u = 0 then 1 / √2 else 1) * (if v = 0 then 1 / √2 else 1) * f u v *
      Real.cos ((2 * x.val + 1) * u.val * Real.pi / 16) * Real.cos ((2 * y.val + 1) * v.val * Real.pi / 16)

/-- `g` is the 1-D transform of the real coefficients `c` at output x (44_idct.md R247). -/
def IsTransform1d (c : Fin 8 → ℝ) (x : Fin 8) (g : ℝ) : Prop :=
  g = 1 / 2 * ∑ u : Fin 8,
    (if u = 0 then 1 / √2 else 1) * c u * Real.cos ((2 * x.val + 1) * u.val * Real.pi / 16)

/-- `c` is coefficient F[8u + v] of the forward DCT of the real samples `f`, `f x y` being f[8x + y] (44_idct.md R246,
which takes the formula from general knowledge, 93_implementation_defined.md G10; log 22). It is not a command. -/
def IsForwardDct (f : Fin 8 → Fin 8 → ℝ) (u v : Fin 8) (c : ℝ) : Prop :=
  c = 1 / 4 * (if u = 0 then 1 / √2 else 1) * (if v = 0 then 1 / √2 else 1) * ∑ x : Fin 8, ∑ y : Fin 8,
    f x y * Real.cos ((2 * x.val + 1) * u.val * Real.pi / 16) * Real.cos ((2 * y.val + 1) * v.val * Real.pi / 16)

/-- Index 8*i + j of a block: row i, column j (10_state.md R61). -/
def blockIndex (i j : Fin 8) : Fin 64 := ⟨8 * i.val + j.val, by omega⟩

/-- in[u][v] as a real number (10_state.md R61). -/
def coefficient (x : Vector Word 64) (u v : Fin 8) : Rat := floatValue (x.get (blockIndex u v))

/-- Every element is finite and at most 2^16 in magnitude (44_idct.md R242). -/
def InIdctDomain (x : Vector Word 64) : Prop :=
  ∀ j, floatFinite (x.get j) = true ∧ |floatValue (x.get j)| ≤ 2 ^ 16

/-- IDCT_ACCURATE(eps) of an IDCT arithmetic (44_idct.md R242). -/
def IdctAccurate (impl : Vector Word 64 → Vector Word 64) (eps : Rat) : Prop :=
  ∀ input, InIdctDomain input → ∀ x y : Fin 8, ∀ e : ℝ,
    IsIdctExact (fun u v => (coefficient input u v : ℝ)) x y e →
      floatFinite ((impl input).get (blockIndex x y)) = true ∧
        |(floatValue ((impl input).get (blockIndex x y)) : ℝ) - e| ≤ (eps : ℝ)

end Sys2Proof.Machine
end

