-- ==== Sys2Proof/Machine/Scanline.lean ====
section
/-! DEFINITION. The scanline filter commands (43_scanline.md). -/

namespace Sys2Proof.Machine

/-- `ConfigOK(w, h, p)`, on mathematical integers (43_scanline.md R212). -/
def configOk (p : Params) (w h bpp : Nat) : Bool :=
  (bpp == 3 || bpp == 4) && decide (1 ≤ w) && decide (1 ≤ h) && decide (bpp * w ≤ p.maxLine) &&
    decide (4 * w * h ≤ p.outSize)

/-- SF_COL = -1: the next byte is a filter-type tag (10_state.md R47). -/
def tagNext : Word := 0xFFFFFFFF#32

/-- SF.INIT: configure the filter for one image (43_scanline.md R211). -/
def execSfInit (s : State) : Result :=
  if configOk s.params s.sfWidth.toNat s.sfHeight.toNat s.sfBpp.toNat then
    .next (succeed (s.withFilter
      { width := s.sfWidth
        height := s.sfHeight
        bpp := s.sfBpp
        line := BitVec.ofNat 32 (s.sfBpp.toNat * s.sfWidth.toNat)
        row := 0#32
        col := tagNext
        tag := 0#8
        filterType := .none
        active := true }))
  else .next (fail .sfBadConfig (s.withFilter { s.filter with active := false }))

/-- The filter type of a tag value, if it has one (43_scanline.md R214). -/
def filterTypeOf (b : Byte) : Option FilterType :=
  if b = 0#8 then some .none
  else if b = 1#8 then some .sub
  else if b = 2#8 then some .up
  else if b = 3#8 then some .average
  else if b = 4#8 then some .paeth
  else none

/-- `TagByte(b)`: the scanline's filter-type tag; one above 4 is recorded as an error and its row is reconstructed as
None (43_scanline.md R214, R215). -/
def tagByte (b : Byte) (s : State) : State :=
  match filterTypeOf b with
  | some t => succeed (s.withFilter { s.filter with tag := b, col := 0#32, filterType := t })
  | none => fail .sfBadFilter (s.withFilter { s.filter with tag := b, col := 0#32, filterType := .none })

/-- A (left), B (above) and C (upper-left). -/
structure Neighbours where
  a : Byte
  b : Byte
  c : Byte
  deriving DecidableEq, Repr

/-- A byte of a line buffer, or 0 where the neighbour is out of bounds (43_scanline.md R217). -/
def neighbour (s : State) (inside : Bool) (bank : ByteBank) (i : Nat) : Except Fault Byte :=
  if inside then readByte s bank i else .ok 0#8

/-- `Neighbours(r, c)` (43_scanline.md R217). -/
def neighbours (s : State) (r c : Nat) : Except Fault Neighbours := do
  let bpp := s.filter.bpp.toNat
  let a ← neighbour s (decide (bpp ≤ c)) .cur (c - bpp)
  let b ← neighbour s (decide (1 ≤ r)) .prev c
  let cc ← neighbour s (decide (1 ≤ r) && decide (bpp ≤ c)) .prev (c - bpp)
  return { a := a, b := b, c := cc }

/-- The Paeth predictor (43_scanline.md R222), on integers. -/
def paeth (a b c : Byte) : Byte :=
  let p : Int := (a.toNat : Int) + b.toNat - c.toNat
  let pa := (p - a.toNat).natAbs
  let pb := (p - b.toNat).natAbs
  let pc := (p - c.toNat).natAbs
  if pa ≤ pb ∧ pa ≤ pc then a
  else if pb ≤ pc then b
  else c

/-- The predictor term of a filter type (43_scanline.md R218 to R222). Average halves a sum that does not wrap. -/
def predictor (t : FilterType) (n : Neighbours) : Byte :=
  match t with
  | .none => 0#8
  | .sub => n.a
  | .up => n.b
  | .average => BitVec.ofNat 8 ((n.a.toNat + n.b.toNat) / 2)
  | .paeth => paeth n.a n.b n.c

/-- `Recon`: the raw byte plus the predictor, modulo 256 (43_scanline.md R218 to R222). -/
def recon (t : FilterType) (raw : Byte) (n : Neighbours) : Byte := raw + predictor t n

/-- Where byte `c` of scanline `r` lies in OUT: channel `c mod BPP_L` of pixel `c div BPP_L` (43_scanline.md R216, R223). -/
def outIndex (f : FilterUnit) (r c : Nat) : Nat :=
  r * (4 * f.width.toNat) + 4 * (c / f.bpp.toNat) + c % f.bpp.toNat

/-- Where the alpha byte of the pixel of byte `c` of scanline `r` lies in OUT (43_scanline.md R223, R224). -/
def alphaIndex (f : FilterUnit) (r c : Nat) : Nat :=
  r * (4 * f.width.toNat) + 4 * (c / f.bpp.toNat) + 3

/-- Byte `c` is the third channel of a truecolour pixel, which brings the alpha byte with it (43_scanline.md R224). -/
def writesAlpha (f : FilterUnit) (c : Nat) : Bool := f.bpp.toNat == 3 && c % 3 == 2

/-- `Store(r, c, x)` (43_scanline.md R223, R224). -/
def storePixelByte (s : State) (r c : Nat) (x : Byte) : Except Fault State := do
  let s1 ← writeByte s .cur c x
  let s2 ← writeByte s1 .out (outIndex s.filter r c) x
  if writesAlpha s.filter c then writeByte s2 .out (alphaIndex s.filter r c) 255#8 else return s2

/-- PREV after PREV[i] <- CUR[i] for the first `n` indexes. -/
def copiedPrev (s : State) (n : Nat) : Store Byte :=
  (List.range n).foldl (fun st i => Store.put st i (s.byteAt .cur i)) s.mem.prev

/-- PREV[i] <- CUR[i] for the first `n` indexes (43_scanline.md R225). -/
def copyLine (s : State) (n : Nat) : Except Fault State :=
  if n ≤ byteBankSize s.params .prev then .ok { s with mem := s.mem.setBytes .prev (copiedPrev s n) }
  else .error (.outsideSpace .prev (byteBankSize s.params .prev))

/-- `Advance(r, c)` (43_scanline.md R225). -/
def advanceColumn (s : State) (r c : Nat) : Except Fault State :=
  if c + 1 = s.filter.line.toNat then do
    let s1 ← copyLine s s.filter.line.toNat
    return s1.withFilter { s.filter with col := tagNext, row := BitVec.ofNat 32 (r + 1) }
  else return s.withFilter { s.filter with col := BitVec.ofNat 32 (c + 1) }

/-- A data byte: reconstruct it, store it, advance (43_scanline.md R213, R216). -/
def dataByte (b : Byte) (s : State) : Except Fault State := do
  let r := s.filter.row.toNat
  let c := s.filter.col.toNat
  let n ← neighbours s r c
  let s1 ← storePixelByte s r c (recon s.filter.filterType b n)
  advanceColumn s1 r c

/-- SF.PUSH b: consume one inflated byte (43_scanline.md R213, R226, R227). -/
def execSfPush (b : Byte) (s : State) : Result :=
  if s.filter.active = false then .next (fail .sfNotReady s)
  else if s.filter.row = s.filter.height then .next (fail .sfOverrun s)
  else if s.filter.col = tagNext then .next (tagByte b s)
  else if s.filter.bpp = 0#32 then .fault .noPixelSize
  else finish (dataByte b s)

end Sys2Proof.Machine
end

