-- ==== Sys2Proof/Machine/Dispatch.lean ====
section
/-! DEFINITION. One command, dispatched to its meaning: one arm per constructor of Instr. -/

namespace Sys2Proof.Machine

def exec (i : Instr) (s : State) : Host.Outcome State Fault Refusal :=
  match i with
  | .nop => Sys2Proof.Machine.execNop s
  | .sreset => Sys2Proof.Machine.execSreset s
  | .bcLoad => Sys2Proof.Machine.execBcLoad s
  | .bcRead n => Sys2Proof.Machine.execBcRead n s
  | .bcReadX n => Sys2Proof.Machine.execBcReadX n s
  | .bcAlign => Sys2Proof.Machine.execBcAlign s
  | .bcExt n => Sys2Proof.Machine.execBcExt n s
  | .htBuild cls dst => Sys2Proof.Machine.execHtBuild cls dst s
  | .htDecode cls dst => Sys2Proof.Machine.execHtDecode cls dst s
  | .idct => Sys2Proof.Machine.execIdct s
  | .sfInit => Sys2Proof.Machine.execSfInit s
  | .sfPush b => Sys2Proof.Machine.execSfPush b s

end Sys2Proof.Machine
end

