-- ==== Sys2Proof/Machine/HostAccess.lean ====
section
/-! DEFINITION. The host's accesses (20_memory.md R76 to R79) and power-on reset (70_reset_and_hazards.md R290). -/

namespace Sys2Proof.Machine

/-! Registers (10_state.md R32). -/

/-- A Bool as a register value, bits 31:1 reading 0. -/
def flagWord (b : Bool) : Word := if b then 1#32 else 0#32

/-- HT_VALID: bit s is 1 when slot s holds a table (10_state.md R42, R53). -/
def htValid (s : State) : Word :=
  (List.finRange 8).foldl (fun w slot => if (s.tree slot).isSome then w ||| (1#32 <<< slot.val) else w) 0#32

/-- HostReadReg(r): the register's value, reserved bits and reserved registers as 0 (20_memory.md R77, 10_state.md R32,
R33, R51). -/
def hostReadReg (r : Byte) (s : State) : Word :=
  if r = 1#8 then s.status
  else if r = 2#8 then s.result
  else if r = 3#8 then s.arg
  else if r = 4#8 then s.cursor.byte
  else if r = 5#8 then s.cursor.bit.setWidth 32
  else if r = 6#8 then flagWord s.cursor.valid
  else if r = 7#8 then s.cursor.endBound
  else if r = 8#8 then htValid s
  else if r = 9#8 then s.sfWidth
  else if r = 10#8 then s.sfHeight
  else if r = 11#8 then s.sfBpp
  else if r = 12#8 then s.filter.row
  else if r = 13#8 then s.filter.col
  else if r = 14#8 then s.filter.tag.setWidth 32
  else if r = 15#8 then flagWord s.filter.active
  else if r = 16#8 then s.filter.line
  else 0#32

/-- `min(v, STREAM_SIZE)` (10_state.md R41). -/
def clampEnd (p : Params) (v : Word) : Word := if v.toNat ≤ p.streamSize then v else BitVec.ofNat 32 p.streamSize

/-- A command word written to CMD: the command it selects, or ILLEGAL (10_state.md R33, 30_encoding.md R107, R108). -/
def runWord (w : Word) (s : State) : Result :=
  match decode w with
  | .ok i => exec i s
  | .error _ => .next (fail .illegal s)

/-- HostWriteReg(r, v) (20_memory.md R76). -/
def hostWriteReg (r : Byte) (v : Word) (s : State) : Result :=
  if r = 0#8 then runWord v s
  else if r = 1#8 then .next { s with status := statusClear v s.status }
  else if r = 3#8 then .next { s with arg := v }
  else if r = 7#8 then .next { s with cursor := { s.cursor with endBound := clampEnd s.params v } }
  else if r = 9#8 then .next { s with sfWidth := v }
  else if r = 10#8 then .next { s with sfHeight := v }
  else if r = 11#8 then .next { s with sfBpp := v }
  else .next s

/-! Memory spaces (10_state.md R57). -/

/-- A memory space the host can name. -/
inductive Space where
  | bytes (b : ByteBank)
  | words (b : WordBank)
  deriving DecidableEq, Repr

/-- The space of an id, if it is defined (10_state.md R57). The line buffers have no id. -/
def spaceOf (id : Nat) : Option Space :=
  if id = 0 then some (.bytes .stream)
  else if id = 1 then some (.bytes .htLen)
  else if id = 2 then some (.bytes .htSym)
  else if id = 3 then some (.words .idctIn)
  else if id = 4 then some (.words .idctOut)
  else if id = 5 then some (.bytes .out)
  else none

/-- HostWriteMem(space, i, v): ignored outside the space, to IDCT_OUT and to an undefined id (20_memory.md R78). -/
def hostWriteMem (id i : Nat) (v : Word) (s : State) : State :=
  match spaceOf id with
  | some (.bytes b) => if i < byteBankSize s.params b then s.putByte b i (v.extractLsb' 0 8) else s
  | some (.words .idctIn) => if i < wordBankSize then s.putWord .idctIn i v else s
  | some (.words .idctOut) => s
  | none => s

/-- HostReadMem(space, i): 0 outside the space and for an undefined id (20_memory.md R79). -/
def hostReadMem (id i : Nat) (s : State) : Word :=
  match spaceOf id with
  | some (.bytes b) => if i < byteBankSize s.params b then (s.byteAt b i).setWidth 32 else 0#32
  | some (.words b) => if i < wordBankSize then s.wordAt b i else 0#32
  | none => 0#32

/-! One access. -/

/-- The value a host read returns is appended to the host's answers (log 2). -/
def State.answer (s : State) (v : Word) : State := { s with answers := s.answers ++ [v] }

/-- Power-on reset of the running machine: the reset state, a new draw of the unwritten elements, and the host's own
queue and answers kept (70_reset_and_hazards.md R290, R291; log 3). -/
def powerOnReset (s : State) : State :=
  { State.resetWith s.params (s.draw + 1) with pending := s.pending, answers := s.answers }

/-- Performs one access of the host (20_memory.md R76 to R80). -/
def performAccess (a : HostAccess) (s : State) : Result :=
  match a with
  | .writeReg r v => hostWriteReg r v s
  | .readReg r => .next (s.answer (hostReadReg r s))
  | .writeMem id i v => .next (hostWriteMem id i v s)
  | .readMem id i => .next (s.answer (hostReadMem id i s))
  | .powerOn => .next (powerOnReset s)

/-- A write to CMD placed at the head of the host's queue: the next access the block sees. -/
def State.withCommand (s : State) (w : Word) : State := { s with pending := .writeReg 0#8 w :: s.pending }

end Sys2Proof.Machine
end

