-- ==== Sys2Proof/Machine/Step.lean ====
section
/-! DEFINITION. One step: the oldest pending access of the host (20_memory.md R80), or nothing when none is pending
(60_exceptions.md R274). The block fetches no instructions (20_memory.md R83). -/

namespace Sys2Proof.Machine

/-- One step of the block. -/
def step (s : State) : Host.Outcome State Fault Refusal :=
  match s.pending with
  | [] => .next s
  | a :: rest => performAccess a { s with pending := rest }

/-- `s` with the instruction of `nbits` bits `w` about to run: the host's next access writes it to CMD (log 1). -/
def State.withFetchWord (s : State) (nbits w : Nat) : State :=
  s.withCommand (BitVec.ofNat 32 (w % 2 ^ nbits))

end Sys2Proof.Machine
end

