-- ==== Sys2Proof/Safety.lean ====
section
/-! DEFINITION. The terms statements use: how a command ended, what it left unchanged, the invariant of 10_state.md R62,
and the readings of the state that statements are about. -/

namespace Sys2Proof.Machine

/-! How a command ended. -/

/-- `t` is `s` with STATUS as the success procedure leaves it: OK = 1, LAST_ERR = 0, no other STATUS bit changed
(60_exceptions.md R261). It says nothing of the other fields. -/
def Succeeded (s t : State) : Prop :=
  statusOk t.status = true ∧ lastErr t.status = 0#8 ∧
    ∀ i, 1 ≤ i → i < 24 → t.status.getLsbD i = s.status.getLsbD i

/-- STATUS and RESULT of `t` are as the error procedure with LAST_ERR `number` and sticky bit `bit` leaves them
(60_exceptions.md R262). It says nothing of the other fields. -/
def Failed (number : Byte) (bit : Nat) (s t : State) : Prop :=
  statusOk t.status = false ∧ lastErr t.status = number ∧ t.status.getLsbD bit = true ∧
    (∀ i, 1 ≤ i → i < 24 → i ≠ bit → t.status.getLsbD i = s.status.getLsbD i) ∧
    t.result = 0xFFFFFFFF#32

/-- The error codes with their LAST_ERR numbers and STATUS bits, as 60_exceptions.md R260 lists them. -/
def errorTable : List (ErrCode × Byte × Nat) :=
  [(.illegal, 0x01#8, 1), (.badArg, 0x02#8, 2), (.cursorInvalid, 0x03#8, 3), (.underrun, 0x04#8, 4),
   (.tableInvalid, 0x05#8, 5), (.invalidCode, 0x06#8, 6), (.buildEmpty, 0x07#8, 7), (.buildOversub, 0x08#8, 7),
   (.buildTooMany, 0x09#8, 7), (.sfNotReady, 0x0A#8, 8), (.sfOverrun, 0x0B#8, 9), (.sfBadFilter, 0x0C#8, 10),
   (.sfBadConfig, 0x0D#8, 11)]

/-- The claim "no error" (10_state.md R35): STATUS[11:1] = 0. -/
def NoErrorRecorded (s : State) : Prop := s.status &&& stickyMask = 0#32

/-! What is unchanged. -/

/-- Every element of a byte bank reads in `t` as in `s`. -/
def BankSame (b : ByteBank) (s t : State) : Prop := ∀ i, t.byteAt b i = s.byteAt b i

/-- Every element of a binary32 bank reads in `t` as in `s`. -/
def WordsSame (b : WordBank) (s t : State) : Prop := ∀ i, t.wordAt b i = s.wordAt b i

/-- All of memory reads in `t` as in `s`. -/
def MemorySame (s t : State) : Prop := (∀ b, BankSame b s t) ∧ ∀ b, WordsSame b s t

/-! Readings. -/

/-- Bit `p` of the stream, byte `p div 8`, most significant bit first (20_memory.md R70). -/
def streamBit (s : State) (p : Nat) : Bool := (s.byteAt .stream (p / 8)).getLsbD (7 - p % 8)

/-- The `n` bits of the stream from bit `p` on, in stream order. -/
def streamBits (s : State) (p n : Nat) : List Bool := (List.range n).map fun i => streamBit s (p + i)

/-- L[k], for k = 1..16 (42_huffman.md R171). -/
def lengthCount (s : State) (k : Nat) : Nat := (s.byteAt .htLen (k - 1)).toNat

/-- L[1] + ... + L[16] (42_huffman.md R171). -/
def totalCount (s : State) : Nat := ∑ k ∈ Finset.Icc 1 16, lengthCount s k

/-- The Kraft sum in units of 2^-16 (42_huffman.md R179). -/
def kraftSum (s : State) : Nat := ∑ k ∈ Finset.Icc 1 16, lengthCount s k * 2 ^ (16 - k)

/-- HT.BUILD accepts the staged histogram (42_huffman.md R179). -/
def Buildable (s : State) : Prop := 1 ≤ totalCount s ∧ totalCount s ≤ 256 ∧ kraftSum s ≤ 2 ^ 16

/-- The node a bit string leads to: bit 0 to c0, bit 1 to c1 (42_huffman.md R183). -/
def Child.follow : Child → List Bool → Option Child
  | node, [] => some node
  | .inner c0 c1, b :: bits => Child.follow (if b then c1 else c0) bits
  | .empty, _ :: _ => none
  | .leaf _, _ :: _ => none

/-- A table's root as a node. -/
def Root.node (r : Root) : Child := .inner r.c0 r.c1

/-- The longest path below a node. -/
def Child.depth : Child → Nat
  | .empty => 0
  | .leaf _ => 0
  | .inner c0 c1 => 1 + max c0.depth c1.depth

/-- A, B and C of byte `c` of a scanline `x` whose previous scanline is `p`: 0 within the first pixel, and 0 above where
the row is the first (43_scanline.md R217). -/
def rowNeighbours (bpp : Nat) (firstRow : Bool) (x p : Nat → Byte) (c : Nat) : Neighbours where
  a := if bpp ≤ c then x (c - bpp) else 0#8
  b := if firstRow then 0#8 else p c
  c := if firstRow then 0#8 else if bpp ≤ c then p (c - bpp) else 0#8

/-- SF.PUSH of each byte in turn, stopping at the first fault or refusal. -/
def pushBytes : List Byte → State → Result
  | [], s => .next s
  | b :: bs, s =>
    match exec (.sfPush b) s with
    | .next t => pushBytes bs t
    | .fault f => .fault f
    | .refused r => .refused r

/-! The invariant (10_state.md R62, with what its clauses rest on). -/

/-- The capacities a block can have (00_scope.md R7). -/
def ParamsOk (p : Params) : Prop :=
  1 ≤ p.streamSize ∧ p.streamSize < 2 ^ 31 ∧ 3 ≤ p.maxLine ∧ 4 ≤ p.outSize

/-- The cursor lies in the stream (10_state.md R62, 41_bitcursor.md R154). -/
structure CursorInv (p : Params) (c : Cursor) : Prop where
  byte_le : c.byte.toNat ≤ p.streamSize
  end_le : c.endBound.toNat ≤ p.streamSize
  inside : c.bit ≠ 0#3 → c.byte.toNat < p.streamSize

/-- A configured filter has an accepted configuration and lies in its image (10_state.md R62, 43_scanline.md R212).
SF_LINE is LINE = BPP_L x W_L cut to its 32 bits (10_state.md R50). It is 0 only where LINE is a multiple of 2^32; the
clauses for that case say that the filter then stays in row 0 (log 7). -/
structure FilterInv (p : Params) (f : FilterUnit) : Prop where
  config : configOk p f.width.toNat f.height.toNat f.bpp.toNat = true
  line_eq : f.line.toNat = f.bpp.toNat * f.width.toNat % 2 ^ 32
  row_le : f.row.toNat ≤ f.height.toNat
  col_ok : f.col = tagNext ∨ f.col.toNat < f.line.toNat ∨ f.line = 0#32
  zeroLine : f.line = 0#32 → f.row = 0#32
  complete : f.row = f.height → f.col = tagNext

/-- The bytes the filter reads have been written (43_scanline.md R217). -/
structure LinesInv (s : State) : Prop where
  cur : s.filter.col ≠ tagNext → ∀ i, i < s.filter.col.toNat → (Store.find? s.mem.cur i).isSome
  prev : 1 ≤ s.filter.row.toNat → ∀ i, i < s.filter.line.toNat → (Store.find? s.mem.prev i).isSome

/-- STATUS: reserved bits read 0, OK exactly when LAST_ERR = 0, a code of 60_exceptions.md R260, and the sentinel in
RESULT after a failure (10_state.md R34, 60_exceptions.md R262). -/
structure StatusInv (s : State) : Prop where
  reserved : ∀ i, 12 ≤ i → i < 24 → s.status.getLsbD i = false
  ok_iff : statusOk s.status = true ↔ lastErr s.status = 0#8
  code_le : (lastErr s.status).toNat ≤ 13
  sentinel : lastErr s.status ≠ 0#8 → s.result = 0xFFFFFFFF#32

/-- The invariant every step keeps. -/
structure StateInv (s : State) : Prop where
  params : ParamsOk s.params
  wf : s.mem.wf = true
  bounds : s.mem.inBounds s.params = true
  cursor : CursorInv s.params s.cursor
  filter : s.filter.active = true → FilterInv s.params s.filter
  lines : s.filter.active = true → LinesInv s
  status : StatusInv s
  depth : ∀ slot r, s.tree slot = some r → r.node.depth ≤ 16

end Sys2Proof.Machine
end

