-- ==== Sys2Proof/Certificates/Slice0/Obligations.lean ====
section
/-! DEFINITION. The statements for the provers. Each docstring names the rule of spec/ the statement formalises. -/

open Sys2Proof Sys2Proof.Machine

/-! Encoding (30_encoding.md). -/

/-- Decode and encode agree on every command, with every operand at every value its field admits (R100 to R106). -/
def Obligations.DecodeOfEncodeIsTheCommand : Prop :=
  ∀ i : Instr, i.wf = true → decode (encode i) = .ok i

/-- A word that decodes is the one word of its command, and the command has an encoding: no bit of the word is dropped
(R100 to R106). -/
def Obligations.DecodedWordIsItsEncoding : Prop :=
  ∀ w i, decode w = .ok i → encode i = w ∧ i.wf = true

/-- Decoding is total and unambiguous: a word decodes exactly when it matches a row of the opcode table, and it matches at
most one (R100, R106 to R108). -/
def Obligations.LegalWordsMatchOneTableRow : Prop :=
  ∀ w, ((∃ i, decode w = .ok i) ↔ LegalWord w) ∧
    ∀ row ∈ opcodeRows, ∀ row' ∈ opcodeRows, w &&& row.1 = row.2 → w &&& row'.1 = row'.2 → row = row'

/-- Words written out from the formats and examples of R102 to R106 and R112 decode to their commands, with the
pseudo-instructions of R113. -/
def Obligations.SpecWordsDecode : Prop :=
  decode 0x00000000#32 = .ok .nop ∧ decode 0x00000001#32 = .ok .sreset ∧
  decode 0x00000010#32 = .ok .bcLoad ∧ decode 0x00000311#32 = .ok (.bcRead 3) ∧
  decode 0x00000212#32 = .ok (.bcReadX 2) ∧ decode 0x00000013#32 = .ok .bcAlign ∧
  decode 0x00000314#32 = .ok (.bcExt 3) ∧ decode 0x00000120#32 = .ok (.htBuild .dc 1) ∧
  decode 0x00000521#32 = .ok (.htDecode .ac 1) ∧ decode 0x00000030#32 = .ok .idct ∧
  decode 0x00000040#32 = .ok .sfInit ∧ decode 0x00000441#32 = .ok (.sfPush 4#8) ∧
  assemble (.bcSkip 8) = 0x00000811#32 ∧ assemble .restart = 0x00000013#32 ∧
  assemble (.cmd 0x00010011#32) = 0x00010011#32

/-- A word that matches no row of the opcode table, written to CMD, fails with ILLEGAL (code 0x01, STATUS bit 1) and
changes nothing else; the queue and the step are the model's (log 1). R107, R108. -/
def Obligations.IllegalWordOnlyFails : Prop :=
  ∀ (s : State) (rest : List HostAccess) (w : Word), s.pending = .writeReg 0#8 w :: rest → ¬ LegalWord w →
    ∃ t, step s = .next t ∧ Failed 0x01#8 1 s t ∧
      t = { s with status := t.status, result := t.result, pending := rest } ∧ MemorySame s t

/-! The step (10_state.md R33, 20_memory.md R80). -/

/-- When the host's next access writes a legal word to CMD, the step runs the decoded command; when it writes a register
or a memory element, the step performs that write; with no access pending nothing happens. The queue is the model's
(log 1). R33, R76, R78, R80, R274. -/
def Obligations.StepRunsTheDecodedCommand : Prop :=
  (∀ (s : State) (rest : List HostAccess) (w : Word) (i : Instr),
    s.pending = .writeReg 0#8 w :: rest → decode w = .ok i → step s = exec i { s with pending := rest }) ∧
  (∀ (s : State) (rest : List HostAccess) (r : Byte) (v : Word),
    s.pending = .writeReg r v :: rest → step s = hostWriteReg r v { s with pending := rest }) ∧
  (∀ (s : State) (rest : List HostAccess) (id i : Nat) (v : Word),
    s.pending = .writeMem id i v :: rest → step s = .next (hostWriteMem id i v { s with pending := rest })) ∧
  (∀ s : State, s.pending = [] → step s = .next s)

/-! Ending a command (60_exceptions.md). -/

/-- The success procedure sets OK, clears LAST_ERR, changes no sticky bit and nothing else (R261). -/
def Obligations.SuccessProcedureEffect : Prop :=
  ∀ s : State, Succeeded s (succeed s) ∧ succeed s = { s with status := (succeed s).status }

/-- The error procedure of each code of R260: OK = 0, LAST_ERR is its number, its sticky bit is set and no other changes,
RESULT is the sentinel, nothing else changes (R260, R262). -/
def Obligations.ErrorProcedureEffect : Prop :=
  ∀ row ∈ errorTable, ∀ s : State, Failed row.2.1 row.2.2 s (fail row.1 s) ∧
    fail row.1 s = { s with status := (fail row.1 s).status, result := (fail row.1 s).result }

/-- Every command but SRESET ends in success, with no sticky bit changed, or with exactly one code of R260, setting that
code's sticky bit and changing no other (R260 to R263); so no such command clears a sticky bit (10_state.md R34). -/
def Obligations.ACommandReportsOneCode : Prop :=
  ∀ (i : Instr) (s t : State), i ≠ .sreset → exec i s = .next t →
    Succeeded s t ∨ ∃ row ∈ errorTable, Failed row.2.1 row.2.2 s t

/-- The sticky bits are a fault record: where STATUS[11:1] = 0 after a command other than SRESET, it was 0 before it and
the command succeeded (10_state.md R35). -/
def Obligations.NoErrorRecordedMeansSuccess : Prop :=
  ∀ (i : Instr) (s t : State), i ≠ .sreset → exec i s = .next t → NoErrorRecorded t →
    NoErrorRecorded s ∧ Succeeded s t

/-- After any command OK = 1 exactly when LAST_ERR = 0 (10_state.md R34), and LAST_ERR other than 0 implies
RESULT = 0xFFFFFFFF (R262). -/
def Obligations.FailedCommandLeavesTheSentinel : Prop :=
  ∀ (i : Instr) (s t : State), exec i s = .next t →
    (statusOk t.status = true ↔ lastErr t.status = 0#8) ∧
    (lastErr t.status ≠ 0#8 → t.result = 0xFFFFFFFF#32)

/-- A command other than BC.READ, BC.READX, BC.EXT, HT.DECODE and SRESET that succeeds leaves RESULT unchanged
(10_state.md R36; SRESET clears it, 40_control.md R131). -/
def Obligations.OtherCommandsKeepResult : Prop :=
  ∀ (i : Instr) (s t : State),
    i ≠ .sreset → (∀ n, i ≠ .bcRead n) → (∀ n, i ≠ .bcReadX n) → (∀ n, i ≠ .bcExt n) →
    (∀ c d, i ≠ .htDecode c d) → exec i s = .next t → lastErr t.status = 0#8 → t.result = s.result

/-! Control commands (40_control.md). -/

/-- NOP completes in every state and only reports success (R130). -/
def Obligations.NopOnlyReportsSuccess : Prop :=
  ∀ s : State, ∃ t, exec .nop s = .next t ∧ Succeeded s t ∧ t = { s with status := t.status } ∧ MemorySame s t

/-- SRESET completes in every state: STATUS = 1, RESULT = 0, every slot empty, the cursor at (0, 0) and invalid, the
filter as after reset; ARG, BC_END, SF_WIDTH, SF_HEIGHT, SF_BPP, memory and line buffers unchanged (R131). -/
def Obligations.SresetDiscardsTheSession : Prop :=
  ∀ s : State, ∃ t, exec .sreset s = .next t ∧ t.status = 0x00000001#32 ∧ t.result = 0#32 ∧
    (∀ slot, t.tree slot = none) ∧
    t.cursor = { byte := 0#32, bit := 0#3, valid := false, endBound := s.cursor.endBound } ∧
    t.filter = { row := 0#32, col := 0xFFFFFFFF#32, tag := 0#8, active := false, line := 0#32,
                 width := 0#32, height := 0#32, bpp := 0#32, filterType := .none } ∧
    t = { s with status := t.status, result := t.result, trees := t.trees, cursor := t.cursor,
                 filter := t.filter } ∧ MemorySame s t

/-- SRESET sets every register and hidden item that power-on reset sets, but for ARG, BC_END and SF_WIDTH, SF_HEIGHT,
SF_BPP; the memory spaces and the line buffers keep their contents (70_reset_and_hazards.md R293). -/
def Obligations.SresetMatchesPowerOnReset : Prop :=
  ∀ s : State, ∃ t, exec .sreset s = .next t ∧
    t = { State.resetWith s.params s.draw with
          arg := s.arg, cursor := { Cursor.reset with endBound := s.cursor.endBound },
          sfWidth := s.sfWidth, sfHeight := s.sfHeight, sfBpp := s.sfBpp, mem := s.mem,
          pending := s.pending, answers := s.answers }

/-! The bit cursor (41_bitcursor.md). -/

/-- BC.LOAD with ARG <= BC_END starts the cursor at byte ARG, bit 0, valid; with ARG > BC_END it fails with BAD_ARG and
the cursor is unchanged. RESULT is unchanged on success (R148). -/
def Obligations.BcLoadStartsTheCursor : Prop :=
  ∀ s : State,
    (s.arg.toNat ≤ s.cursor.endBound.toNat →
      ∃ t, exec .bcLoad s = .next t ∧ Succeeded s t ∧
        t.cursor = { byte := s.arg, bit := 0#3, valid := true, endBound := s.cursor.endBound } ∧
        t = { s with status := t.status, cursor := t.cursor } ∧ MemorySame s t) ∧
    (s.cursor.endBound.toNat < s.arg.toNat →
      ∃ t, exec .bcLoad s = .next t ∧ Failed 0x02#8 2 s t ∧
        t = { s with status := t.status, result := t.result } ∧ MemorySame s t)

/-- BC.READ n with n <= 16, a valid cursor and enough bits left completes: RESULT is the next n bits of the stream, the
first one read its most significant, the cursor is n bits further, and nothing else changes (R141, R142, R149; bit order
20_memory.md R70, R71). -/
def Obligations.BcReadReturnsTheNextBits : Prop :=
  ∀ (s : State) (n : Nat), StateInv s → n ≤ 16 → s.cursor.valid = true → n ≤ s.cursor.avail →
    ∃ t, exec (.bcRead n) s = .next t ∧ Succeeded s t ∧
      t.result.toNat < 2 ^ n ∧
      (∀ i, i < n → t.result.getLsbD (n - 1 - i) = streamBit s (s.cursor.position + i)) ∧
      t.cursor.position = s.cursor.position + n ∧
      t.cursor.valid = true ∧ t.cursor.endBound = s.cursor.endBound ∧
      t = { s with status := t.status, result := t.result, cursor := t.cursor } ∧ MemorySame s t

/-- BC.READX n with n <= 16, a valid cursor and enough bits left completes, and its effect equals BC.READ n followed by
BC.EXT n with ARG = RESULT, except that ARG is not written (R150). -/
def Obligations.BcReadXIsReadThenExtend : Prop :=
  ∀ (s : State) (n : Nat), StateInv s → n ≤ 16 → s.cursor.valid = true → n ≤ s.cursor.avail →
    ∃ t u, exec (.bcRead n) s = .next t ∧ exec (.bcExt n) { t with arg := t.result } = .next u ∧
      exec (.bcReadX n) s = .next { u with arg := s.arg } ∧
      u.cursor.position = s.cursor.position + n ∧ Succeeded s u ∧
      { u with arg := s.arg } = { s with status := u.status, result := u.result, cursor := u.cursor } ∧
      MemorySame s { u with arg := s.arg }

/-- BC.READ and BC.READX fail in the order of R149 and R150: BAD_ARG for n > 16; CURSOR_INVALID with the cursor
unchanged; UNDERRUN, which consumes no bit and clears BC_VALID (R144). -/
def Obligations.FixedReadFailures : Prop :=
  ∀ (s : State) (n : Nat) (i : Instr), i = .bcRead n ∨ i = .bcReadX n →
    (16 < n → ∃ t, exec i s = .next t ∧ Failed 0x02#8 2 s t ∧
      t = { s with status := t.status, result := t.result } ∧ MemorySame s t) ∧
    (n ≤ 16 → s.cursor.valid = false → ∃ t, exec i s = .next t ∧ Failed 0x03#8 3 s t ∧
      t = { s with status := t.status, result := t.result } ∧ MemorySame s t) ∧
    (n ≤ 16 → s.cursor.valid = true → s.cursor.avail < n → ∃ t, exec i s = .next t ∧ Failed 0x04#8 4 s t ∧
      t = { s with status := t.status, result := t.result, cursor := { s.cursor with valid := false } } ∧
      MemorySame s t)

/-- BC.ALIGN with a valid cursor moves it up to the next byte boundary, and not at all when it is at one; it never
underruns, and RESULT is unchanged. With an invalid cursor it fails with CURSOR_INVALID (R151). -/
def Obligations.BcAlignRoundsUp : Prop :=
  ∀ s : State, StateInv s →
    (s.cursor.valid = true →
      ∃ t, exec .bcAlign s = .next t ∧ Succeeded s t ∧
        t.cursor.position = 8 * ((s.cursor.position + 7) / 8) ∧
        t.cursor.valid = true ∧ t.cursor.endBound = s.cursor.endBound ∧
        t = { s with status := t.status, cursor := t.cursor } ∧ MemorySame s t) ∧
    (s.cursor.valid = false →
      ∃ t, exec .bcAlign s = .next t ∧ Failed 0x03#8 3 s t ∧
        t = { s with status := t.status, result := t.result } ∧ MemorySame s t)

/-- BC.EXT n with n <= 16 completes with RESULT the signed value of ARG[n-1:0] by receive/extend, in 32 bits; it needs no
valid cursor and touches nothing else. With n > 16 it fails with BAD_ARG (R146, R152). -/
def Obligations.BcExtExtendsTheArgument : Prop :=
  ∀ (s : State) (n : Nat),
    (n ≤ 16 →
      ∃ t, exec (.bcExt n) s = .next t ∧ Succeeded s t ∧
        (n = 0 → t.result = 0#32) ∧
        (1 ≤ n → s.arg.getLsbD (n - 1) = false →
          t.result.toInt = (s.arg.toNat % 2 ^ n : Int) - (2 ^ n - 1)) ∧
        (1 ≤ n → s.arg.getLsbD (n - 1) = true → t.result.toInt = (s.arg.toNat % 2 ^ n : Int)) ∧
        t = { s with status := t.status, result := t.result } ∧ MemorySame s t) ∧
    (16 < n →
      ∃ t, exec (.bcExt n) s = .next t ∧ Failed 0x02#8 2 s t ∧
        t = { s with status := t.status, result := t.result } ∧ MemorySame s t)

/-- For 1 <= n <= 16, Extend takes the values below 2^n one to one onto [-(2^n - 1), -2^(n-1)] united with
[2^(n-1), 2^n - 1]; a result fits in 17 signed bits and is stored as its sign extension (R147). -/
def Obligations.ExtendIsOneToOne : Prop :=
  ∀ n, 1 ≤ n → n ≤ 16 →
    (∀ v, v < 2 ^ n → ∀ v', v' < 2 ^ n → extend v n = extend v' n → v = v') ∧
    (∀ x : Int, (∃ v, v < 2 ^ n ∧ extend v n = x) ↔
      (-(2 ^ n - 1) ≤ x ∧ x ≤ -2 ^ (n - 1)) ∨ (2 ^ (n - 1) ≤ x ∧ x ≤ 2 ^ n - 1)) ∧
    (∀ v, v < 2 ^ n → -2 ^ 16 ≤ extend v n ∧ extend v n < 2 ^ 16 ∧ (signedWord (extend v n)).toInt = extend v n) ∧
    extend 0 1 = -1 ∧ extend 1 1 = 1 ∧ extend 0 16 = -65535 ∧ extend 0xFFFF 16 = 65535

/-- BC.READ and BC.READX depend on no STREAM byte but BC_BYTE and the two after it: writing any other leaves their
effect as it is (R145). -/
def Obligations.FixedReadTouchesThreeBytes : Prop :=
  ∀ (s t : State) (n : Nat) (i : Instr) (j : Nat) (v : Byte), StateInv s → i = .bcRead n ∨ i = .bcReadX n →
    (j < s.cursor.byte.toNat ∨ s.cursor.byte.toNat + 2 < j) → exec i s = .next t →
    exec i (s.putByte .stream j v) = .next (t.putByte .stream j v)

/-! Huffman tables (42_huffman.md). -/

/-- HT.BUILD succeeds exactly when 1 <= N, N <= 256 and the Kraft sum is at most 1; then its slot holds a table and
otherwise it is empty (R179). -/
def Obligations.HtBuildSucceedsExactly : Prop :=
  ∀ (s : State) (cls : TableClass) (dst : Fin 4), ∃ t, exec (.htBuild cls dst) s = .next t ∧
    (statusOk t.status = true ↔ 1 ≤ totalCount s ∧ totalCount s ≤ 256 ∧ kraftSum s ≤ 2 ^ 16) ∧
    ((t.tree (slotOf cls dst)).isSome = true ↔ Buildable s)

/-- HT.BUILD of a histogram it accepts completes: its slot holds a table, no other slot changes, RESULT is unchanged, and
no memory, cursor or filter state changes (R176). -/
def Obligations.HtBuildFillsOnlyItsSlot : Prop :=
  ∀ (s : State) (cls : TableClass) (dst : Fin 4), Buildable s →
    ∃ t r, exec (.htBuild cls dst) s = .next t ∧ Succeeded s t ∧ t.tree (slotOf cls dst) = some r ∧
      (∀ slot, slot ≠ slotOf cls dst → t.tree slot = s.tree slot) ∧
      t = { s with status := t.status, trees := t.trees } ∧ MemorySame s t

/-- HT.BUILD's errors, in order: BUILD_TOO_MANY for N > 256, BUILD_EMPTY for N = 0, BUILD_OVERSUB for a Kraft sum above 1.
Each leaves its slot empty and no other slot changed (R176). -/
def Obligations.HtBuildErrorsEmptyTheSlot : Prop :=
  ∀ (s : State) (cls : TableClass) (dst : Fin 4), ∃ t, exec (.htBuild cls dst) s = .next t ∧
    (256 < totalCount s → Failed 0x09#8 7 s t) ∧
    (totalCount s = 0 → Failed 0x07#8 7 s t) ∧
    (1 ≤ totalCount s → totalCount s ≤ 256 → 2 ^ 16 < kraftSum s → Failed 0x08#8 7 s t) ∧
    (¬ Buildable s → t.tree (slotOf cls dst) = none ∧
      (∀ slot, slot ≠ slotOf cls dst → t.tree slot = s.tree slot) ∧
      t = { s with status := t.status, result := t.result, trees := t.trees } ∧ MemorySame s t)

/-- The canonical codes of a histogram that HT.BUILD accepts, one per symbol, are prefix-free (R178, R180). -/
def Obligations.CanonicalCodesArePrefixFree : Prop :=
  ∀ s : State, Buildable s →
    (canonicalCodes (histogram s)).length = totalCount s ∧
    ∀ (i j : Nat) (a b : List Bool), (canonicalCodes (histogram s))[i]? = some a →
      (canonicalCodes (histogram s))[j]? = some b → a <+: b → i = j

/-- The round-trip property: build any histogram and symbol list that HT.BUILD accepts, put the canonical code of symbol
`i` at a valid cursor, and HT.DECODE returns HT_SYM[i] and consumes exactly that code, whatever bits follow and whatever
happened in between that kept the slot (R178, R188). -/
def Obligations.CanonicalCodeDecodesToItsSymbol : Prop :=
  ∀ (s built u : State) (cls : TableClass) (dst : Fin 4) (i : Nat) (code : List Bool),
    Buildable s → exec (.htBuild cls dst) s = .next built →
    StateInv u → u.tree (slotOf cls dst) = built.tree (slotOf cls dst) → u.cursor.valid = true →
    (canonicalCodes (histogram s))[i]? = some code → code.length ≤ u.cursor.avail →
    streamBits u u.cursor.position code.length = code →
    ∃ t, exec (.htDecode cls dst) u = .next t ∧ Succeeded u t ∧
      t.result = (s.byteAt .htSym i).setWidth 32 ∧
      t.cursor.position = u.cursor.position + code.length ∧
      t.cursor.valid = true ∧ t.cursor.endBound = u.cursor.endBound ∧
      t = { u with status := t.status, result := t.result, cursor := t.cursor } ∧ MemorySame u t

/-- When the Kraft sum is exactly 1 no Empty child exists: HT.DECODE with the built table never ends with INVALID_CODE
(R180). -/
def Obligations.CompleteCodeHasNoInvalidCode : Prop :=
  ∀ (s built u t : State) (cls : TableClass) (dst : Fin 4),
    1 ≤ totalCount s → totalCount s ≤ 256 → kraftSum s = 2 ^ 16 → exec (.htBuild cls dst) s = .next built →
    u.tree (slotOf cls dst) = built.tree (slotOf cls dst) → exec (.htDecode cls dst) u = .next t →
    lastErr t.status ≠ 0x06#8

/-- HT.DECODE with a table and a valid cursor, where the next bits of the stream lead from the root to a leaf, completes:
RESULT is the leaf's symbol, the cursor is as many bits further as the path is long (R182 to R184, R187). -/
def Obligations.HtDecodeReturnsTheLeaf : Prop :=
  ∀ (s : State) (cls : TableClass) (dst : Fin 4) (r : Root) (n : Nat) (sym : Byte),
    StateInv s → s.tree (slotOf cls dst) = some r → s.cursor.valid = true → n ≤ s.cursor.avail →
    r.node.follow (streamBits s s.cursor.position n) = some (.leaf sym) →
    ∃ t, exec (.htDecode cls dst) s = .next t ∧ Succeeded s t ∧ t.result = sym.setWidth 32 ∧
      t.cursor.position = s.cursor.position + n ∧
      t.cursor.valid = true ∧ t.cursor.endBound = s.cursor.endBound ∧
      t = { s with status := t.status, result := t.result, cursor := t.cursor } ∧ MemorySame s t

/-- A walk that reaches an Empty child fails with INVALID_CODE, one that runs out of bits at a node fails with UNDERRUN;
both clear BC_VALID and leave the bits read consumed: the Empty child's depth, and all that were left (R185 to R187). -/
def Obligations.FailedWalkKeepsConsumedBits : Prop :=
  ∀ (s : State) (cls : TableClass) (dst : Fin 4) (r : Root),
    StateInv s → s.tree (slotOf cls dst) = some r → s.cursor.valid = true →
    (∀ n, n ≤ s.cursor.avail → r.node.follow (streamBits s s.cursor.position n) = some .empty →
      ∃ t, exec (.htDecode cls dst) s = .next t ∧ Failed 0x06#8 6 s t ∧
        t.cursor.position = s.cursor.position + n ∧
        t.cursor.valid = false ∧ t.cursor.endBound = s.cursor.endBound ∧
        t = { s with status := t.status, result := t.result, cursor := t.cursor } ∧ MemorySame s t) ∧
    (∀ c0 c1, r.node.follow (streamBits s s.cursor.position s.cursor.avail) = some (.inner c0 c1) →
      ∃ t, exec (.htDecode cls dst) s = .next t ∧ Failed 0x04#8 4 s t ∧
        t.cursor.position = s.cursor.position + s.cursor.avail ∧
        t.cursor.valid = false ∧ t.cursor.endBound = s.cursor.endBound ∧
        t = { s with status := t.status, result := t.result, cursor := t.cursor } ∧ MemorySame s t)

/-- HT.DECODE checks the table before the cursor: an empty slot gives TABLE_INVALID whatever BC_VALID is, a table with an
invalid cursor gives CURSOR_INVALID; both leave the cursor untouched (R184). -/
def Obligations.HtDecodeChecksTableThenCursor : Prop :=
  ∀ (s : State) (cls : TableClass) (dst : Fin 4),
    (s.tree (slotOf cls dst) = none → ∃ t, exec (.htDecode cls dst) s = .next t ∧ Failed 0x05#8 5 s t ∧
      t = { s with status := t.status, result := t.result } ∧ MemorySame s t) ∧
    (∀ r, s.tree (slotOf cls dst) = some r → s.cursor.valid = false →
      ∃ t, exec (.htDecode cls dst) s = .next t ∧ Failed 0x03#8 3 s t ∧
        t = { s with status := t.status, result := t.result } ∧ MemorySame s t)

/-- No leaf is deeper than 16 in a state that meets the invariant, so HT.DECODE takes at most 16 bits, and never one
beyond the end bound (R181). -/
def Obligations.HtDecodeTakesAtMostSixteenBits : Prop :=
  ∀ (s t : State) (cls : TableClass) (dst : Fin 4), StateInv s → exec (.htDecode cls dst) s = .next t →
    s.cursor.position ≤ t.cursor.position ∧ t.cursor.position ≤ s.cursor.position + 16 ∧
      t.cursor.position ≤ s.cursor.position + s.cursor.avail

/-! The inverse DCT (44_idct.md). -/

/-- IDCT completes in every state: IDCT_OUT holds IDCT_IMPL of the 64 elements of IDCT_IN; IDCT_IN, every byte space,
RESULT, the cursor, the tables and the filter are unchanged (R240). -/
def Obligations.IdctWritesTheTransform : Prop :=
  ∀ s : State, ∃ t, exec .idct s = .next t ∧ Succeeded s t ∧
    (∀ j : Fin 64, t.wordAt .idctOut j.val =
      (Config.idctImpl (Vector.ofFn fun k => s.wordAt .idctIn k.val)).get j) ∧
    (∀ j, 64 ≤ j → t.wordAt .idctOut j = s.wordAt .idctOut j) ∧ WordsSame .idctIn s t ∧
    (∀ b, BankSame b s t) ∧ t = { s with status := t.status, mem := t.mem }

/-- IDCT_OUT depends only on the 64 IDCT_IN bit patterns (R243). -/
def Obligations.IdctDependsOnItsInputAlone : Prop :=
  ∀ s s' t t' : State, (∀ j, j < 64 → s.wordAt .idctIn j = s'.wordAt .idctIn j) →
    exec .idct s = .next t → exec .idct s' = .next t' → ∀ j, j < 64 → t.wordAt .idctOut j = t'.wordAt .idctOut j

/-- A DC-only block gives a flat output: for any IDCT arithmetic that meets IDCT_ACCURATE(eps), and so for IDCT_IMPL if it
does, an input whose in[0][0] is `d` and whose other coefficients are 0 gives every output within eps of d/8
(R240 to R242, R245). What number a binary32 pattern is (`floatValue`, `floatFinite`, `coefficient`) is the model's
reading, presumed from IEEE 754 (log 24). -/
def Obligations.DcOnlyBlockComesOutFlat : Prop :=
  (∀ s, exec .idct s = idctWith Config.idctImpl s) ∧
  ∀ (impl : Vector Word 64 → Vector Word 64) (eps : Rat) (s : State) (d : Rat), IdctAccurate impl eps →
    InIdctDomain (block s .idctIn) →
    (∀ u v : Fin 8, coefficient (block s .idctIn) u v = if u = 0 ∧ v = 0 then d else 0) →
    ∃ t, idctWith impl s = .next t ∧ ∀ j, j < 64 →
      floatFinite (t.wordAt .idctOut j) = true ∧ |floatValue (t.wordAt .idctOut j) - d / 8| ≤ eps

/-- The separable two-pass form computes the same real function as the double sum: the 1-D transform of each row of
coefficients, then of the results (R247). In exact arithmetic the transform of the forward DCT of `f` is `f`; and for any
IDCT arithmetic that meets IDCT_ACCURATE(eps), and so for IDCT_IMPL if it does, a block whose coefficients are in its domain
and each within `delta` of the forward DCT comes out within eps + 16 delta of `f`, which is the 1e-3 of the source wherever
that sum is below it (R246). The forward DCT is general knowledge, as the spec marks it (log 22); what number a binary32
pattern is, is the model's reading (log 24). -/
def Obligations.TransformIsSeparableAndInvertsTheForwardDct : Prop :=
  (∀ (f : Fin 8 → Fin 8 → ℝ) (x y : Fin 8) (rows : Fin 8 → ℝ) (e : ℝ),
    (∀ u, IsTransform1d (f u) y (rows u)) → (IsTransform1d rows x e ↔ IsIdctExact f x y e)) ∧
  (∀ f F : Fin 8 → Fin 8 → ℝ, (∀ u v, IsForwardDct f u v (F u v)) → ∀ x y, IsIdctExact F x y (f x y)) ∧
  (∀ s, exec .idct s = idctWith Config.idctImpl s) ∧
  ∀ (impl : Vector Word 64 → Vector Word 64) (eps : Rat) (s : State) (f F : Fin 8 → Fin 8 → ℝ) (delta : ℝ),
    IdctAccurate impl eps → InIdctDomain (block s .idctIn) → (∀ u v, IsForwardDct f u v (F u v)) →
    (∀ u v, |(coefficient (block s .idctIn) u v : ℝ) - F u v| ≤ delta) →
    ∃ t, idctWith impl s = .next t ∧ ∀ x y : Fin 8,
      floatFinite (t.wordAt .idctOut (blockIndex x y).val) = true ∧
        |(floatValue (t.wordAt .idctOut (blockIndex x y).val) : ℝ) - f x y| ≤ eps + 16 * delta

/-! The scanline filter (43_scanline.md). -/

/-- SF.INIT with an accepted configuration completes: it latches width, height and bytes per pixel, sets SF_LINE to
bytes per pixel times width (cut to the register's 32 bits, which only a line of 2^32 or more bytes can need, log 7),
SF_ROW, SF_COL, SF_FILTER and SF_ACTIVE, and clears neither OUT nor the line buffers (R211, R212). -/
def Obligations.SfInitLatchesTheConfiguration : Prop :=
  ∀ s : State, (s.sfBpp.toNat = 3 ∨ s.sfBpp.toNat = 4) → 1 ≤ s.sfWidth.toNat →
    1 ≤ s.sfHeight.toNat → s.sfBpp.toNat * s.sfWidth.toNat ≤ s.params.maxLine →
    4 * s.sfWidth.toNat * s.sfHeight.toNat ≤ s.params.outSize →
    ∃ t, exec .sfInit s = .next t ∧ Succeeded s t ∧
      t.filter.width = s.sfWidth ∧ t.filter.height = s.sfHeight ∧ t.filter.bpp = s.sfBpp ∧
      t.filter.line.toNat = s.sfBpp.toNat * s.sfWidth.toNat % 2 ^ 32 ∧
      t.filter.row = 0#32 ∧ t.filter.col = 0xFFFFFFFF#32 ∧ t.filter.tag = 0#8 ∧
      t.filter.filterType = .none ∧ t.filter.active = true ∧
      t = { s with status := t.status, filter := t.filter } ∧ MemorySame s t

/-- SF.INIT with any other configuration fails with SF_BAD_CONFIG; of the filter only SF_ACTIVE changes, to 0
(R211, R212). -/
def Obligations.SfInitRejectsBadConfigurations : Prop :=
  ∀ s : State,
    ¬ ((s.sfBpp.toNat = 3 ∨ s.sfBpp.toNat = 4) ∧ 1 ≤ s.sfWidth.toNat ∧ 1 ≤ s.sfHeight.toNat ∧
      s.sfBpp.toNat * s.sfWidth.toNat ≤ s.params.maxLine ∧
      4 * s.sfWidth.toNat * s.sfHeight.toNat ≤ s.params.outSize) →
    ∃ t, exec .sfInit s = .next t ∧ Failed 0x0D#8 11 s t ∧ t.filter.active = false ∧
      t = { s with status := t.status, result := t.result, filter := { s.filter with active := false } } ∧
      MemorySame s t

/-- A tag byte: SF_FILTER holds it and SF_COL becomes 0. Tags 0 to 4 select None, Sub, Up, Average, Paeth and succeed; a
greater one is recorded as SF_BAD_FILTER and its row is reconstructed as None. Nothing is written to memory
(R214, R215). -/
def Obligations.TagByteSelectsTheFilter : Prop :=
  ∀ (s : State) (b : Byte), s.filter.active = true → s.filter.row ≠ s.filter.height →
    s.filter.col = 0xFFFFFFFF#32 →
    (b.toNat ≤ 4 → ∃ t, exec (.sfPush b) s = .next t ∧ Succeeded s t ∧
      (b.toNat = 0 → t.filter.filterType = .none) ∧ (b.toNat = 1 → t.filter.filterType = .sub) ∧
      (b.toNat = 2 → t.filter.filterType = .up) ∧ (b.toNat = 3 → t.filter.filterType = .average) ∧
      (b.toNat = 4 → t.filter.filterType = .paeth) ∧
      t = { s with status := t.status,
                   filter := { s.filter with tag := b, col := 0#32, filterType := t.filter.filterType } } ∧
      MemorySame s t) ∧
    (4 < b.toNat → ∃ t, exec (.sfPush b) s = .next t ∧ Failed 0x0C#8 10 s t ∧
      t = { s with status := t.status, result := t.result,
                   filter := { s.filter with tag := b, col := 0#32, filterType := .none } } ∧
      MemorySame s t)

/-- A data byte at (row r, column c) completes: it is reconstructed from its neighbours, written to CUR[c] and to its place
in OUT, with alpha 255 after the third channel of a truecolour pixel; no other byte of CUR or OUT changes. Where c + 1 is
SF_LINE the row advances, the column becomes -1 and PREV holds the line; elsewhere the column advances and PREV is
unchanged. No other space and no other register changes (R213, R216, R217, R223 to R225). In a line of more than 2^31 bytes a
column is its pattern read unsigned, and SF_LINE is the line's size cut to 32 bits: the model's reading (logs 20 and 7). -/
def Obligations.DataByteIsReconstructedAndStored : Prop :=
  ∀ (s : State) (raw : Byte), StateInv s → s.filter.active = true → s.filter.row ≠ s.filter.height →
    s.filter.col ≠ 0xFFFFFFFF#32 →
    let f := s.filter
    let r := f.row.toNat
    let c := f.col.toNat
    let x := recon f.filterType raw (rowNeighbours f.bpp.toNat (r == 0) (s.byteAt .cur) (s.byteAt .prev) c)
    let place := r * (4 * f.width.toNat) + 4 * (c / f.bpp.toNat) + c % f.bpp.toNat
    let alpha := r * (4 * f.width.toNat) + 4 * (c / f.bpp.toNat) + 3
    let third := f.bpp.toNat = 3 ∧ c % 3 = 2
    ∃ t, exec (.sfPush raw) s = .next t ∧ Succeeded s t ∧
      t.byteAt .cur c = x ∧ (∀ i, i ≠ c → t.byteAt .cur i = s.byteAt .cur i) ∧
      t.byteAt .out place = x ∧ (third → t.byteAt .out alpha = 255#8) ∧
      (∀ i, i ≠ place → ¬ (third ∧ i = alpha) → t.byteAt .out i = s.byteAt .out i) ∧
      (c + 1 ≠ f.line.toNat → t.filter = { f with col := BitVec.ofNat 32 (c + 1) } ∧ BankSame .prev s t) ∧
      (c + 1 = f.line.toNat → t.filter.row.toNat = r + 1 ∧
        t.filter = { f with col := 0xFFFFFFFF#32, row := t.filter.row } ∧
        (∀ i, i < f.line.toNat → t.byteAt .prev i = t.byteAt .cur i) ∧
        (∀ i, f.line.toNat ≤ i → t.byteAt .prev i = s.byteAt .prev i)) ∧
      BankSame .stream s t ∧ BankSame .htLen s t ∧ BankSame .htSym s t ∧ (∀ b, WordsSame b s t) ∧
      t = { s with status := t.status, mem := t.mem, filter := t.filter }

/-- The five reconstructions, modulo 256: None, Sub, Up, Average with a sum that does not wrap, and Paeth, which adds the
one of A, B, C that minimises |A + B - C - candidate|, ties in the order A, B, C (R218 to R222). -/
def Obligations.ReconstructionFormulas : Prop :=
  ∀ (raw : Byte) (n : Neighbours),
    let d := fun v : Byte => |(n.a.toNat : Int) + n.b.toNat - n.c.toNat - v.toNat|
    recon .none raw n = raw ∧
    (recon .sub raw n).toNat = (raw.toNat + n.a.toNat) % 256 ∧
    (recon .up raw n).toNat = (raw.toNat + n.b.toNat) % 256 ∧
    (recon .average raw n).toNat = (raw.toNat + (n.a.toNat + n.b.toNat) / 2) % 256 ∧
    (d n.a ≤ d n.b → d n.a ≤ d n.c → (recon .paeth raw n).toNat = (raw.toNat + n.a.toNat) % 256) ∧
    (¬ (d n.a ≤ d n.b ∧ d n.a ≤ d n.c) → d n.b ≤ d n.c →
      (recon .paeth raw n).toNat = (raw.toNat + n.b.toNat) % 256) ∧
    (¬ (d n.a ≤ d n.b ∧ d n.a ≤ d n.c) → ¬ d n.b ≤ d n.c →
      (recon .paeth raw n).toNat = (raw.toNat + n.c.toNat) % 256)

/-- SF.PUSH to an inactive filter fails with SF_NOT_READY; SF.PUSH after the last scanline fails with SF_OVERRUN and the
byte is dropped: nothing but the error procedure changes (R226, R227). -/
def Obligations.PushOutsideAnImageFails : Prop :=
  ∀ (s : State) (b : Byte),
    (s.filter.active = false → ∃ t, exec (.sfPush b) s = .next t ∧ Failed 0x0A#8 8 s t ∧
      t = { s with status := t.status, result := t.result } ∧ MemorySame s t) ∧
    (s.filter.active = true → s.filter.row = s.filter.height →
      ∃ t, exec (.sfPush b) s = .next t ∧ Failed 0x0B#8 9 s t ∧
        t = { s with status := t.status, result := t.result } ∧ MemorySame s t)

/-- The filter round trip: filter a scanline X against the previous scanline by the forward rule of a type, push the tag
and the filtered bytes, and the block reconstructs X exactly, in PREV and in OUT, and stands at the next row (R229). It is
said of every line whose size SF_LINE holds, so of every line below 2^32 bytes (R50, log 7); in one of more than 2^31 bytes
a column is its pattern read unsigned, the model's reading (log 20). -/
def Obligations.FilteredLineIsReconstructed : Prop :=
  ∀ (s : State) (tag : Byte) (type : FilterType) (x : Nat → Byte), StateInv s → s.filter.active = true →
    s.filter.row ≠ s.filter.height → s.filter.col = 0xFFFFFFFF#32 → filterTypeOf tag = some type →
    s.filter.line.toNat = s.filter.bpp.toNat * s.filter.width.toNat →
    let f := s.filter
    let r := f.row.toNat
    let filtered := (List.range f.line.toNat).map fun c =>
      x c - predictor type (rowNeighbours f.bpp.toNat (r == 0) x (s.byteAt .prev) c)
    ∃ t, pushBytes (tag :: filtered) s = .next t ∧ t.filter.row.toNat = r + 1 ∧ t.filter.col = 0xFFFFFFFF#32 ∧
      (∀ c, c < f.line.toNat → t.byteAt .prev c = x c ∧
        t.byteAt .out (r * (4 * f.width.toNat) + 4 * (c / f.bpp.toNat) + c % f.bpp.toNat) = x c) ∧
      (f.bpp.toNat = 3 → ∀ p, p < f.width.toNat → t.byteAt .out (r * (4 * f.width.toNat) + 4 * p + 3) = 255#8)

/-- SF.PUSH writes OUT only below 4 x W_L x H_L, which is at most OUT_SIZE (R228, 20_memory.md R88). -/
def Obligations.FilterStaysInsideTheImage : Prop :=
  ∀ (s t : State) (b : Byte), StateInv s → exec (.sfPush b) s = .next t →
    (s.filter.active = true → 4 * s.filter.width.toNat * s.filter.height.toNat ≤ s.params.outSize) ∧
    ∀ i, 4 * s.filter.width.toNat * s.filter.height.toNat ≤ i → t.byteAt .out i = s.byteAt .out i

/-- SF.PUSH never reads a byte that was not written: it does the same under every power-on draw of the unwritten elements
(R217). The draw is the model's (log 4). -/
def Obligations.FilterNeverReadsUnwrittenBytes : Prop :=
  ∀ (s t : State) (b : Byte) (d : Nat), StateInv s → exec (.sfPush b) s = .next t →
    exec (.sfPush b) { s with draw := d } = .next { t with draw := d }

/-! Rules about all commands. -/

/-- No command writes STREAM, HT_LEN, HT_SYM or IDCT_IN; only IDCT writes IDCT_OUT; only SF.PUSH writes OUT and the line
buffers (20_memory.md R75, 10_state.md R57). -/
def Obligations.CommandsWriteOnlyTheirOwnMemory : Prop :=
  ∀ (i : Instr) (s t : State), exec i s = .next t →
    BankSame .stream s t ∧ BankSame .htLen s t ∧ BankSame .htSym s t ∧ WordsSame .idctIn s t ∧
    (i ≠ .idct → WordsSame .idctOut s t) ∧
    ((∀ b, i ≠ .sfPush b) → BankSame .out s t ∧ BankSame .cur s t ∧ BankSame .prev s t)

/-- No command writes ARG, BC_END, SF_WIDTH, SF_HEIGHT or SF_BPP (10_state.md R37, R41, R43 to R45), nor the model's own
fields (logs 1, 2, 5, 6). -/
def Obligations.CommandsNeverWriteHostRegisters : Prop :=
  ∀ (i : Instr) (s t : State), exec i s = .next t →
    t.arg = s.arg ∧ t.cursor.endBound = s.cursor.endBound ∧ t.sfWidth = s.sfWidth ∧ t.sfHeight = s.sfHeight ∧
    t.sfBpp = s.sfBpp ∧ t.params = s.params ∧ t.draw = s.draw ∧ t.pending = s.pending ∧ t.answers = s.answers

/-- Besides SRESET, only the BC commands that move it and HT.DECODE change the cursor (41_bitcursor.md R140), only
HT.BUILD of a slot changes that slot (42_huffman.md R170), and only SF.INIT and SF.PUSH change the filter
(43_scanline.md R210). -/
def Obligations.EachUnitHasItsOwnCommands : Prop :=
  ∀ (i : Instr) (s t : State), i ≠ .sreset → exec i s = .next t →
    (i ≠ .bcLoad → (∀ n, i ≠ .bcRead n) → (∀ n, i ≠ .bcReadX n) → i ≠ .bcAlign → (∀ c d, i ≠ .htDecode c d) →
      t.cursor = s.cursor) ∧
    (∀ slot, (∀ c d, i = .htBuild c d → slotOf c d ≠ slot) → t.tree slot = s.tree slot) ∧
    (i ≠ .sfInit → (∀ b, i ≠ .sfPush b) → t.filter = s.filter)

/-! Reset and the invariant. -/

/-- After power-on reset every register reads its value of 10_state.md R32: STATUS = 1, SF_COL = 0xFFFFFFFF, every other
0; every slot is empty, W_L, H_L and BPP_L are 0 and FT_EFF is None (70_reset_and_hazards.md R290). -/
def Obligations.ResetValues : Prop :=
  (∀ r : Byte, hostReadReg r State.reset =
    if r = 1#8 then 0x00000001#32 else if r = 13#8 then 0xFFFFFFFF#32 else 0#32) ∧
  (∀ slot, State.reset.tree slot = none) ∧
  State.reset.filter.width = 0#32 ∧ State.reset.filter.height = 0#32 ∧ State.reset.filter.bpp = 0#32 ∧
  State.reset.filter.filterType = .none ∧ State.reset.cursor.valid = false ∧ State.reset.filter.active = false

/-- After power-on reset no element of any space or line buffer holds a specified value: each reads as the open power-on
draw (70_reset_and_hazards.md R291; the draw is the model's, log 4). A power-on reset of the running machine brings the
reset state back with the next draw (log 3). -/
def Obligations.PowerOnLeavesMemoryUnspecified : Prop :=
  (∀ (p : Params) (d : Nat),
    (∀ b i, (State.resetWith p d).byteAt b i = Config.powerOnByte d b i) ∧
    (∀ b i, (State.resetWith p d).wordAt b i = Config.powerOnWord d b i)) ∧
  (∀ (s : State) (rest : List HostAccess), s.pending = .powerOn :: rest →
    step s = .next { State.resetWith s.params (s.draw + 1) with pending := rest, answers := s.answers })

/-- The invariant holds after reset, for all capacities of 00_scope.md R7 and for this block's, which are open values in
R7's ranges (log 6). The invariant is that of 10_state.md R62 with the model's own clauses (Safety.lean; canonical memory,
the written line bytes, and SF_LINE as 32 bits, logs 4 and 7). R7, R62, R290. -/
def Obligations.InvariantHoldsAtReset : Prop :=
  (∀ (p : Params) (d : Nat), ParamsOk p → StateInv (State.resetWith p d)) ∧ StateInv State.reset

/-- Every step keeps the invariant: canonical memory inside its bounds, the cursor in the stream, the filter in its image,
the line bytes the filter reads written, STATUS consistent, no table deeper than 16 (10_state.md R62; SF_LINE is LINE cut
to 32 bits, log 7). -/
def Obligations.EveryStepKeepsTheInvariant : Prop :=
  ∀ s t : State, StateInv s → step s = .next t → StateInv t

/-- From a state that meets the invariant a step answers a next state: no access leaves its space and nothing traps
(20_memory.md R88, 41_bitcursor.md R154, 60_exceptions.md R264). -/
def Obligations.EveryStepAnswersANextState : Prop :=
  ∀ s : State, StateInv s → ∃ t, step s = .next t

/-! The host's accesses (20_memory.md). -/

/-- HostWriteReg to each writable register: ARG, SF_WIDTH, SF_HEIGHT and SF_BPP take the value, BC_END takes
min(v, STREAM_SIZE) (10_state.md R41), STATUS loses exactly the sticky bits the value selects (10_state.md R34); nothing
else changes (R76). -/
def Obligations.HostRegisterWrites : Prop :=
  ∀ (s : State) (v : Word), ParamsOk s.params →
    hostWriteReg 3#8 v s = .next { s with arg := v } ∧
    hostWriteReg 9#8 v s = .next { s with sfWidth := v } ∧
    hostWriteReg 10#8 v s = .next { s with sfHeight := v } ∧
    hostWriteReg 11#8 v s = .next { s with sfBpp := v } ∧
    (∃ t, hostWriteReg 7#8 v s = .next t ∧ t.cursor.endBound.toNat = min v.toNat s.params.streamSize ∧
      t = { s with cursor := { s.cursor with endBound := t.cursor.endBound } }) ∧
    (∃ t, hostWriteReg 1#8 v s = .next t ∧ t = { s with status := t.status } ∧
      ∀ i, t.status.getLsbD i =
        if 1 ≤ i ∧ i ≤ 11 ∧ v.getLsbD i = true then false else s.status.getLsbD i)

/-- A host write to a read-only register or to a register numbered 17 to 255 is ignored, and a register numbered 17 to 255
and CMD read 0 (10_state.md R33, R51, R52). -/
def Obligations.ReadOnlyRegistersIgnoreWrites : Prop :=
  ∀ (s : State) (r : Byte) (v : Word),
    (r ∈ [2#8, 4#8, 5#8, 6#8, 8#8, 12#8, 13#8, 14#8, 15#8, 16#8] ∨ 17 ≤ r.toNat → hostWriteReg r v s = .next s) ∧
    (r = 0#8 ∨ 17 ≤ r.toNat → hostReadReg r s = 0#32)

/-- What a host read of each register returns: STATUS, RESULT, ARG and the cursor, filter and configuration registers
their current value, BC_BIT, BC_VALID, SF_FILTER and SF_ACTIVE with every other bit 0 (R32, R39, R40, R48, R49, R77; CMD and
17 to 255 are in ReadOnlyRegistersIgnoreWrites, HT_VALID in HtValidShowsTheBuiltSlots). A host read of a register or a memory
element changes nothing in the block; its value goes to the host's answers, the model's own field (log 2). R77, R79, R87. -/
def Obligations.HostReadsHaveNoSideEffect : Prop :=
  (∀ s : State,
    hostReadReg 1#8 s = s.status ∧ hostReadReg 2#8 s = s.result ∧ hostReadReg 3#8 s = s.arg ∧
    hostReadReg 4#8 s = s.cursor.byte ∧ (hostReadReg 5#8 s).toNat = s.cursor.bit.toNat ∧
    hostReadReg 6#8 s = (if s.cursor.valid then 1#32 else 0#32) ∧ hostReadReg 7#8 s = s.cursor.endBound ∧
    hostReadReg 9#8 s = s.sfWidth ∧ hostReadReg 10#8 s = s.sfHeight ∧ hostReadReg 11#8 s = s.sfBpp ∧
    hostReadReg 12#8 s = s.filter.row ∧ hostReadReg 13#8 s = s.filter.col ∧
    (hostReadReg 14#8 s).toNat = s.filter.tag.toNat ∧
    hostReadReg 15#8 s = (if s.filter.active then 1#32 else 0#32) ∧ hostReadReg 16#8 s = s.filter.line) ∧
  ∀ (s : State) (rest : List HostAccess),
    (∀ r, s.pending = .readReg r :: rest →
      step s = .next { s with pending := rest, answers := s.answers ++ [hostReadReg r s] }) ∧
    (∀ id i, s.pending = .readMem id i :: rest →
      step s = .next { s with pending := rest, answers := s.answers ++ [hostReadMem id i s] })

/-- HT_VALID: bit s is 1 when slot s holds a table, and bits 31:8 read 0 (10_state.md R42). -/
def Obligations.HtValidShowsTheBuiltSlots : Prop :=
  ∀ (s : State), (∀ slot : Fin 8, (hostReadReg 8#8 s).getLsbD slot.val = (s.tree slot).isSome) ∧
    ∀ i, 8 ≤ i → (hostReadReg 8#8 s).getLsbD i = false

/-- A host read inside each of the six spaces returns the element, extended with zeros in the u8 spaces (R79). A host write
inside a space other than IDCT_OUT is what the next read of that element returns, cut to v[7:0] in the u8 spaces; it changes
no other element of any space and no other state (R78, R79, R84). -/
def Obligations.HostReadAfterWrite : Prop :=
  ∀ (s : State) (id i : Nat) (v : Word),
    (∀ b, (id, b) ∈ [(0, ByteBank.stream), (1, .htLen), (2, .htSym), (5, .out)] → i < byteBankSize s.params b →
      hostReadMem id i s = (s.byteAt b i).setWidth 32) ∧
    (∀ b, (id, b) ∈ [(3, WordBank.idctIn), (4, .idctOut)] → i < 64 → hostReadMem id i s = s.wordAt b i) ∧
    (∀ b, (id, b) ∈ [(0, ByteBank.stream), (1, .htLen), (2, .htSym), (5, .out)] → i < byteBankSize s.params b →
      hostReadMem id i (hostWriteMem id i v s) = (v.extractLsb' 0 8).setWidth 32 ∧
      (∀ b' k, ¬ (b' = b ∧ k = i) → (hostWriteMem id i v s).byteAt b' k = s.byteAt b' k) ∧
      (∀ b', WordsSame b' s (hostWriteMem id i v s))) ∧
    (id = 3 → i < 64 →
      hostReadMem id i (hostWriteMem id i v s) = v ∧
      (∀ b' k, ¬ (b' = .idctIn ∧ k = i) → (hostWriteMem id i v s).wordAt b' k = s.wordAt b' k) ∧
      (∀ b', BankSame b' s (hostWriteMem id i v s))) ∧
    hostWriteMem id i v s = { s with mem := (hostWriteMem id i v s).mem }

/-- A host write to IDCT_OUT, outside a space or to an undefined space id is ignored; a host read outside a space or of an
undefined id returns 0 (R78, R79). -/
def Obligations.HostAccessOutsideASpace : Prop :=
  ∀ (s : State) (id i : Nat) (v : Word),
    (id = 4 → hostWriteMem id i v s = s) ∧
    ((∀ b, (id, b) ∈ [(0, ByteBank.stream), (1, .htLen), (2, .htSym), (5, .out)] → byteBankSize s.params b ≤ i) →
      ((id = 3 ∨ id = 4) → 64 ≤ i) → hostWriteMem id i v s = s ∧ hostReadMem id i s = 0#32)
end

