-- ==== Sys2Proof/Laws/State.lean ====
section
/-! SUPPORT. One lemma per field per state update, each true by unfolding, so that no proof unfolds a record update. -/

namespace Sys2Proof.Machine

/-! `succeed`. -/

@[simp] theorem succeed_status (s : State) : (succeed s).status = statusSucceed s.status := rfl
@[simp] theorem succeed_result (s : State) : (succeed s).result = s.result := rfl
@[simp] theorem succeed_arg (s : State) : (succeed s).arg = s.arg := rfl
@[simp] theorem succeed_cursor (s : State) : (succeed s).cursor = s.cursor := rfl
@[simp] theorem succeed_sfWidth (s : State) : (succeed s).sfWidth = s.sfWidth := rfl
@[simp] theorem succeed_sfHeight (s : State) : (succeed s).sfHeight = s.sfHeight := rfl
@[simp] theorem succeed_sfBpp (s : State) : (succeed s).sfBpp = s.sfBpp := rfl
@[simp] theorem succeed_filter (s : State) : (succeed s).filter = s.filter := rfl
@[simp] theorem succeed_trees (s : State) : (succeed s).trees = s.trees := rfl
@[simp] theorem succeed_mem (s : State) : (succeed s).mem = s.mem := rfl
@[simp] theorem succeed_params (s : State) : (succeed s).params = s.params := rfl
@[simp] theorem succeed_draw (s : State) : (succeed s).draw = s.draw := rfl
@[simp] theorem succeed_pending (s : State) : (succeed s).pending = s.pending := rfl
@[simp] theorem succeed_answers (s : State) : (succeed s).answers = s.answers := rfl

/-! `fail`. -/

@[simp] theorem fail_status (code : ErrCode) (s : State) : (fail code s).status = statusFail code s.status := rfl
@[simp] theorem fail_result (code : ErrCode) (s : State) : (fail code s).result = sentinel := rfl
@[simp] theorem fail_arg (code : ErrCode) (s : State) : (fail code s).arg = s.arg := rfl
@[simp] theorem fail_cursor (code : ErrCode) (s : State) : (fail code s).cursor = s.cursor := rfl
@[simp] theorem fail_sfWidth (code : ErrCode) (s : State) : (fail code s).sfWidth = s.sfWidth := rfl
@[simp] theorem fail_sfHeight (code : ErrCode) (s : State) : (fail code s).sfHeight = s.sfHeight := rfl
@[simp] theorem fail_sfBpp (code : ErrCode) (s : State) : (fail code s).sfBpp = s.sfBpp := rfl
@[simp] theorem fail_filter (code : ErrCode) (s : State) : (fail code s).filter = s.filter := rfl
@[simp] theorem fail_trees (code : ErrCode) (s : State) : (fail code s).trees = s.trees := rfl
@[simp] theorem fail_mem (code : ErrCode) (s : State) : (fail code s).mem = s.mem := rfl
@[simp] theorem fail_params (code : ErrCode) (s : State) : (fail code s).params = s.params := rfl
@[simp] theorem fail_draw (code : ErrCode) (s : State) : (fail code s).draw = s.draw := rfl
@[simp] theorem fail_pending (code : ErrCode) (s : State) : (fail code s).pending = s.pending := rfl
@[simp] theorem fail_answers (code : ErrCode) (s : State) : (fail code s).answers = s.answers := rfl

/-! `succeedWith`. -/

@[simp] theorem succeedWith_status (v : Word) (s : State) : (succeedWith v s).status = statusSucceed s.status := rfl
@[simp] theorem succeedWith_result (v : Word) (s : State) : (succeedWith v s).result = v := rfl
@[simp] theorem succeedWith_arg (v : Word) (s : State) : (succeedWith v s).arg = s.arg := rfl
@[simp] theorem succeedWith_cursor (v : Word) (s : State) : (succeedWith v s).cursor = s.cursor := rfl
@[simp] theorem succeedWith_sfWidth (v : Word) (s : State) : (succeedWith v s).sfWidth = s.sfWidth := rfl
@[simp] theorem succeedWith_sfHeight (v : Word) (s : State) : (succeedWith v s).sfHeight = s.sfHeight := rfl
@[simp] theorem succeedWith_sfBpp (v : Word) (s : State) : (succeedWith v s).sfBpp = s.sfBpp := rfl
@[simp] theorem succeedWith_filter (v : Word) (s : State) : (succeedWith v s).filter = s.filter := rfl
@[simp] theorem succeedWith_trees (v : Word) (s : State) : (succeedWith v s).trees = s.trees := rfl
@[simp] theorem succeedWith_mem (v : Word) (s : State) : (succeedWith v s).mem = s.mem := rfl
@[simp] theorem succeedWith_params (v : Word) (s : State) : (succeedWith v s).params = s.params := rfl
@[simp] theorem succeedWith_draw (v : Word) (s : State) : (succeedWith v s).draw = s.draw := rfl
@[simp] theorem succeedWith_pending (v : Word) (s : State) : (succeedWith v s).pending = s.pending := rfl
@[simp] theorem succeedWith_answers (v : Word) (s : State) : (succeedWith v s).answers = s.answers := rfl

/-! `failCursor`. -/

@[simp] theorem failCursor_status (code : ErrCode) (s : State) : (failCursor code s).status = statusFail code s.status := rfl
@[simp] theorem failCursor_result (code : ErrCode) (s : State) : (failCursor code s).result = sentinel := rfl
@[simp] theorem failCursor_arg (code : ErrCode) (s : State) : (failCursor code s).arg = s.arg := rfl
@[simp] theorem failCursor_cursor (code : ErrCode) (s : State) : (failCursor code s).cursor = { s.cursor with valid := false } := rfl
@[simp] theorem failCursor_sfWidth (code : ErrCode) (s : State) : (failCursor code s).sfWidth = s.sfWidth := rfl
@[simp] theorem failCursor_sfHeight (code : ErrCode) (s : State) : (failCursor code s).sfHeight = s.sfHeight := rfl
@[simp] theorem failCursor_sfBpp (code : ErrCode) (s : State) : (failCursor code s).sfBpp = s.sfBpp := rfl
@[simp] theorem failCursor_filter (code : ErrCode) (s : State) : (failCursor code s).filter = s.filter := rfl
@[simp] theorem failCursor_trees (code : ErrCode) (s : State) : (failCursor code s).trees = s.trees := rfl
@[simp] theorem failCursor_mem (code : ErrCode) (s : State) : (failCursor code s).mem = s.mem := rfl
@[simp] theorem failCursor_params (code : ErrCode) (s : State) : (failCursor code s).params = s.params := rfl
@[simp] theorem failCursor_draw (code : ErrCode) (s : State) : (failCursor code s).draw = s.draw := rfl
@[simp] theorem failCursor_pending (code : ErrCode) (s : State) : (failCursor code s).pending = s.pending := rfl
@[simp] theorem failCursor_answers (code : ErrCode) (s : State) : (failCursor code s).answers = s.answers := rfl

/-! `withCursor`. -/

@[simp] theorem withCursor_status (s : State) (c : Cursor) : (s.withCursor c).status = s.status := rfl
@[simp] theorem withCursor_result (s : State) (c : Cursor) : (s.withCursor c).result = s.result := rfl
@[simp] theorem withCursor_arg (s : State) (c : Cursor) : (s.withCursor c).arg = s.arg := rfl
@[simp] theorem withCursor_cursor (s : State) (c : Cursor) : (s.withCursor c).cursor = c := rfl
@[simp] theorem withCursor_sfWidth (s : State) (c : Cursor) : (s.withCursor c).sfWidth = s.sfWidth := rfl
@[simp] theorem withCursor_sfHeight (s : State) (c : Cursor) : (s.withCursor c).sfHeight = s.sfHeight := rfl
@[simp] theorem withCursor_sfBpp (s : State) (c : Cursor) : (s.withCursor c).sfBpp = s.sfBpp := rfl
@[simp] theorem withCursor_filter (s : State) (c : Cursor) : (s.withCursor c).filter = s.filter := rfl
@[simp] theorem withCursor_trees (s : State) (c : Cursor) : (s.withCursor c).trees = s.trees := rfl
@[simp] theorem withCursor_mem (s : State) (c : Cursor) : (s.withCursor c).mem = s.mem := rfl
@[simp] theorem withCursor_params (s : State) (c : Cursor) : (s.withCursor c).params = s.params := rfl
@[simp] theorem withCursor_draw (s : State) (c : Cursor) : (s.withCursor c).draw = s.draw := rfl
@[simp] theorem withCursor_pending (s : State) (c : Cursor) : (s.withCursor c).pending = s.pending := rfl
@[simp] theorem withCursor_answers (s : State) (c : Cursor) : (s.withCursor c).answers = s.answers := rfl

/-! `withFilter`. -/

@[simp] theorem withFilter_status (s : State) (f : FilterUnit) : (s.withFilter f).status = s.status := rfl
@[simp] theorem withFilter_result (s : State) (f : FilterUnit) : (s.withFilter f).result = s.result := rfl
@[simp] theorem withFilter_arg (s : State) (f : FilterUnit) : (s.withFilter f).arg = s.arg := rfl
@[simp] theorem withFilter_cursor (s : State) (f : FilterUnit) : (s.withFilter f).cursor = s.cursor := rfl
@[simp] theorem withFilter_sfWidth (s : State) (f : FilterUnit) : (s.withFilter f).sfWidth = s.sfWidth := rfl
@[simp] theorem withFilter_sfHeight (s : State) (f : FilterUnit) : (s.withFilter f).sfHeight = s.sfHeight := rfl
@[simp] theorem withFilter_sfBpp (s : State) (f : FilterUnit) : (s.withFilter f).sfBpp = s.sfBpp := rfl
@[simp] theorem withFilter_filter (s : State) (f : FilterUnit) : (s.withFilter f).filter = f := rfl
@[simp] theorem withFilter_trees (s : State) (f : FilterUnit) : (s.withFilter f).trees = s.trees := rfl
@[simp] theorem withFilter_mem (s : State) (f : FilterUnit) : (s.withFilter f).mem = s.mem := rfl
@[simp] theorem withFilter_params (s : State) (f : FilterUnit) : (s.withFilter f).params = s.params := rfl
@[simp] theorem withFilter_draw (s : State) (f : FilterUnit) : (s.withFilter f).draw = s.draw := rfl
@[simp] theorem withFilter_pending (s : State) (f : FilterUnit) : (s.withFilter f).pending = s.pending := rfl
@[simp] theorem withFilter_answers (s : State) (f : FilterUnit) : (s.withFilter f).answers = s.answers := rfl

/-! `withTree`. -/

@[simp] theorem withTree_status (s : State) (slot : Fin 8) (r : Option Root) : (s.withTree slot r).status = s.status := rfl
@[simp] theorem withTree_result (s : State) (slot : Fin 8) (r : Option Root) : (s.withTree slot r).result = s.result := rfl
@[simp] theorem withTree_arg (s : State) (slot : Fin 8) (r : Option Root) : (s.withTree slot r).arg = s.arg := rfl
@[simp] theorem withTree_cursor (s : State) (slot : Fin 8) (r : Option Root) : (s.withTree slot r).cursor = s.cursor := rfl
@[simp] theorem withTree_sfWidth (s : State) (slot : Fin 8) (r : Option Root) : (s.withTree slot r).sfWidth = s.sfWidth := rfl
@[simp] theorem withTree_sfHeight (s : State) (slot : Fin 8) (r : Option Root) : (s.withTree slot r).sfHeight = s.sfHeight := rfl
@[simp] theorem withTree_sfBpp (s : State) (slot : Fin 8) (r : Option Root) : (s.withTree slot r).sfBpp = s.sfBpp := rfl
@[simp] theorem withTree_filter (s : State) (slot : Fin 8) (r : Option Root) : (s.withTree slot r).filter = s.filter := rfl
@[simp] theorem withTree_trees (s : State) (slot : Fin 8) (r : Option Root) : (s.withTree slot r).trees = s.trees.set slot.val r slot.isLt := rfl
@[simp] theorem withTree_mem (s : State) (slot : Fin 8) (r : Option Root) : (s.withTree slot r).mem = s.mem := rfl
@[simp] theorem withTree_params (s : State) (slot : Fin 8) (r : Option Root) : (s.withTree slot r).params = s.params := rfl
@[simp] theorem withTree_draw (s : State) (slot : Fin 8) (r : Option Root) : (s.withTree slot r).draw = s.draw := rfl
@[simp] theorem withTree_pending (s : State) (slot : Fin 8) (r : Option Root) : (s.withTree slot r).pending = s.pending := rfl
@[simp] theorem withTree_answers (s : State) (slot : Fin 8) (r : Option Root) : (s.withTree slot r).answers = s.answers := rfl

/-! `putByte`. -/

@[simp] theorem putByte_status (s : State) (b : ByteBank) (i : Nat) (v : Byte) : (s.putByte b i v).status = s.status := rfl
@[simp] theorem putByte_result (s : State) (b : ByteBank) (i : Nat) (v : Byte) : (s.putByte b i v).result = s.result := rfl
@[simp] theorem putByte_arg (s : State) (b : ByteBank) (i : Nat) (v : Byte) : (s.putByte b i v).arg = s.arg := rfl
@[simp] theorem putByte_cursor (s : State) (b : ByteBank) (i : Nat) (v : Byte) : (s.putByte b i v).cursor = s.cursor := rfl
@[simp] theorem putByte_sfWidth (s : State) (b : ByteBank) (i : Nat) (v : Byte) : (s.putByte b i v).sfWidth = s.sfWidth := rfl
@[simp] theorem putByte_sfHeight (s : State) (b : ByteBank) (i : Nat) (v : Byte) : (s.putByte b i v).sfHeight = s.sfHeight := rfl
@[simp] theorem putByte_sfBpp (s : State) (b : ByteBank) (i : Nat) (v : Byte) : (s.putByte b i v).sfBpp = s.sfBpp := rfl
@[simp] theorem putByte_filter (s : State) (b : ByteBank) (i : Nat) (v : Byte) : (s.putByte b i v).filter = s.filter := rfl
@[simp] theorem putByte_trees (s : State) (b : ByteBank) (i : Nat) (v : Byte) : (s.putByte b i v).trees = s.trees := rfl
@[simp] theorem putByte_mem (s : State) (b : ByteBank) (i : Nat) (v : Byte) : (s.putByte b i v).mem = s.mem.setBytes b (Store.put (s.mem.bytes b) i v) := rfl
@[simp] theorem putByte_params (s : State) (b : ByteBank) (i : Nat) (v : Byte) : (s.putByte b i v).params = s.params := rfl
@[simp] theorem putByte_draw (s : State) (b : ByteBank) (i : Nat) (v : Byte) : (s.putByte b i v).draw = s.draw := rfl
@[simp] theorem putByte_pending (s : State) (b : ByteBank) (i : Nat) (v : Byte) : (s.putByte b i v).pending = s.pending := rfl
@[simp] theorem putByte_answers (s : State) (b : ByteBank) (i : Nat) (v : Byte) : (s.putByte b i v).answers = s.answers := rfl

/-! `putWord`. -/

@[simp] theorem putWord_status (s : State) (b : WordBank) (i : Nat) (v : Word) : (s.putWord b i v).status = s.status := rfl
@[simp] theorem putWord_result (s : State) (b : WordBank) (i : Nat) (v : Word) : (s.putWord b i v).result = s.result := rfl
@[simp] theorem putWord_arg (s : State) (b : WordBank) (i : Nat) (v : Word) : (s.putWord b i v).arg = s.arg := rfl
@[simp] theorem putWord_cursor (s : State) (b : WordBank) (i : Nat) (v : Word) : (s.putWord b i v).cursor = s.cursor := rfl
@[simp] theorem putWord_sfWidth (s : State) (b : WordBank) (i : Nat) (v : Word) : (s.putWord b i v).sfWidth = s.sfWidth := rfl
@[simp] theorem putWord_sfHeight (s : State) (b : WordBank) (i : Nat) (v : Word) : (s.putWord b i v).sfHeight = s.sfHeight := rfl
@[simp] theorem putWord_sfBpp (s : State) (b : WordBank) (i : Nat) (v : Word) : (s.putWord b i v).sfBpp = s.sfBpp := rfl
@[simp] theorem putWord_filter (s : State) (b : WordBank) (i : Nat) (v : Word) : (s.putWord b i v).filter = s.filter := rfl
@[simp] theorem putWord_trees (s : State) (b : WordBank) (i : Nat) (v : Word) : (s.putWord b i v).trees = s.trees := rfl
@[simp] theorem putWord_mem (s : State) (b : WordBank) (i : Nat) (v : Word) : (s.putWord b i v).mem = s.mem.setWords b (Store.put (s.mem.words b) i v) := rfl
@[simp] theorem putWord_params (s : State) (b : WordBank) (i : Nat) (v : Word) : (s.putWord b i v).params = s.params := rfl
@[simp] theorem putWord_draw (s : State) (b : WordBank) (i : Nat) (v : Word) : (s.putWord b i v).draw = s.draw := rfl
@[simp] theorem putWord_pending (s : State) (b : WordBank) (i : Nat) (v : Word) : (s.putWord b i v).pending = s.pending := rfl
@[simp] theorem putWord_answers (s : State) (b : WordBank) (i : Nat) (v : Word) : (s.putWord b i v).answers = s.answers := rfl

/-! `answer`. -/

@[simp] theorem answer_status (s : State) (v : Word) : (s.answer v).status = s.status := rfl
@[simp] theorem answer_result (s : State) (v : Word) : (s.answer v).result = s.result := rfl
@[simp] theorem answer_arg (s : State) (v : Word) : (s.answer v).arg = s.arg := rfl
@[simp] theorem answer_cursor (s : State) (v : Word) : (s.answer v).cursor = s.cursor := rfl
@[simp] theorem answer_sfWidth (s : State) (v : Word) : (s.answer v).sfWidth = s.sfWidth := rfl
@[simp] theorem answer_sfHeight (s : State) (v : Word) : (s.answer v).sfHeight = s.sfHeight := rfl
@[simp] theorem answer_sfBpp (s : State) (v : Word) : (s.answer v).sfBpp = s.sfBpp := rfl
@[simp] theorem answer_filter (s : State) (v : Word) : (s.answer v).filter = s.filter := rfl
@[simp] theorem answer_trees (s : State) (v : Word) : (s.answer v).trees = s.trees := rfl
@[simp] theorem answer_mem (s : State) (v : Word) : (s.answer v).mem = s.mem := rfl
@[simp] theorem answer_params (s : State) (v : Word) : (s.answer v).params = s.params := rfl
@[simp] theorem answer_draw (s : State) (v : Word) : (s.answer v).draw = s.draw := rfl
@[simp] theorem answer_pending (s : State) (v : Word) : (s.answer v).pending = s.pending := rfl
@[simp] theorem answer_answers (s : State) (v : Word) : (s.answer v).answers = s.answers ++ [v] := rfl

/-! `writeBlock`. -/

@[simp] theorem writeBlock_status (y : Vector Word 64) (s : State) : (writeBlock y s).status = s.status := by unfold writeBlock; rfl
@[simp] theorem writeBlock_result (y : Vector Word 64) (s : State) : (writeBlock y s).result = s.result := by unfold writeBlock; rfl
@[simp] theorem writeBlock_arg (y : Vector Word 64) (s : State) : (writeBlock y s).arg = s.arg := by unfold writeBlock; rfl
@[simp] theorem writeBlock_cursor (y : Vector Word 64) (s : State) : (writeBlock y s).cursor = s.cursor := by unfold writeBlock; rfl
@[simp] theorem writeBlock_sfWidth (y : Vector Word 64) (s : State) : (writeBlock y s).sfWidth = s.sfWidth := by unfold writeBlock; rfl
@[simp] theorem writeBlock_sfHeight (y : Vector Word 64) (s : State) : (writeBlock y s).sfHeight = s.sfHeight := by unfold writeBlock; rfl
@[simp] theorem writeBlock_sfBpp (y : Vector Word 64) (s : State) : (writeBlock y s).sfBpp = s.sfBpp := by unfold writeBlock; rfl
@[simp] theorem writeBlock_filter (y : Vector Word 64) (s : State) : (writeBlock y s).filter = s.filter := by unfold writeBlock; rfl
@[simp] theorem writeBlock_trees (y : Vector Word 64) (s : State) : (writeBlock y s).trees = s.trees := by unfold writeBlock; rfl
@[simp] theorem writeBlock_params (y : Vector Word 64) (s : State) : (writeBlock y s).params = s.params := by unfold writeBlock; rfl
@[simp] theorem writeBlock_draw (y : Vector Word 64) (s : State) : (writeBlock y s).draw = s.draw := by unfold writeBlock; rfl
@[simp] theorem writeBlock_pending (y : Vector Word 64) (s : State) : (writeBlock y s).pending = s.pending := by unfold writeBlock; rfl
@[simp] theorem writeBlock_answers (y : Vector Word 64) (s : State) : (writeBlock y s).answers = s.answers := by unfold writeBlock; rfl
@[simp] theorem writeBlock_mem (y : Vector Word 64) (s : State) :
    (writeBlock y s).mem = s.mem.setWords .idctOut (putBlock y s.mem.idctOut) := by unfold writeBlock; rfl

end Sys2Proof.Machine
end

