-- ==== Sys2Proof/Laws/Store.lean ====
section
/-! SUPPORT. The laws of sparse stores: a read after a write, and the canonical form is kept. -/

namespace Sys2Proof.Machine

variable {α : Type}

@[simp] theorem Store.find?_nil (i : Nat) : Store.find? ([] : Store α) i = none := rfl

theorem Store.find?_cons (j : Nat) (w : α) (st : Store α) (i : Nat) :
    Store.find? ((j, w) :: st) i = if j = i then some w else Store.find? st i := rfl

@[simp] theorem Store.find?_put_same (st : Store α) (i : Nat) (v : α) :
    Store.find? (Store.put st i v) i = some v := by
  induction st with
  | nil => simp [Store.put, Store.find?]
  | cons e st ih =>
    obtain ⟨j, w⟩ := e
    simp only [Store.put]
    split
    · simp [Store.find?]
    · split
      · simp [Store.find?]
      · have : j ≠ i := by omega
        simp [Store.find?, this, ih]

theorem Store.find?_put_other (st : Store α) {i k : Nat} (v : α) (h : k ≠ i) :
    Store.find? (Store.put st i v) k = Store.find? st k := by
  induction st with
  | nil => simp [Store.put, Store.find?, Ne.symm h]
  | cons e st ih =>
    obtain ⟨j, w⟩ := e
    simp only [Store.put]
    split
    · simp [Store.find?, Ne.symm h]
    · split
      · subst_vars; simp [Store.find?, Ne.symm h]
      · simp [Store.find?, ih]

theorem Store.find?_put (st : Store α) (i k : Nat) (v : α) :
    Store.find? (Store.put st i v) k = if k = i then some v else Store.find? st k := by
  split
  · subst_vars; simp
  · exact Store.find?_put_other st v ‹_›

/-- The canonical form of a nonempty store: the head's index is below all others. -/
theorem Store.wf_cons (i : Nat) (v : α) (st : Store α) :
    Store.wf ((i, v) :: st) = true ↔ (∀ e ∈ st, i < e.1) ∧ Store.wf st = true := by
  induction st generalizing i v with
  | nil => simp [Store.wf]
  | cons e st ih =>
    obtain ⟨j, w⟩ := e
    simp only [Store.wf, Bool.and_eq_true, decide_eq_true_eq, List.mem_cons, forall_eq_or_imp]
    constructor
    · rintro ⟨hij, h⟩
      exact ⟨⟨hij, fun e he => lt_trans hij (((ih j w).1 h).1 e he)⟩, h⟩
    · rintro ⟨⟨hij, -⟩, h⟩
      exact ⟨hij, h⟩

theorem Store.index_of_mem_put {st : Store α} {i : Nat} {v : α} {e : Nat × α} (h : e ∈ Store.put st i v) :
    e.1 = i ∨ ∃ e' ∈ st, e'.1 = e.1 := by
  induction st with
  | nil => simp [Store.put] at h; simp [h]
  | cons a st ih =>
    obtain ⟨j, w⟩ := a
    simp only [Store.put] at h
    split at h
    · rcases List.mem_cons.1 h with h | h
      · simp [h]
      · exact .inr ⟨e, h, rfl⟩
    · split at h
      · rcases List.mem_cons.1 h with h | h
        · simp [h]
        · exact .inr ⟨e, List.mem_cons_of_mem _ h, rfl⟩
      · rcases List.mem_cons.1 h with h | h
        · exact .inr ⟨e, by simp [h], rfl⟩
        · rcases ih h with h | ⟨e', he', h'⟩
          · exact .inl h
          · exact .inr ⟨e', List.mem_cons_of_mem _ he', h'⟩

theorem Store.wf_put {st : Store α} (h : Store.wf st = true) (i : Nat) (v : α) :
    Store.wf (Store.put st i v) = true := by
  induction st with
  | nil => simp [Store.put, Store.wf]
  | cons e st ih =>
    obtain ⟨j, w⟩ := e
    have ⟨hj, hst⟩ := (Store.wf_cons j w st).1 h
    simp only [Store.put]
    split
    · rename_i hij
      refine (Store.wf_cons ..).2 ⟨?_, h⟩
      simp only [List.mem_cons, forall_eq_or_imp]
      exact ⟨hij, fun e he => lt_trans hij (hj e he)⟩
    · split
      · subst_vars; exact (Store.wf_cons ..).2 ⟨hj, hst⟩
      · refine (Store.wf_cons ..).2 ⟨fun e he => ?_, ih hst⟩
        rcases Store.index_of_mem_put he with h' | ⟨e', he', h'⟩
        · omega
        · rw [← h']; exact hj e' he'

theorem Store.below_put {st : Store α} {n i : Nat} (h : Store.below n st = true) (hi : i < n) (v : α) :
    Store.below n (Store.put st i v) = true := by
  simp only [Store.below, List.all_eq_true, decide_eq_true_eq] at *
  intro e he
  rcases Store.index_of_mem_put he with h' | ⟨e', he', h'⟩
  · omega
  · rw [← h']; exact h e' he'

/-! Writing a run of elements, as the line copy and the IDCT do. -/

variable {ι : Type}

theorem Store.wf_foldl_put (l : List ι) (key : ι → Nat) (val : ι → α) {st : Store α} (h : Store.wf st = true) :
    Store.wf (l.foldl (fun st i => Store.put st (key i) (val i)) st) = true := by
  induction l generalizing st with
  | nil => exact h
  | cons a l ih => exact ih (Store.wf_put h _ _)

theorem Store.below_foldl_put (l : List ι) (key : ι → Nat) (val : ι → α) {st : Store α} {n : Nat}
    (h : Store.below n st = true) (hk : ∀ i ∈ l, key i < n) :
    Store.below n (l.foldl (fun st i => Store.put st (key i) (val i)) st) = true := by
  induction l generalizing st with
  | nil => exact h
  | cons a l ih =>
    exact ih (Store.below_put h (hk a (by simp)) _) fun i hi => hk i (List.mem_cons_of_mem _ hi)

/-- An index no write names keeps its element. -/
theorem Store.find?_foldl_put_other (l : List ι) (key : ι → Nat) (val : ι → α) (st : Store α) {k : Nat}
    (hk : ∀ i ∈ l, key i ≠ k) :
    Store.find? (l.foldl (fun st i => Store.put st (key i) (val i)) st) k = Store.find? st k := by
  induction l generalizing st with
  | nil => rfl
  | cons a l ih =>
    rw [List.foldl_cons, ih _ fun i hi => hk i (List.mem_cons_of_mem _ hi)]
    exact Store.find?_put_other st _ (hk a (by simp)).symm

/-- An index one write names holds that write's element, where no two writes name one index. -/
theorem Store.find?_foldl_put_mem (l : List ι) (key : ι → Nat) (val : ι → α) (st : Store α)
    (hinj : l.Pairwise fun i j => key i ≠ key j) {i : ι} (hi : i ∈ l) :
    Store.find? (l.foldl (fun st i => Store.put st (key i) (val i)) st) (key i) = some (val i) := by
  induction l generalizing st with
  | nil => simp at hi
  | cons a l ih =>
    rw [List.foldl_cons]
    rcases List.mem_cons.1 hi with rfl | hi
    · rw [Store.find?_foldl_put_other _ _ _ _ fun j hj => ((List.pairwise_cons.1 hinj).1 j hj).symm]
      simp
    · exact ih _ (List.pairwise_cons.1 hinj).2 hi

end Sys2Proof.Machine
end

