-- ==== Sys2Proof/Laws/Memory.lean ====
section
/-! SUPPORT. The laws of memory: a read after a write, every operation keeps the canonical form and the bounds, and what
a checked access can do. -/

namespace Sys2Proof.Machine

/-! Banks. -/

@[simp] theorem Memory.bytes_setBytes (m : Memory) (b b' : ByteBank) (st : Store Byte) :
    (m.setBytes b st).bytes b' = if b' = b then st else m.bytes b' := by
  cases b <;> cases b' <;> rfl

@[simp] theorem Memory.words_setBytes (m : Memory) (b : ByteBank) (st : Store Byte) (b' : WordBank) :
    (m.setBytes b st).words b' = m.words b' := by
  cases b <;> cases b' <;> rfl

@[simp] theorem Memory.words_setWords (m : Memory) (b b' : WordBank) (st : Store Word) :
    (m.setWords b st).words b' = if b' = b then st else m.words b' := by
  cases b <;> cases b' <;> rfl

@[simp] theorem Memory.bytes_setWords (m : Memory) (b : WordBank) (st : Store Word) (b' : ByteBank) :
    (m.setWords b st).bytes b' = m.bytes b' := by
  cases b <;> cases b' <;> rfl

/-- The canonical form, bank by bank. -/
theorem Memory.wf_iff (m : Memory) :
    m.wf = true ↔ (∀ b, Store.wf (m.bytes b) = true) ∧ ∀ b, Store.wf (m.words b) = true := by
  constructor
  · intro h
    simp only [Memory.wf, Bool.and_eq_true] at h
    constructor <;> intro b <;> cases b <;> simp only [Memory.bytes, Memory.words] <;> tauto
  · rintro ⟨h1, h2⟩
    have a := h1 .stream; have b := h1 .htLen; have c := h1 .htSym; have d := h1 .out
    have e := h1 .cur; have f := h1 .prev; have g := h2 .idctIn; have i := h2 .idctOut
    simp only [Memory.bytes, Memory.words] at *
    simp [Memory.wf, a, b, c, d, e, f, g, i]

/-- The bounds, bank by bank. -/
theorem Memory.inBounds_iff (p : Params) (m : Memory) :
    m.inBounds p = true ↔
      (∀ b, Store.below (byteBankSize p b) (m.bytes b) = true) ∧
        ∀ b, Store.below wordBankSize (m.words b) = true := by
  constructor
  · intro h
    simp only [Memory.inBounds, Bool.and_eq_true] at h
    constructor <;> intro b <;> cases b <;> simp only [Memory.bytes, Memory.words] <;> tauto
  · rintro ⟨h1, h2⟩
    have a := h1 .stream; have b := h1 .htLen; have c := h1 .htSym; have d := h1 .out
    have e := h1 .cur; have f := h1 .prev; have g := h2 .idctIn; have i := h2 .idctOut
    simp only [Memory.bytes, Memory.words] at *
    simp [Memory.inBounds, a, b, c, d, e, f, g, i]

theorem Memory.wf_setBytes {m : Memory} (h : m.wf = true) (b : ByteBank) {st : Store Byte}
    (hst : Store.wf st = true) : (m.setBytes b st).wf = true := by
  have ⟨h1, h2⟩ := (Memory.wf_iff m).1 h
  refine (Memory.wf_iff _).2 ⟨fun b' => ?_, fun b' => by simpa using h2 b'⟩
  rw [Memory.bytes_setBytes]
  split
  · exact hst
  · exact h1 b'

theorem Memory.wf_setWords {m : Memory} (h : m.wf = true) (b : WordBank) {st : Store Word}
    (hst : Store.wf st = true) : (m.setWords b st).wf = true := by
  have ⟨h1, h2⟩ := (Memory.wf_iff m).1 h
  refine (Memory.wf_iff _).2 ⟨fun b' => by simpa using h1 b', fun b' => ?_⟩
  rw [Memory.words_setWords]
  split
  · exact hst
  · exact h2 b'

theorem Memory.inBounds_setBytes {p : Params} {m : Memory} (h : m.inBounds p = true) (b : ByteBank)
    {st : Store Byte} (hst : Store.below (byteBankSize p b) st = true) :
    (m.setBytes b st).inBounds p = true := by
  have ⟨h1, h2⟩ := (Memory.inBounds_iff p m).1 h
  refine (Memory.inBounds_iff p _).2 ⟨fun b' => ?_, fun b' => by simpa using h2 b'⟩
  rw [Memory.bytes_setBytes]
  split
  · subst_vars; exact hst
  · exact h1 b'

theorem Memory.inBounds_setWords {p : Params} {m : Memory} (h : m.inBounds p = true) (b : WordBank)
    {st : Store Word} (hst : Store.below wordBankSize st = true) : (m.setWords b st).inBounds p = true := by
  have ⟨h1, h2⟩ := (Memory.inBounds_iff p m).1 h
  refine (Memory.inBounds_iff p _).2 ⟨fun b' => by simpa using h1 b', fun b' => ?_⟩
  rw [Memory.words_setWords]
  split
  · exact hst
  · exact h2 b'

theorem Memory.wf_unwritten : Memory.unwritten.wf = true := by decide

theorem Memory.inBounds_unwritten (p : Params) : Memory.unwritten.inBounds p = true := rfl

/-! One element. -/

/-- A byte write changes one element of one bank. -/
theorem byteAt_putByte (s : State) (b b' : ByteBank) (i k : Nat) (v : Byte) :
    (s.putByte b i v).byteAt b' k = if b' = b ∧ k = i then v else s.byteAt b' k := by
  simp only [State.byteAt, putByte_mem, putByte_draw, Memory.bytes_setBytes]
  by_cases hb : b' = b
  · subst hb
    by_cases hk : k = i
    · subst hk; simp
    · simp [hk, Store.find?_put_other]
  · simp [hb]

@[simp] theorem wordAt_putByte (s : State) (b : ByteBank) (i : Nat) (v : Byte) (b' : WordBank) (k : Nat) :
    (s.putByte b i v).wordAt b' k = s.wordAt b' k := by
  simp [State.wordAt]

/-- A word write changes one element of one bank. -/
theorem wordAt_putWord (s : State) (b b' : WordBank) (i k : Nat) (v : Word) :
    (s.putWord b i v).wordAt b' k = if b' = b ∧ k = i then v else s.wordAt b' k := by
  simp only [State.wordAt, putWord_mem, putWord_draw, Memory.words_setWords]
  by_cases hb : b' = b
  · subst hb
    by_cases hk : k = i
    · subst hk; simp
    · simp [hk, Store.find?_put_other]
  · simp [hb]

@[simp] theorem byteAt_putWord (s : State) (b : WordBank) (i : Nat) (v : Word) (b' : ByteBank) (k : Nat) :
    (s.putWord b i v).byteAt b' k = s.byteAt b' k := by
  simp [State.byteAt]

/-- What an element reads as depends on memory and the power-on draw alone. -/
theorem byteAt_congr {s t : State} (hm : t.mem = s.mem) (hd : t.draw = s.draw) (b : ByteBank) (i : Nat) :
    t.byteAt b i = s.byteAt b i := by
  simp [State.byteAt, hm, hd]

theorem wordAt_congr {s t : State} (hm : t.mem = s.mem) (hd : t.draw = s.draw) (b : WordBank) (i : Nat) :
    t.wordAt b i = s.wordAt b i := by
  simp [State.wordAt, hm, hd]

theorem memorySame_of_mem_eq {s t : State} (hm : t.mem = s.mem) (hd : t.draw = s.draw) : MemorySame s t :=
  ⟨fun b i => byteAt_congr hm hd b i, fun b i => wordAt_congr hm hd b i⟩

/-! The updates that leave memory alone read as before. -/

@[simp] theorem byteAt_succeed (s : State) (b : ByteBank) (i : Nat) : (succeed s).byteAt b i = s.byteAt b i := rfl
@[simp] theorem wordAt_succeed (s : State) (b : WordBank) (i : Nat) : (succeed s).wordAt b i = s.wordAt b i := rfl
@[simp] theorem byteAt_fail (s : State) (c : ErrCode) (b : ByteBank) (i : Nat) : (fail c s).byteAt b i = s.byteAt b i := rfl
@[simp] theorem wordAt_fail (s : State) (c : ErrCode) (b : WordBank) (i : Nat) : (fail c s).wordAt b i = s.wordAt b i := rfl
@[simp] theorem byteAt_succeedWith (s : State) (v : Word) (b : ByteBank) (i : Nat) : (succeedWith v s).byteAt b i = s.byteAt b i := rfl
@[simp] theorem wordAt_succeedWith (s : State) (v : Word) (b : WordBank) (i : Nat) : (succeedWith v s).wordAt b i = s.wordAt b i := rfl
@[simp] theorem byteAt_failCursor (s : State) (c : ErrCode) (b : ByteBank) (i : Nat) : (failCursor c s).byteAt b i = s.byteAt b i := rfl
@[simp] theorem wordAt_failCursor (s : State) (c : ErrCode) (b : WordBank) (i : Nat) : (failCursor c s).wordAt b i = s.wordAt b i := rfl
@[simp] theorem byteAt_withCursor (s : State) (c : Cursor) (b : ByteBank) (i : Nat) : (s.withCursor c).byteAt b i = s.byteAt b i := rfl
@[simp] theorem wordAt_withCursor (s : State) (c : Cursor) (b : WordBank) (i : Nat) : (s.withCursor c).wordAt b i = s.wordAt b i := rfl
@[simp] theorem byteAt_withFilter (s : State) (f : FilterUnit) (b : ByteBank) (i : Nat) : (s.withFilter f).byteAt b i = s.byteAt b i := rfl
@[simp] theorem wordAt_withFilter (s : State) (f : FilterUnit) (b : WordBank) (i : Nat) : (s.withFilter f).wordAt b i = s.wordAt b i := rfl
@[simp] theorem byteAt_withTree (s : State) (slot : Fin 8) (r : Option Root) (b : ByteBank) (i : Nat) : (s.withTree slot r).byteAt b i = s.byteAt b i := rfl
@[simp] theorem wordAt_withTree (s : State) (slot : Fin 8) (r : Option Root) (b : WordBank) (i : Nat) : (s.withTree slot r).wordAt b i = s.wordAt b i := rfl

/-- A written element does not depend on the power-on draw. -/
theorem byteAt_of_written {s : State} {b : ByteBank} {i : Nat} (h : (Store.find? (s.mem.bytes b) i).isSome) (d : Nat) :
    ({ s with draw := d } : State).byteAt b i = s.byteAt b i := by
  obtain ⟨v, hv⟩ := Option.isSome_iff_exists.1 h
  simp [State.byteAt, hv]

theorem wf_putByte {s : State} (h : s.mem.wf = true) (b : ByteBank) (i : Nat) (v : Byte) :
    (s.putByte b i v).mem.wf = true :=
  Memory.wf_setBytes h b (Store.wf_put (((Memory.wf_iff _).1 h).1 b) i v)

theorem wf_putWord {s : State} (h : s.mem.wf = true) (b : WordBank) (i : Nat) (v : Word) :
    (s.putWord b i v).mem.wf = true :=
  Memory.wf_setWords h b (Store.wf_put (((Memory.wf_iff _).1 h).2 b) i v)

theorem inBounds_putByte {s : State} (h : s.mem.inBounds s.params = true) {b : ByteBank} {i : Nat}
    (hi : i < byteBankSize s.params b) (v : Byte) : (s.putByte b i v).mem.inBounds s.params = true :=
  Memory.inBounds_setBytes h b (Store.below_put (((Memory.inBounds_iff _ _).1 h).1 b) hi v)

theorem inBounds_putWord {s : State} (h : s.mem.inBounds s.params = true) (b : WordBank) {i : Nat}
    (hi : i < wordBankSize) (v : Word) : (s.putWord b i v).mem.inBounds s.params = true :=
  Memory.inBounds_setWords h b (Store.below_put (((Memory.inBounds_iff _ _).1 h).2 b) hi v)

/-! Checked accesses. -/

/-- A read inside the bank answers the element. -/
theorem readByte_of_lt {s : State} {b : ByteBank} {i : Nat} (h : i < byteBankSize s.params b) :
    readByte s b i = .ok (s.byteAt b i) := by
  simp [readByte, h]

/-- Everything a read that answers can have done. -/
theorem readByte_ok_iff (s : State) (b : ByteBank) (i : Nat) (v : Byte) :
    readByte s b i = .ok v ↔ i < byteBankSize s.params b ∧ v = s.byteAt b i := by
  unfold readByte
  split <;> simp_all [eq_comm]

/-- A write inside the bank answers the state with the element written. -/
theorem writeByte_of_lt {s : State} {b : ByteBank} {i : Nat} (h : i < byteBankSize s.params b) (v : Byte) :
    writeByte s b i v = .ok (s.putByte b i v) := by
  simp [writeByte, h]

/-- Everything a write that answers can have done. -/
theorem writeByte_ok_iff (s t : State) (b : ByteBank) (i : Nat) (v : Byte) :
    writeByte s b i v = .ok t ↔ i < byteBankSize s.params b ∧ t = s.putByte b i v := by
  unfold writeByte
  split <;> simp_all [eq_comm]

end Sys2Proof.Machine
end

