-- ==== Sys2Proof/Laws/Status.lean ====
section
/-! SUPPORT. STATUS bit by bit after each of its three updates, and what follows for how a command ended. -/

namespace Sys2Proof.Machine

/-- The error codes' sticky bits are bits 1 to 11. -/
theorem ErrCode.stickyBit_range (c : ErrCode) : 1 ≤ c.stickyBit ∧ c.stickyBit ≤ 11 := by
  cases c <;> decide

/-- The error codes' numbers are 1 to 13. -/
theorem ErrCode.number_range (c : ErrCode) : 1 ≤ c.number.toNat ∧ c.number.toNat ≤ 13 := by
  cases c <;> decide

/-- The bits of STATUS after the success procedure. -/
theorem getLsbD_statusSucceed (st : Word) (i : Nat) :
    (statusSucceed st).getLsbD i = (decide (i = 0) || (decide (i < 24) && st.getLsbD i)) := by
  by_cases h : i < 32
  · interval_cases i <;> simp [statusSucceed]
  · have : ¬ i < 24 := by omega
    have : i ≠ 0 := by omega
    rw [BitVec.getLsbD_of_ge _ _ (by omega)]
    simp [*]

/-- The bits of STATUS after the error procedure. -/
theorem getLsbD_statusFail (c : ErrCode) (st : Word) (i : Nat) :
    (statusFail c st).getLsbD i =
      ((decide (1 ≤ i) && decide (i < 24) && st.getLsbD i) || decide (i = c.stickyBit) ||
        (decide (24 ≤ i) && c.number.getLsbD (i - 24))) := by
  by_cases h : i < 32
  · interval_cases i <;> cases c <;> simp [statusFail, ErrCode.number, ErrCode.stickyBit]
  · have h24 : ¬ i < 24 := by omega
    have hs : i ≠ c.stickyBit := by have := c.stickyBit_range; omega
    rw [BitVec.getLsbD_of_ge _ _ (by omega), BitVec.getLsbD_of_ge c.number _ (by omega)]
    simp [h24, hs]

/-- The bits of STATUS after a host write of `v`. -/
theorem getLsbD_statusClear (v st : Word) (i : Nat) :
    (statusClear v st).getLsbD i =
      (st.getLsbD i && !(decide (1 ≤ i) && decide (i ≤ 11) && v.getLsbD i)) := by
  by_cases h : i < 32
  · interval_cases i <;> simp [statusClear, stickyMask]
  · rw [BitVec.getLsbD_of_ge _ _ (by omega), BitVec.getLsbD_of_ge st _ (by omega)]
    simp

theorem getLsbD_lastErr (st : Word) (i : Nat) :
    (lastErr st).getLsbD i = (decide (i < 8) && st.getLsbD (24 + i)) := by
  simp [lastErr, BitVec.getLsbD_extractLsb']

@[simp] theorem statusOk_statusSucceed (st : Word) : statusOk (statusSucceed st) = true := by
  simp [statusOk, getLsbD_statusSucceed]

@[simp] theorem lastErr_statusSucceed (st : Word) : lastErr (statusSucceed st) = 0#8 := by
  apply BitVec.eq_of_getLsbD_eq
  intro i hi
  simp [getLsbD_lastErr, getLsbD_statusSucceed]

@[simp] theorem statusOk_statusFail (c : ErrCode) (st : Word) : statusOk (statusFail c st) = false := by
  have h0 : 0 ≠ c.stickyBit := by have := c.stickyBit_range; omega
  rw [statusOk, getLsbD_statusFail]
  simp [h0]

@[simp] theorem lastErr_statusFail (c : ErrCode) (st : Word) : lastErr (statusFail c st) = c.number := by
  apply BitVec.eq_of_getLsbD_eq
  intro i hi
  have h1 : ¬ (24 + i = c.stickyBit) := by have := c.stickyBit_range; omega
  rw [getLsbD_lastErr, getLsbD_statusFail]
  simp [hi, h1]

@[simp] theorem lastErr_statusClear (v st : Word) : lastErr (statusClear v st) = lastErr st := by
  apply BitVec.eq_of_getLsbD_eq
  intro i hi
  have h1 : ¬ (24 + i ≤ 11) := by omega
  simp [getLsbD_lastErr, getLsbD_statusClear, h1]

@[simp] theorem statusOk_statusClear (v st : Word) : statusOk (statusClear v st) = statusOk st := by
  rw [statusOk, statusOk, getLsbD_statusClear]
  simp

/-- The middle bits of STATUS after the success procedure. -/
theorem statusSucceed_keeps (st : Word) {i : Nat} (h1 : 1 ≤ i) (h2 : i < 24) :
    (statusSucceed st).getLsbD i = st.getLsbD i := by
  have : i ≠ 0 := by omega
  simp [getLsbD_statusSucceed, h2, this]

/-- The middle bits of STATUS after the error procedure, but for the code's own. -/
theorem statusFail_keeps (c : ErrCode) (st : Word) {i : Nat} (h1 : 1 ≤ i) (h2 : i < 24) (h3 : i ≠ c.stickyBit) :
    (statusFail c st).getLsbD i = st.getLsbD i := by
  have : ¬ 24 ≤ i := by omega
  simp [getLsbD_statusFail, h1, h2, h3, this]

/-- The code's sticky bit after the error procedure. -/
theorem statusFail_sets (c : ErrCode) (st : Word) : (statusFail c st).getLsbD c.stickyBit = true := by
  simp [getLsbD_statusFail]

/-- A state with STATUS as the success procedure leaves it ended in success. -/
theorem succeeded_of_status {s t : State} (h : t.status = statusSucceed s.status) : Succeeded s t := by
  refine ⟨by simp [h], by simp [h], fun i h1 h2 => ?_⟩
  rw [h, statusSucceed_keeps _ h1 h2]

/-- A state with STATUS and RESULT as the error procedure leaves them ended in failure. -/
theorem failed_of_status {s t : State} (c : ErrCode) (h : t.status = statusFail c s.status)
    (hr : t.result = sentinel) : Failed c.number c.stickyBit s t := by
  refine ⟨by simp [h], by simp [h], by rw [h]; exact statusFail_sets c _, fun i h1 h2 h3 => ?_, hr⟩
  rw [h, statusFail_keeps _ _ h1 h2 h3]

/-- The STATUS clauses of the invariant, from the three ways STATUS is written. -/
theorem statusInv_succeed {s t : State} (h : StatusInv s) (ht : t.status = statusSucceed s.status) : StatusInv t where
  reserved i h1 h2 := by rw [ht, statusSucceed_keeps _ (by omega) h2]; exact h.reserved i h1 h2
  ok_iff := by simp [ht]
  code_le := by simp [ht]
  sentinel := by simp [ht]

theorem statusInv_fail {s t : State} (h : StatusInv s) (c : ErrCode) (ht : t.status = statusFail c s.status)
    (hr : t.result = sentinel) : StatusInv t where
  reserved i h1 h2 := by
    have := c.stickyBit_range
    rw [ht, statusFail_keeps _ _ (by omega) h2 (by omega)]; exact h.reserved i h1 h2
  ok_iff := by
    have := c.number_range
    simp only [ht, statusOk_statusFail, lastErr_statusFail, Bool.false_eq_true, false_iff]
    intro h0; rw [h0] at this; simp at this
  code_le := by rw [ht, lastErr_statusFail]; exact c.number_range.2
  sentinel := fun _ => hr

theorem statusInv_clear {s t : State} (h : StatusInv s) (v : Word) (ht : t.status = statusClear v s.status)
    (hr : t.result = s.result) : StatusInv t where
  reserved i h1 h2 := by rw [ht, getLsbD_statusClear, h.reserved i h1 h2]; rfl
  ok_iff := by simp only [ht, statusOk_statusClear, lastErr_statusClear]; exact h.ok_iff
  code_le := by rw [ht, lastErr_statusClear]; exact h.code_le
  sentinel := by rw [ht, lastErr_statusClear, hr]; exact h.sentinel

theorem statusInv_same {s t : State} (h : StatusInv s) (ht : t.status = s.status) (hr : t.result = s.result) :
    StatusInv t where
  reserved := by rw [ht]; exact h.reserved
  ok_iff := by rw [ht]; exact h.ok_iff
  code_le := by rw [ht]; exact h.code_le
  sentinel := by rw [ht, hr]; exact h.sentinel

end Sys2Proof.Machine
end

