-- ==== Sys2Proof/Laws/Cursor.lean ====
section
/-! SUPPORT. The laws of the cursor: one bit further, a run of bits read, and a walk down a tree. -/

namespace Sys2Proof.Machine

@[simp] theorem Cursor.advance_valid (c : Cursor) : c.advance.valid = c.valid := by
  unfold Cursor.advance; split <;> rfl

@[simp] theorem Cursor.advance_endBound (c : Cursor) : c.advance.endBound = c.endBound := by
  unfold Cursor.advance; split <;> rfl

theorem Cursor.bit_lt (c : Cursor) : c.bit.toNat < 8 := c.bit.isLt

/-- One bit further is one more bit before the cursor, where the byte index does not wrap. -/
theorem Cursor.position_advance {c : Cursor} (h : c.byte.toNat < 2 ^ 32 - 1) :
    c.advance.position = c.position + 1 := by
  unfold Cursor.advance Cursor.position
  split
  · rename_i hb
    simp [hb, BitVec.toNat_add]
    omega
  · rename_i hb
    have h7 : c.bit.toNat ≠ 7 := fun h => hb (BitVec.eq_of_toNat_eq (by simpa using h))
    have := c.bit_lt
    simp [BitVec.toNat_add]
    omega

theorem Cursor.byte_eq (c : Cursor) : c.byte.toNat = c.position / 8 := by
  have := c.bit_lt; unfold Cursor.position; omega

theorem Cursor.bit_eq (c : Cursor) : c.bit.toNat = c.position % 8 := by
  have := c.bit_lt; unfold Cursor.position; omega

/-- A cursor is its position, its validity and its end bound. -/
theorem Cursor.ext_position {c d : Cursor} (hp : c.position = d.position) (hv : c.valid = d.valid)
    (he : c.endBound = d.endBound) : c = d := by
  have hb : c.byte = d.byte := BitVec.eq_of_toNat_eq (by rw [c.byte_eq, d.byte_eq, hp])
  have hk : c.bit = d.bit := BitVec.eq_of_toNat_eq (by rw [c.bit_eq, d.bit_eq, hp])
  cases c; cases d; simp_all

/-- The bits left, in terms of the position. -/
theorem Cursor.avail_eq (c : Cursor) : c.avail = 8 * c.endBound.toNat - c.position := by
  have := c.bit_lt
  unfold Cursor.avail Cursor.position
  simp only [BitVec.lt_def]
  split <;> omega

/-- The next bit, where the cursor lies in the stream. -/
theorem nextBit_of_lt {s : State} {c : Cursor} (h : c.byte.toNat < s.params.streamSize) :
    nextBit s c = .ok (streamBit s c.position) := by
  rw [nextBit, readByte_of_lt (by simpa [byteBankSize] using h)]
  simp only [Except.map, streamBit, ← c.byte_eq, ← c.bit_eq]

/-- Everything a bit read that answers can have done. -/
theorem nextBit_ok_iff (s : State) (c : Cursor) (b : Bool) :
    nextBit s c = .ok b ↔ c.byte.toNat < s.params.streamSize ∧ b = streamBit s c.position := by
  by_cases h : c.byte.toNat < s.params.streamSize
  · simp [nextBit_of_lt h, h, eq_comm]
  · simp [nextBit, readByte, byteBankSize, h, Except.map]

/-- The value of bits in stream order, most significant first, begun with `v` (41_bitcursor.md R142). -/
def bitsValue : Nat → List Bool → Nat
  | v, [] => v
  | v, b :: bits => bitsValue (2 * v + b.toNat) bits

theorem bitsValue_append (v : Nat) (l m : List Bool) : bitsValue v (l ++ m) = bitsValue (bitsValue v l) m := by
  induction l generalizing v with
  | nil => rfl
  | cons b l ih => exact ih _

theorem bitsValue_eq (v : Nat) (l : List Bool) : bitsValue v l = v * 2 ^ l.length + bitsValue 0 l := by
  induction l generalizing v with
  | nil => simp [bitsValue]
  | cons b l ih =>
    simp only [bitsValue, List.length_cons]
    rw [ih (2 * v + b.toNat), ih (2 * 0 + b.toNat)]
    ring

theorem bitsValue_lt (l : List Bool) : bitsValue 0 l < 2 ^ l.length := by
  induction l with
  | nil => simp [bitsValue]
  | cons b l ih =>
    simp only [bitsValue, List.length_cons]
    rw [bitsValue_eq]
    have : b.toNat ≤ 1 := Bool.toNat_le b
    rw [pow_succ]
    nlinarith

/-- The bits from a position on, the first one apart. -/
theorem streamBits_succ (s : State) (p n : Nat) :
    streamBits s p (n + 1) = streamBit s p :: streamBits s (p + 1) n := by
  simp only [streamBits, List.range_succ_eq_map, List.map_cons, List.map_map, Nat.add_zero]
  congr 1
  apply List.map_congr_left
  intro i _
  simp only [Function.comp]
  congr 1; omega

@[simp] theorem streamBits_zero (s : State) (p : Nat) : streamBits s p 0 = [] := rfl

@[simp] theorem streamBits_length (s : State) (p n : Nat) : (streamBits s p n).length = n := by
  simp [streamBits]

/-- A read of `n` bits inside the stream: the value, and the cursor `n` bits further. -/
theorem readBits_of_le {s : State} {n v : Nat} {c : Cursor} (hs : s.params.streamSize < 2 ^ 32)
    (h : c.position + n ≤ 8 * s.params.streamSize) :
    ∃ c', readBits s n v c = .ok (bitsValue v (streamBits s c.position n), c') ∧
      c'.position = c.position + n ∧ c'.valid = c.valid ∧ c'.endBound = c.endBound := by
  induction n generalizing v c with
  | zero => exact ⟨c, rfl, rfl, rfl, rfl⟩
  | succ n ih =>
    have hlt : c.byte.toNat < s.params.streamSize := by rw [c.byte_eq]; omega
    have hp := Cursor.position_advance (c := c) (by omega)
    obtain ⟨c', h1, h2, h3, h4⟩ := ih (v := 2 * v + (streamBit s c.position).toNat) (c := c.advance) (by omega)
    refine ⟨c', ?_, by omega, by simpa using h3, by simpa using h4⟩
    rw [readBits, nextBit_of_lt hlt]
    simp only [h1, streamBits_succ, bitsValue, hp]

/-- Everything a run of bits read that answers can have done to the cursor. -/
theorem readBits_ok {s : State} {n v v' : Nat} {c c' : Cursor} (h : readBits s n v c = .ok (v', c')) :
    c'.valid = c.valid ∧ c'.endBound = c.endBound := by
  induction n generalizing v c with
  | zero => simp [readBits] at h; simp [h.2]
  | succ n ih =>
    rw [readBits] at h
    split at h
    · simpa using ih h
    · cases h

/-! A walk. -/

/-- A walk that answers only moves the cursor. -/
theorem walk_ok {s : State} {node : Child} {c c' : Cursor} {e : WalkEnd} (h : walk s node c = .ok (e, c')) :
    c'.valid = c.valid ∧ c'.endBound = c.endBound := by
  induction node generalizing c with
  | empty => simp [walk] at h; simp [h.2]
  | leaf sym => simp [walk] at h; simp [h.2]
  | inner c0 c1 ih0 ih1 =>
    rw [walk] at h
    split at h
    · simp at h; simp [h.2]
    · split at h
      · cases h
      · simpa using ih0 h
      · simpa using ih1 h

/-- A walk from a cursor whose end bound lies in the stream answers: it stays in the stream and takes no more bits than
are left, nor more than the tree is deep. -/
theorem walk_of_le {s : State} {node : Child} {c : Cursor} (hs : s.params.streamSize < 2 ^ 32)
    (he : c.endBound.toNat ≤ s.params.streamSize) :
    ∃ e c', walk s node c = .ok (e, c') ∧ c'.valid = c.valid ∧ c'.endBound = c.endBound ∧
      c.position ≤ c'.position ∧ c'.position ≤ c.position + min c.avail node.depth := by
  induction node generalizing c with
  | empty => exact ⟨_, c, rfl, rfl, rfl, le_refl _, by simp⟩
  | leaf sym => exact ⟨_, c, rfl, rfl, rfl, le_refl _, by simp⟩
  | inner c0 c1 ih0 ih1 =>
    rw [walk]
    by_cases ha : c.avail = 0
    · exact ⟨.underrun, c, by simp [ha], rfl, rfl, le_refl _, by simp⟩
    · have hav := c.avail_eq
      have hlt : c.byte.toNat < s.params.streamSize := by rw [c.byte_eq]; omega
      have hp := Cursor.position_advance (c := c) (by omega)
      have hav' := c.advance.avail_eq
      simp only [Cursor.advance_endBound] at hav'
      rw [if_neg ha, nextBit_of_lt hlt]
      cases streamBit s c.position with
      | false =>
        obtain ⟨e, c', h1, h2, h3, h4, h5⟩ := ih0 (c := c.advance) (by simpa using he)
        refine ⟨e, c', h1, by simpa using h2, by simpa using h3, by omega, ?_⟩
        simp only [Child.depth]; omega
      | true =>
        obtain ⟨e, c', h1, h2, h3, h4, h5⟩ := ih1 (c := c.advance) (by simpa using he)
        refine ⟨e, c', h1, by simpa using h2, by simpa using h3, by omega, ?_⟩
        simp only [Child.depth]; omega

/-- A walk follows the stream's bits: where `n` of them are left and lead to a node, the walk goes on from that node. -/
theorem walk_follow {s : State} {node node' : Child} {c : Cursor} {n : Nat} (hs : s.params.streamSize < 2 ^ 32)
    (he : c.endBound.toNat ≤ s.params.streamSize) (hn : n ≤ c.avail)
    (hf : node.follow (streamBits s c.position n) = some node') :
    ∃ c', walk s node c = walk s node' c' ∧ c'.valid = c.valid ∧ c'.endBound = c.endBound ∧
      c'.position = c.position + n := by
  induction n generalizing node c with
  | zero => simp only [streamBits_zero, Child.follow, Option.some.injEq] at hf; exact ⟨c, by rw [hf], rfl, rfl, rfl⟩
  | succ n ih =>
    rw [streamBits_succ] at hf
    cases node with
    | empty => simp [Child.follow] at hf
    | leaf sym => simp [Child.follow] at hf
    | inner c0 c1 =>
      have hav := c.avail_eq
      have hlt : c.byte.toNat < s.params.streamSize := by rw [c.byte_eq]; omega
      have hp := Cursor.position_advance (c := c) (by omega)
      have hav' := c.advance.avail_eq
      simp only [Cursor.advance_endBound] at hav'
      rw [Child.follow, ← hp] at hf
      rw [walk, if_neg (by omega), nextBit_of_lt hlt]
      obtain ⟨c', h1, h2, h3, h4⟩ := ih (c := c.advance) (by simpa using he) (by omega) hf
      refine ⟨c', ?_, by simpa using h2, by simpa using h3, by omega⟩
      rw [← h1]
      cases streamBit s c.position <;> rfl

end Sys2Proof.Machine
end

