-- ==== Sys2Proof/Laws/Dct.lean ====
section
/-! SUPPORT. The cosine basis of the 8-point transform is orthonormal, which the round trip of 44_idct.md R246 rests on,
and the exact inverse is linear and bounded. -/

namespace Sys2Proof.Machine

/-- The sum of cos(u m pi/8) for u = 0..7, where m is not a multiple of 16. -/
theorem sum_cos_multiple {m : ℤ} (h0 : m ≠ 0) (h1 : |m| < 16) :
    ∑ u : Fin 8, Real.cos (u.val * m * Real.pi / 8) = (1 - Real.cos (m * Real.pi)) / 2 := by
  have hs : Real.sin (m * Real.pi / 16) ≠ 0 := by
    have hpi := Real.pi_pos
    have hb := abs_lt.1 h1
    have hlo : (-16 : ℝ) < m := by exact_mod_cast hb.1
    have hhi : (m : ℝ) < 16 := by exact_mod_cast hb.2
    rcases lt_or_gt_of_ne h0 with h | h
    · have hm : (m : ℝ) < 0 := by exact_mod_cast h
      exact (Real.sin_neg_of_neg_of_neg_pi_lt (by nlinarith) (by nlinarith)).ne
    · have hm : (0 : ℝ) < m := by exact_mod_cast h
      exact (Real.sin_pos_of_pos_of_lt_pi (by positivity) (by nlinarith)).ne'
  have step : ∀ k : ℝ, 2 * Real.sin (m * Real.pi / 16) * Real.cos (k * m * Real.pi / 8) =
      Real.sin ((2 * k + 1) * (m * Real.pi / 16)) - Real.sin ((2 * k - 1) * (m * Real.pi / 16)) := by
    intro k
    rw [show (2 * k + 1) * (m * Real.pi / 16) = k * m * Real.pi / 8 + m * Real.pi / 16 by ring,
      show (2 * k - 1) * (m * Real.pi / 16) = k * m * Real.pi / 8 - m * Real.pi / 16 by ring,
      Real.sin_add, Real.sin_sub]
    ring
  have last : Real.sin (15 * (m * Real.pi / 16)) = -(Real.cos (m * Real.pi) * Real.sin (m * Real.pi / 16)) := by
    rw [show 15 * (m * Real.pi / 16) = m * Real.pi - m * Real.pi / 16 by ring, Real.sin_sub, Real.sin_int_mul_pi]
    ring
  have first : Real.sin ((2 * 0 - 1) * (m * Real.pi / 16)) = -Real.sin (m * Real.pi / 16) := by
    rw [show (2 * 0 - 1) * (m * Real.pi / 16) = -(m * Real.pi / 16) by ring, Real.sin_neg]
  apply mul_left_cancel₀ (mul_ne_zero two_ne_zero hs)
  rw [Finset.mul_sum, Fin.sum_univ_eight]
  have e0 := step 0; have e1 := step 1; have e2 := step 2; have e3 := step 3
  have e4 := step 4; have e5 := step 5; have e6 := step 6; have e7 := step 7
  norm_num at e0 e1 e2 e3 e4 e5 e6 e7 first ⊢
  linarith

/-- Two columns of the basis: 4 on the diagonal, 0 off it (44_idct.md R246). -/
theorem cosine_orthonormal (x a : Fin 8) :
    ∑ u : Fin 8, (if u = 0 then 1 / √2 else 1) * (if u = 0 then 1 / √2 else 1) *
      Real.cos ((2 * x.val + 1) * u.val * Real.pi / 16) * Real.cos ((2 * a.val + 1) * u.val * Real.pi / 16) =
      if x = a then (4 : ℝ) else 0 := by
  have hprod : ∀ u : Fin 8,
      Real.cos ((2 * x.val + 1) * u.val * Real.pi / 16) * Real.cos ((2 * a.val + 1) * u.val * Real.pi / 16) =
        (Real.cos (u.val * ((x.val - a.val : ℤ) : ℝ) * Real.pi / 8) +
          Real.cos (u.val * ((x.val + a.val + 1 : ℤ) : ℝ) * Real.pi / 8)) / 2 := by
    intro u
    push_cast
    rw [show (u.val * (x.val - a.val : ℝ) * Real.pi / 8) = (2 * x.val + 1) * u.val * Real.pi / 16 -
        (2 * a.val + 1) * u.val * Real.pi / 16 by ring,
      show (u.val * (x.val + a.val + 1 : ℝ) * Real.pi / 8) = (2 * x.val + 1) * u.val * Real.pi / 16 +
        (2 * a.val + 1) * u.val * Real.pi / 16 by ring, Real.cos_sub, Real.cos_add]
    ring
  have hweight : ∀ u : Fin 8, (if u = 0 then 1 / √2 else 1) * (if u = 0 then 1 / √2 else 1) *
      Real.cos ((2 * x.val + 1) * u.val * Real.pi / 16) * Real.cos ((2 * a.val + 1) * u.val * Real.pi / 16) =
        (Real.cos (u.val * ((x.val - a.val : ℤ) : ℝ) * Real.pi / 8) +
          Real.cos (u.val * ((x.val + a.val + 1 : ℤ) : ℝ) * Real.pi / 8)) / 2 - if u = 0 then 1 / 2 else 0 := by
    intro u
    rw [← hprod]
    split
    · subst_vars; simp [← mul_inv, Real.mul_self_sqrt]; norm_num
    · ring
  have hsum : ∑ u : Fin 8, Real.cos (u.val * ((x.val + a.val + 1 : ℤ) : ℝ) * Real.pi / 8) =
      (1 - Real.cos (((x.val + a.val + 1 : ℤ) : ℝ) * Real.pi)) / 2 :=
    sum_cos_multiple (by omega) (abs_lt.2 (by omega))
  have hflip : Real.cos (((x.val + a.val + 1 : ℤ) : ℝ) * Real.pi) =
      -Real.cos (((x.val - a.val : ℤ) : ℝ) * Real.pi) := by
    rw [show ((x.val + a.val + 1 : ℤ) : ℝ) * Real.pi =
      ((x.val - a.val : ℤ) : ℝ) * Real.pi + Real.pi + a.val * (2 * Real.pi) by push_cast; ring,
      Real.cos_add_nat_mul_two_pi, Real.cos_add_pi]
  simp only [hweight]
  rw [Finset.sum_sub_distrib, ← Finset.sum_div, Finset.sum_add_distrib, hsum, hflip]
  simp only [Finset.sum_ite_eq', Finset.mem_univ, if_true]
  split
  · subst_vars
    norm_num
  · rename_i h
    have hne : x.val ≠ a.val := fun h' => h (Fin.ext h')
    rw [sum_cos_multiple (by omega) (abs_lt.2 (by omega))]
    ring

/-- The exact transform is linear: that of a difference is the difference (44_idct.md R241). -/
theorem IsIdctExact.sub {f g : Fin 8 → Fin 8 → ℝ} {x y : Fin 8} {e d : ℝ} (hf : IsIdctExact f x y e)
    (hg : IsIdctExact g x y d) : IsIdctExact (fun u v => f u v - g u v) x y (e - d) := by
  unfold IsIdctExact at *
  rw [hf, hg, ← mul_sub, ← Finset.sum_sub_distrib]
  congr 1
  refine Finset.sum_congr rfl fun u _ => ?_
  rw [← Finset.sum_sub_distrib]
  refine Finset.sum_congr rfl fun v _ => ?_
  ring

/-- The exact transform of coefficients of magnitude at most M is at most 16 M (44_idct.md R241). -/
theorem IsIdctExact.abs_le {f : Fin 8 → Fin 8 → ℝ} {M : ℝ} (hf : ∀ u v, |f u v| ≤ M) {x y : Fin 8} {e : ℝ}
    (h : IsIdctExact f x y e) : |e| ≤ 16 * M := by
  have hC : ∀ u : Fin 8, |(if u = 0 then 1 / √2 else 1 : ℝ)| ≤ 1 := by
    intro u
    split
    · rw [abs_of_nonneg (by positivity), div_le_one (by positivity)]
      exact Real.one_le_sqrt.2 (by norm_num)
    · simp
  have hM : 0 ≤ M := (abs_nonneg _).trans (hf 0 0)
  have hterm : ∀ u v : Fin 8,
      |(if u = 0 then 1 / √2 else 1) * (if v = 0 then 1 / √2 else 1) * f u v *
        Real.cos ((2 * x.val + 1) * u.val * Real.pi / 16) * Real.cos ((2 * y.val + 1) * v.val * Real.pi / 16)|
        ≤ M := by
    intro u v
    simp only [abs_mul]
    calc _ ≤ (1 * 1 * M * 1 * 1 : ℝ) := by
          gcongr
          · exact hC u
          · exact hC v
          · exact hf u v
          · exact Real.abs_cos_le_one _
          · exact Real.abs_cos_le_one _
      _ = M := by ring
  rw [h, abs_mul]
  calc _ ≤ |(1 / 4 : ℝ)| * ∑ u : Fin 8, ∑ v : Fin 8, M := by
        gcongr
        refine (Finset.abs_sum_le_sum_abs _ _).trans (Finset.sum_le_sum fun u _ => ?_)
        exact (Finset.abs_sum_le_sum_abs _ _).trans (Finset.sum_le_sum fun v _ => hterm u v)
    _ = 16 * M := by norm_num; ring

end Sys2Proof.Machine
end

