-- ==== Sys2Proof/Laws/Filter.lean ====
section
/-! SUPPORT. The laws of the filter and of the IDCT store: what each shared operation can do, and that the places the
filter writes lie in the image. -/

namespace Sys2Proof.Machine

/-! Places. -/

/-- What an accepted configuration says (43_scanline.md R212). -/
theorem configOk_iff (p : Params) (w h bpp : Nat) :
    configOk p w h bpp = true ↔
      (bpp = 3 ∨ bpp = 4) ∧ 1 ≤ w ∧ 1 ≤ h ∧ bpp * w ≤ p.maxLine ∧ 4 * w * h ≤ p.outSize := by
  simp [configOk, and_assoc]

/-- The pixel of a column of a configured filter lies in the row. -/
theorem pixel_lt {bpp w c : Nat} (hc : c < bpp * w) : c / bpp < w :=
  Nat.div_lt_of_lt_mul hc

/-- A byte of a pixel of the image lies in the image (43_scanline.md R228). -/
theorem imageIndex_lt {w h r q ch : Nat} (hr : r < h) (hq : q < w) (hch : ch < 4) :
    r * (4 * w) + 4 * q + ch < 4 * w * h := by
  have h1 : (r + 1) * (4 * w) ≤ h * (4 * w) := Nat.mul_le_mul_right _ hr
  have h2 : 4 * w * h = h * (4 * w) := by ring
  have h3 : (r + 1) * (4 * w) = r * (4 * w) + 4 * w := by ring
  omega

/-- SF_LINE is at most LINE (10_state.md R50). -/
theorem FilterInv.line_le {p : Params} {f : FilterUnit} (hf : FilterInv p f) :
    f.line.toNat ≤ f.bpp.toNat * f.width.toNat := by
  rw [hf.line_eq]; exact Nat.mod_le ..

/-- A data column lies in the scanline (10_state.md R62). -/
theorem FilterInv.col_lt {p : Params} {f : FilterUnit} (hf : FilterInv p f) (hc : f.col ≠ tagNext) :
    f.col.toNat < f.bpp.toNat * f.width.toNat := by
  have h1 := hf.line_le
  rcases hf.col_ok.resolve_left hc with h | h
  · omega
  · obtain ⟨hb, hw, -⟩ := (configOk_iff ..).1 hf.config
    have h2 := hf.line_eq
    have h3 := f.col.isLt
    have h4 : 3 * 1 ≤ f.bpp.toNat * f.width.toNat := Nat.mul_le_mul (by omega) hw
    rw [h, BitVec.toNat_ofNat] at h2
    omega

theorem outIndex_lt {p : Params} {f : FilterUnit} (hf : FilterInv p f) {r c : Nat} (hr : r < f.height.toNat)
    (hc : c < f.bpp.toNat * f.width.toNat) : outIndex f r c < 4 * f.width.toNat * f.height.toNat := by
  obtain ⟨hb, -⟩ := (configOk_iff ..).1 hf.config
  refine imageIndex_lt hr (pixel_lt hc) ?_
  have := Nat.mod_lt c (show 0 < f.bpp.toNat by omega)
  omega

theorem alphaIndex_lt {f : FilterUnit} {r c : Nat} (hr : r < f.height.toNat)
    (hc : c < f.bpp.toNat * f.width.toNat) : alphaIndex f r c < 4 * f.width.toNat * f.height.toNat := by
  exact imageIndex_lt hr (pixel_lt hc) (by omega)

/-! Operations. -/

/-- Everything a neighbour read that answers can have done. -/
theorem neighbour_ok_iff (s : State) (inside : Bool) (b : ByteBank) (i : Nat) (v : Byte) :
    neighbour s inside b i = .ok v ↔
      (inside = true → i < byteBankSize s.params b) ∧ v = if inside then s.byteAt b i else 0#8 := by
  cases inside
  · simp only [neighbour, Bool.false_eq_true, if_false, false_imp_iff, true_and, Except.ok.injEq]
    exact eq_comm
  · simp [neighbour, readByte_ok_iff]

/-- The three neighbours, as reads of the line buffers (43_scanline.md R217). -/
def neighboursOf (s : State) (r c : Nat) : Neighbours where
  a := if s.filter.bpp.toNat ≤ c then s.byteAt .cur (c - s.filter.bpp.toNat) else 0#8
  b := if 1 ≤ r then s.byteAt .prev c else 0#8
  c := if 1 ≤ r ∧ s.filter.bpp.toNat ≤ c then s.byteAt .prev (c - s.filter.bpp.toNat) else 0#8

/-- A column inside the line buffers has neighbours. -/
theorem neighbours_of_lt {s : State} {c : Nat} (r : Nat) (h : c < s.params.maxLine) :
    neighbours s r c = .ok (neighboursOf s r c) := by
  have hr : ∀ b, (b = .cur ∨ b = .prev) → ∀ i ≤ c, ∀ inside : Bool,
      neighbour s inside b i = .ok (if inside then s.byteAt b i else 0#8) := by
    intro b hb i hi inside
    refine (neighbour_ok_iff ..).2 ⟨fun _ => ?_, rfl⟩
    rcases hb with rfl | rfl <;> simp only [byteBankSize] <;> omega
  simp only [neighbours, hr .cur (.inl rfl) _ (Nat.sub_le ..), hr .prev (.inr rfl) _ (Nat.sub_le ..),
    hr .prev (.inr rfl) _ (le_refl c), bind, Except.bind, pure, Except.pure, neighboursOf,
    decide_eq_true_eq, Bool.and_eq_true]

/-- The state after a pixel byte is stored. -/
def stored (s : State) (r c : Nat) (x : Byte) : State :=
  let s2 := (s.putByte .cur c x).putByte .out (outIndex s.filter r c) x
  if writesAlpha s.filter c then s2.putByte .out (alphaIndex s.filter r c) 255#8 else s2

/-- A store whose places exist answers the stored state. -/
theorem storePixelByte_of_lt {s : State} {r c : Nat} (x : Byte) (hc : c < s.params.maxLine)
    (ho : outIndex s.filter r c < s.params.outSize) (ha : alphaIndex s.filter r c < s.params.outSize) :
    storePixelByte s r c x = .ok (stored s r c x) := by
  unfold storePixelByte stored
  rw [writeByte_of_lt (by simpa [byteBankSize] using hc)]
  simp only [bind, Except.bind]
  rw [writeByte_of_lt (by simpa [byteBankSize] using ho)]
  simp only
  split
  · rw [writeByte_of_lt (by simpa [byteBankSize] using ha)]
  · rfl

@[simp] theorem stored_filter (s : State) (r c : Nat) (x : Byte) : (stored s r c x).filter = s.filter := by
  unfold stored; dsimp only; split <;> rfl

@[simp] theorem stored_params (s : State) (r c : Nat) (x : Byte) : (stored s r c x).params = s.params := by
  unfold stored; dsimp only; split <;> rfl

/-- Storing changes memory alone. -/
theorem stored_eq (s : State) (r c : Nat) (x : Byte) :
    stored s r c x = { s with mem := (stored s r c x).mem } := by
  unfold stored; dsimp only; split <;> rfl

/-- What a store leaves in each bank. -/
theorem byteAt_stored (s : State) (r c : Nat) (x : Byte) (b : ByteBank) (i : Nat) :
    (stored s r c x).byteAt b i =
      if b = .out ∧ writesAlpha s.filter c = true ∧ i = alphaIndex s.filter r c then 255#8
      else if b = .out ∧ i = outIndex s.filter r c then x
      else if b = .cur ∧ i = c then x
      else s.byteAt b i := by
  unfold stored; dsimp only
  by_cases hw : writesAlpha s.filter c = true
  · simp [hw, byteAt_putByte]
  · simp [hw, byteAt_putByte]

/-- The state after the line copy. -/
def lineCopied (s : State) (n : Nat) : State := { s with mem := s.mem.setBytes .prev (copiedPrev s n) }

/-- A copy that fits answers the copied state. -/
theorem copyLine_of_le {s : State} {n : Nat} (h : n ≤ s.params.maxLine) : copyLine s n = .ok (lineCopied s n) := by
  simp [copyLine, byteBankSize, h, lineCopied]

/-- PREV after a line copy. -/
theorem find?_copiedPrev (s : State) (n i : Nat) :
    Store.find? (copiedPrev s n) i = if i < n then some (s.byteAt .cur i) else Store.find? s.mem.prev i := by
  unfold copiedPrev
  split
  · rename_i h
    exact Store.find?_foldl_put_mem (List.range n) (fun i => i) (fun i => s.byteAt .cur i) s.mem.prev
      (List.nodup_range.imp fun h => h) (List.mem_range.2 h)
  · rename_i h
    refine Store.find?_foldl_put_other (List.range n) (fun i => i) (fun i => s.byteAt .cur i) s.mem.prev ?_
    intro j hj; have := List.mem_range.1 hj; omega

/-- What a line copy leaves in each bank. -/
theorem byteAt_lineCopied (s : State) (n : Nat) (b : ByteBank) (i : Nat) :
    (lineCopied s n).byteAt b i = if b = .prev ∧ i < n then s.byteAt .cur i else s.byteAt b i := by
  simp only [lineCopied, State.byteAt, Memory.bytes_setBytes]
  by_cases hb : b = .prev
  · subst hb
    simp only [if_pos, find?_copiedPrev, true_and]
    by_cases hi : i < n
    · simp [hi, State.byteAt]
    · simp [hi, Memory.bytes]
  · simp [hb]

theorem wf_lineCopied {s : State} (h : s.mem.wf = true) (n : Nat) : (lineCopied s n).mem.wf = true :=
  Memory.wf_setBytes h .prev
    (Store.wf_foldl_put (List.range n) (fun i => i) (fun i => s.byteAt .cur i) (((Memory.wf_iff _).1 h).1 .prev))

theorem inBounds_lineCopied {s : State} (h : s.mem.inBounds s.params = true) {n : Nat} (hn : n ≤ s.params.maxLine) :
    (lineCopied s n).mem.inBounds s.params = true :=
  Memory.inBounds_setBytes h .prev
    (Store.below_foldl_put (List.range n) (fun i => i) (fun i => s.byteAt .cur i)
      (((Memory.inBounds_iff _ _).1 h).1 .prev)
      (fun i hi => lt_of_lt_of_le (List.mem_range.1 hi) (by simpa [byteBankSize] using hn)))

/-- The state after a data byte's column, with the row at `r` and the column at `c`. -/
def advanced (s : State) (r c : Nat) : State :=
  if c + 1 = s.filter.line.toNat then
    (lineCopied s s.filter.line.toNat).withFilter { s.filter with col := tagNext, row := BitVec.ofNat 32 (r + 1) }
  else s.withFilter { s.filter with col := BitVec.ofNat 32 (c + 1) }

/-- An advance in a filter whose line fits the buffers answers the advanced state. -/
theorem advanceColumn_of_le {s : State} (r c : Nat) (h : s.filter.line.toNat ≤ s.params.maxLine) :
    advanceColumn s r c = .ok (advanced s r c) := by
  unfold advanceColumn advanced
  split
  · rw [copyLine_of_le h]; rfl
  · rfl

/-- A data byte in a filter whose places exist: reconstructed, stored, advanced (43_scanline.md R213). -/
theorem dataByte_of_inv {s : State} (hf : FilterInv s.params s.filter) (b : Byte)
    (hr : s.filter.row.toNat < s.filter.height.toNat) (hc : s.filter.col ≠ tagNext) :
    dataByte b s = .ok (advanced
      (stored s s.filter.row.toNat s.filter.col.toNat
        (recon s.filter.filterType b (neighboursOf s s.filter.row.toNat s.filter.col.toNat)))
      s.filter.row.toNat s.filter.col.toNat) := by
  have ⟨_, _, _, hl, ho⟩ := (configOk_iff ..).1 hf.config
  have hline := hf.line_le
  have hcol := hf.col_lt hc
  have h1 := outIndex_lt hf hr hcol
  have h2 := alphaIndex_lt hr hcol
  unfold dataByte
  dsimp only
  rw [neighbours_of_lt _ (by omega)]
  simp only [bind, Except.bind]
  rw [storePixelByte_of_lt _ (by omega) (by omega) (by omega)]
  simp only
  exact advanceColumn_of_le _ _ (by simp only [stored_filter, stored_params]; omega)

/-! The IDCT store. -/

theorem pairwise_finRange (n : Nat) : (List.finRange n).Pairwise fun i j => i.val ≠ j.val := by
  have h := List.nodup_finRange n
  rw [List.nodup_iff_pairwise_ne] at h
  exact List.Pairwise.imp (fun h h' => h (Fin.ext h')) h

/-- IDCT_OUT after a block is written. -/
theorem find?_putBlock (y : Vector Word 64) (st : Store Word) (k : Nat) :
    Store.find? (putBlock y st) k = if h : k < 64 then some (y.get ⟨k, h⟩) else Store.find? st k := by
  unfold putBlock
  split
  · rename_i h
    exact Store.find?_foldl_put_mem (List.finRange 64) (fun j => j.val) (fun j => y.get j) st
      (pairwise_finRange 64) (i := ⟨k, h⟩) (List.mem_finRange _)
  · rename_i h
    refine Store.find?_foldl_put_other (List.finRange 64) (fun j => j.val) (fun j => y.get j) st ?_
    intro j _ hj; exact h (hj ▸ j.isLt)

/-- What writing a block leaves in each binary32 bank. -/
theorem wordAt_writeBlock (y : Vector Word 64) (s : State) (b : WordBank) (k : Nat) :
    (writeBlock y s).wordAt b k = if h : b = .idctOut ∧ k < 64 then y.get ⟨k, h.2⟩ else s.wordAt b k := by
  simp only [writeBlock, State.wordAt, Memory.words_setWords]
  by_cases hb : b = .idctOut
  · subst hb
    simp only [if_pos, find?_putBlock, true_and]
    by_cases hk : k < 64
    · simp [hk]
    · simp [hk, Memory.words]
  · simp [hb]

/-- The IDCT of any arithmetic answers a state whose IDCT_OUT is that arithmetic of IDCT_IN (44_idct.md R240). -/
theorem idctWith_next (impl : Vector Word 64 → Vector Word 64) (s : State) :
    ∃ t, idctWith impl s = .next t ∧ ∀ j : Fin 64, t.wordAt .idctOut j.val = (impl (block s .idctIn)).get j := by
  refine ⟨succeed (writeBlock (impl (block s .idctIn)) s), by unfold idctWith; exact rfl, fun j => ?_⟩
  rw [wordAt_succeed, wordAt_writeBlock]
  simp

@[simp] theorem byteAt_writeBlock (y : Vector Word 64) (s : State) (b : ByteBank) (k : Nat) :
    (writeBlock y s).byteAt b k = s.byteAt b k := by
  simp [writeBlock, State.byteAt]

theorem wf_writeBlock {s : State} (h : s.mem.wf = true) (y : Vector Word 64) : (writeBlock y s).mem.wf = true :=
  Memory.wf_setWords h .idctOut
    (Store.wf_foldl_put (List.finRange 64) (fun j => j.val) (fun j => y.get j) (((Memory.wf_iff _).1 h).2 .idctOut))

theorem inBounds_writeBlock {s : State} (h : s.mem.inBounds s.params = true) (y : Vector Word 64) :
    (writeBlock y s).mem.inBounds s.params = true :=
  Memory.inBounds_setWords h .idctOut
    (Store.below_foldl_put (List.finRange 64) (fun j => j.val) (fun j => y.get j)
      (((Memory.inBounds_iff _ _).1 h).2 .idctOut) (fun i _ => i.isLt))

end Sys2Proof.Machine
end

