-- ==== Sys2Proof/Laws/Huffman.lean ====
section
/-! SUPPORT. The laws of the tree build: how many nodes a level has, and how deep they are. -/

namespace Sys2Proof.Machine

@[simp] theorem splitByLength_length {α : Type} (ns : List Nat) (syms : List α) :
    (splitByLength ns syms).length = ns.length := by
  induction ns generalizing syms with
  | nil => rfl
  | cons n ns ih => simp [splitByLength, ih]

/-- Cut by length, the symbols fill each length's count where there are enough of them. -/
theorem splitByLength_map_length {α : Type} (ns : List Nat) (syms : List α) (h : ns.sum ≤ syms.length) :
    (splitByLength ns syms).map List.length = ns := by
  induction ns generalizing syms with
  | nil => rfl
  | cons n ns ih =>
    simp only [List.sum_cons] at h
    simp only [splitByLength, List.map_cons, List.length_take]
    rw [ih _ (by rw [List.length_drop]; omega)]
    congr 1; omega

theorem pairUp_length (l : List Child) : (pairUp l).length = (l.length + 1) / 2 := by
  induction l using pairUp.induct with
  | case1 => rfl
  | case2 a => simp [pairUp]
  | case3 a b rest ih => simp only [pairUp, List.length_cons, ih]; omega

/-- A parent is at most one deeper than its deepest child. -/
theorem pairUp_depth {l : List Child} {d : Nat} (h : ∀ a ∈ l, a.depth ≤ d) : ∀ a ∈ pairUp l, a.depth ≤ d + 1 := by
  induction l using pairUp.induct with
  | case1 => simp [pairUp]
  | case2 a => intro x hx; simp only [pairUp, List.mem_singleton] at hx; subst hx; have := h a (by simp)
               simp only [Child.depth]; omega
  | case3 a b rest ih =>
    intro x hx
    simp only [pairUp, List.mem_cons] at hx
    rcases hx with rfl | hx
    · have h1 := h a (by simp)
      have h2 := h b (by simp)
      simp only [Child.depth]; omega
    · exact ih (fun y hy => h y (by simp [hy])) x hx

/-- A node at depth 1 is less deep than there are lengths (42_huffman.md R181). -/
theorem nodesAtDepthOne_depth (groups : List (List Byte)) :
    ∀ a ∈ nodesAtDepthOne groups, a.depth + 1 ≤ groups.length := by
  induction groups with
  | nil => simp [nodesAtDepthOne]
  | cons g groups ih =>
    intro a ha
    simp only [nodesAtDepthOne, List.mem_append, List.mem_map] at ha
    rcases ha with ⟨sym, -, rfl⟩ | ha
    · simp [Child.depth]
    · rcases groups with _ | ⟨g', groups⟩
      · simp [nodesAtDepthOne, pairUp] at ha
      · have := pairUp_depth (d := groups.length) (fun b hb => by have := ih b hb; simp at this; omega) a ha
        simp; omega

/-- Everything a build that succeeds can have made: one or two nodes below the root (42_huffman.md R174). -/
theorem buildTree_some {lengths : List Nat} {syms : List Byte} {r : Root} (h : buildTree lengths syms = some r) :
    (nodesAtDepthOne (splitByLength lengths syms) = [r.c0] ∧ r.c1 = .empty) ∨
      nodesAtDepthOne (splitByLength lengths syms) = [r.c0, r.c1] := by
  unfold buildTree at h
  split at h
  · rename_i a ha; cases h; exact .inl ⟨ha, rfl⟩
  · rename_i a b hab; cases h; exact .inr hab
  · cases h

/-- A built table is no deeper than the longest code (42_huffman.md R181). -/
theorem buildTree_depth {lengths : List Nat} {syms : List Byte} {r : Root} (h : buildTree lengths syms = some r) :
    r.node.depth ≤ lengths.length := by
  have hd := nodesAtDepthOne_depth (splitByLength lengths syms)
  rw [splitByLength_length] at hd
  rcases buildTree_some h with ⟨hn, hc⟩ | hn
  · have := hd r.c0 (by simp [hn])
    simp only [Root.node, Child.depth, hc]; omega
  · have h0 := hd r.c0 (by simp [hn])
    have h1 := hd r.c1 (by simp [hn])
    simp only [Root.node, Child.depth]; omega

/-- The Kraft sum of a histogram in units of its longest length. -/
def kraftOf : List Nat → Nat
  | [] => 0
  | n :: ns => n * 2 ^ ns.length + kraftOf ns

/-- A level has at most `m` nodes exactly when the codes from it down fit under `m` nodes (42_huffman.md R175). -/
theorem nodesAtDepthOne_length_le_iff (groups : List (List Byte)) (m : Nat) :
    2 * (nodesAtDepthOne groups).length ≤ 2 * m ↔ 2 * kraftOf (groups.map List.length) ≤ m * 2 ^ groups.length := by
  induction groups generalizing m with
  | nil => simp [nodesAtDepthOne, kraftOf]
  | cons g groups ih =>
    simp only [nodesAtDepthOne, List.length_append, List.length_map, pairUp_length, List.map_cons, kraftOf,
      List.length_cons, pow_succ]
    by_cases hg : g.length ≤ m
    · obtain ⟨k, rfl⟩ := Nat.exists_eq_add_of_le hg
      have := ih (2 * k)
      constructor
      · intro h
        have := this.1 (by omega)
        nlinarith
      · intro h
        have := this.2 (by nlinarith)
        omega
    · have hp : 0 < 2 ^ groups.length := by positivity
      constructor
      · intro h; omega
      · intro h
        exfalso
        have : (m + 1) * 2 ^ groups.length ≤ g.length * 2 ^ groups.length := Nat.mul_le_mul_right _ (by omega)
        nlinarith

/-- There is no node exactly when there is no symbol. -/
theorem nodesAtDepthOne_eq_nil_iff (groups : List (List Byte)) :
    nodesAtDepthOne groups = [] ↔ ∀ g ∈ groups, g = [] := by
  induction groups with
  | nil => simp [nodesAtDepthOne]
  | cons g groups ih =>
    have hp : ∀ l : List Child, pairUp l = [] ↔ l = [] := by
      intro l
      constructor
      · intro h; have := pairUp_length l; rw [h] at this; simp at this
        rcases l with _ | ⟨a, l⟩
        · rfl
        · simp at this; omega
      · rintro rfl; rfl
    simp [nodesAtDepthOne, hp, ih]

end Sys2Proof.Machine
end

