-- ==== Sys2Proof/Laws/Invariant.lean ====
section
/-! SUPPORT. From a state that meets the invariant every command answers a next state, and the invariant holds there. One
lemma per command. -/

namespace Sys2Proof.Machine

/-- What `exec` answers keeps the invariant. -/
def KeepsInv (r : Result) : Prop := ∃ t, r = .next t ∧ StateInv t

theorem StateInv.stream_lt {s : State} (h : StateInv s) : s.params.streamSize < 2 ^ 32 := by
  have := h.params.2.1; omega

/-- The invariant, where only STATUS and RESULT may differ. -/
theorem StateInv.of_status {s t : State} (h : StateInv s) (ht : t = { s with status := t.status, result := t.result })
    (hs : StatusInv t) : StateInv t where
  params := by rw [ht]; exact h.params
  wf := by rw [ht]; exact h.wf
  bounds := by rw [ht]; exact h.bounds
  cursor := by rw [ht]; exact h.cursor
  filter := by rw [ht]; exact h.filter
  lines := by rw [ht]; exact fun ha => ⟨(h.lines ha).cur, (h.lines ha).prev⟩
  status := hs
  depth := by rw [ht]; exact h.depth

theorem StateInv.succeed {s : State} (h : StateInv s) : StateInv (succeed s) :=
  h.of_status rfl (statusInv_succeed h.status rfl)

theorem StateInv.fail {s : State} (h : StateInv s) (c : ErrCode) : StateInv (fail c s) :=
  h.of_status rfl (statusInv_fail h.status c rfl rfl)

theorem StateInv.succeedWith {s : State} (h : StateInv s) (v : Word) : StateInv (succeedWith v s) :=
  h.of_status rfl (statusInv_succeed h.status rfl)

/-- Another cursor that lies in the stream. -/
theorem StateInv.withCursor {s : State} (h : StateInv s) {c : Cursor} (hc : CursorInv s.params c) : StateInv (s.withCursor c) where
  params := h.params
  wf := h.wf
  bounds := h.bounds
  cursor := hc
  filter := h.filter
  lines := fun ha => ⟨(h.lines ha).cur, (h.lines ha).prev⟩
  status := statusInv_same h.status rfl rfl
  depth := h.depth

theorem StateInv.invalidateCursor {s : State} (h : StateInv s) : StateInv s.invalidateCursor :=
  h.withCursor ⟨h.cursor.byte_le, h.cursor.end_le, h.cursor.inside⟩

theorem StateInv.failCursor {s : State} (h : StateInv s) (c : ErrCode) : StateInv (failCursor c s) := h.invalidateCursor.fail c

/-- Another table of at most 16 levels in a slot, or none. -/
theorem StateInv.withTree {s : State} (h : StateInv s) (slot : Fin 8) {r : Option Root} (hr : ∀ x, r = some x → x.node.depth ≤ 16) :
    StateInv (s.withTree slot r) where
  params := h.params
  wf := h.wf
  bounds := h.bounds
  cursor := h.cursor
  filter := h.filter
  lines := fun ha => ⟨(h.lines ha).cur, (h.lines ha).prev⟩
  status := statusInv_same h.status rfl rfl
  depth := by
    intro k x hx
    simp only [State.tree, withTree_trees, Vector.getElem_set] at hx
    split at hx
    · exact hr x hx
    · exact h.depth k x hx

/-- Another filter unit that meets the filter's clauses. -/
theorem StateInv.withFilter {s : State} (h : StateInv s) {f : FilterUnit} (hf : f.active = true → FilterInv s.params f)
    (hl : f.active = true → LinesInv (s.withFilter f)) : StateInv (s.withFilter f) where
  params := h.params
  wf := h.wf
  bounds := h.bounds
  cursor := h.cursor
  filter := hf
  lines := hl
  status := statusInv_same h.status rfl rfl
  depth := h.depth

/-- Another memory that keeps the line buffers. -/
theorem StateInv.withMem {s : State} (h : StateInv s) {m : Memory} (hw : m.wf = true) (hb : m.inBounds s.params = true)
    (hc : m.cur = s.mem.cur) (hp : m.prev = s.mem.prev) : StateInv { s with mem := m } where
  params := h.params
  wf := hw
  bounds := hb
  cursor := h.cursor
  filter := h.filter
  lines := fun ha => ⟨fun hn i hi => by simpa [hc] using (h.lines ha).cur hn i hi,
    fun hr i hi => by simpa [hp] using (h.lines ha).prev hr i hi⟩
  status := statusInv_same h.status rfl rfl
  depth := h.depth

/-! Commands. -/

theorem inv_execNop {s : State} (h : StateInv s) : KeepsInv (execNop s) := ⟨_, rfl, h.succeed⟩

theorem inv_execSreset {s : State} (h : StateInv s) : KeepsInv (execSreset s) := by
  refine ⟨_, rfl, ⟨h.params, h.wf, h.bounds, ⟨by simp, h.cursor.end_le, by simp⟩, by simp, by simp,
    ⟨?_, ?_, ?_, ?_⟩, ?_⟩⟩
  · intro i h1 h2
    simp only [succeed_status, getLsbD_statusSucceed]
    interval_cases i <;> decide
  · simp
  · simp
  · simp
  · intro slot r hr
    simp [State.tree] at hr

theorem inv_execBcLoad {s : State} (h : StateInv s) : KeepsInv (execBcLoad s) := by
  unfold execBcLoad
  split
  · exact ⟨_, rfl, h.fail _⟩
  · rename_i hle
    have hc : CursorInv s.params { s.cursor with byte := s.arg, bit := 0#3, valid := true } := by
      refine ⟨?_, h.cursor.end_le, by simp⟩
      rw [BitVec.lt_def] at hle
      have := h.cursor.end_le
      simp only; omega
    exact ⟨_, rfl, (h.withCursor hc).succeed⟩

/-- A cursor that moved up to `n` of the bits left still lies in the stream. -/
theorem cursorInv_of_moved {p : Params} {c c' : Cursor} (h : CursorInv p c) {n : Nat} (hn : n ≤ c.avail)
    (hp : c'.position = c.position + n) (he : c'.endBound = c.endBound) : CursorInv p c' := by
  have h1 := h.byte_le
  have h2 := h.end_le
  have h3 := c.avail_eq
  have h4 := c'.byte_eq
  have h5 := c'.bit_eq
  have h6 := c.byte_eq
  have h7 := c.bit_eq
  refine ⟨?_, he ▸ h2, ?_⟩
  · by_cases hz : n = 0
    · omega
    · omega
  · intro hb
    by_cases hz : n = 0
    · subst hz
      have hbb : c.bit ≠ 0#3 := by
        intro h0; apply hb; apply BitVec.eq_of_toNat_eq
        rw [h5, hp, Nat.add_zero, ← h7, h0]
      have := h.inside hbb
      omega
    · have : c'.bit.toNat ≠ 0 := fun h0 => hb (BitVec.eq_of_toNat_eq (by simpa using h0))
      omega

theorem inv_readCommand {s : State} (h : StateInv s) (n : Nat) (post : Nat → Word) : KeepsInv (readCommand n post s) := by
  unfold readCommand
  split
  · exact ⟨_, rfl, h.fail _⟩
  · split
    · exact ⟨_, rfl, h.fail _⟩
    · split
      · exact ⟨_, rfl, h.failCursor _⟩
      · rename_i ha
        have hav := s.cursor.avail_eq
        have hend := h.cursor.end_le
        have hbyte := h.cursor.byte_le
        have hpos : s.cursor.position + n ≤ 8 * s.params.streamSize ∨ n = 0 := by omega
        rcases hpos with hpos | rfl
        · obtain ⟨c', h1, h2, -, h4⟩ := readBits_of_le (v := 0) h.stream_lt hpos
          rw [h1]
          exact ⟨_, rfl, (h.withCursor (cursorInv_of_moved h.cursor (by omega) h2 h4)).succeedWith _⟩
        · exact ⟨_, rfl, (h.withCursor h.cursor).succeedWith _⟩

theorem inv_execBcAlign {s : State} (h : StateInv s) : KeepsInv (execBcAlign s) := by
  unfold execBcAlign
  split
  · exact ⟨_, rfl, h.fail _⟩
  · refine ⟨_, rfl, (h.withCursor ?_).succeed⟩
    unfold Cursor.align
    split
    · exact h.cursor
    · rename_i hb
      have hlt := h.cursor.inside hb
      have hs := h.params.2.1
      refine ⟨?_, h.cursor.end_le, by simp⟩
      simp [BitVec.toNat_add]
      omega

theorem inv_execBcExt {s : State} (h : StateInv s) (n : Nat) : KeepsInv (execBcExt n s) := by
  unfold execBcExt
  split
  · exact ⟨_, rfl, h.fail _⟩
  · exact ⟨_, rfl, h.succeedWith _⟩

theorem inv_execHtBuild {s : State} (h : StateInv s) (cls : TableClass) (dst : Fin 4) : KeepsInv (execHtBuild cls dst s) := by
  refine ⟨_, rfl, ?_⟩
  unfold buildSlot
  have hn := h.withTree (slotOf cls dst) (r := none) (by simp)
  split
  · exact hn.fail _
  · split
    · exact hn.fail _
    · split
      · exact hn.fail _
      · rename_i r hr
        refine (h.withTree _ ?_).succeed
        rintro x hx
        cases hx
        have := buildTree_depth hr
        simpa [histogram] using this

theorem inv_execHtDecode {s : State} (h : StateInv s) (cls : TableClass) (dst : Fin 4) :
    KeepsInv (execHtDecode cls dst s) := by
  unfold execHtDecode decodeSlot
  split
  · exact ⟨_, rfl, h.fail _⟩
  · rename_i r hr
    split
    · exact ⟨_, rfl, h.fail _⟩
    · obtain ⟨e, c', h1, -, h3, h4, h5⟩ := walk_of_le (node := .inner r.c0 r.c1) h.stream_lt h.cursor.end_le
      have hc : CursorInv s.params c' :=
        cursorInv_of_moved h.cursor (n := c'.position - s.cursor.position) (by omega) (by omega) h3
      rw [h1]
      refine ⟨_, rfl, ?_⟩
      cases e with
      | symbol sym => exact (h.withCursor hc).succeedWith _
      | underrun => exact (h.withCursor hc).failCursor _
      | invalidCode => exact (h.withCursor hc).failCursor _

theorem inv_writeBlock {s : State} (h : StateInv s) (y : Vector Word 64) : StateInv (writeBlock y s) := by
  have hw := wf_writeBlock h.wf y
  have hb := inBounds_writeBlock h.bounds y
  unfold writeBlock at *
  generalize putBlock y s.mem.idctOut = st at *
  exact h.withMem hw hb rfl rfl

theorem inv_execIdct {s : State} (h : StateInv s) : KeepsInv (execIdct s) := ⟨_, rfl, (inv_writeBlock h _).succeed⟩

theorem inv_execSfInit {s : State} (h : StateInv s) : KeepsInv (execSfInit s) := by
  unfold execSfInit
  split
  · rename_i hok
    exact ⟨_, rfl, (h.withFilter
      (fun _ => ⟨hok, BitVec.toNat_ofNat .., by simp, .inl rfl, fun _ => rfl, fun _ => rfl⟩)
      (fun _ => ⟨fun hn => absurd rfl hn, fun hr => by simp at hr⟩)).succeed⟩
  · exact ⟨_, rfl, (h.withFilter (by simp) (by simp)).fail _⟩

/-- A tag byte starts a row's data. -/
theorem inv_tagByte {s : State} (h : StateInv s) (b : Byte) (ha : s.filter.active = true)
    (hr : s.filter.row ≠ s.filter.height) : StateInv (tagByte b s) := by
  have hf := h.filter ha
  have hl := h.lines ha
  have key : ∀ t : FilterType, StateInv (s.withFilter { s.filter with tag := b, col := 0#32, filterType := t }) := by
    intro t
    refine h.withFilter
      (fun _ => ⟨hf.config, hf.line_eq, hf.row_le, .inr ?_, hf.zeroLine, fun he => absurd he hr⟩)
      (fun _ => ⟨fun _ i hi => by simp at hi, hl.prev⟩)
    by_cases h0 : s.filter.line = 0#32
    · exact .inr h0
    · refine .inl (Nat.pos_of_ne_zero fun h' => h0 (BitVec.eq_of_toNat_eq (by simpa using h')))
  unfold tagByte
  split
  · exact (key _).succeed
  · exact (key _).fail _

/-- Storing a pixel byte of an image. -/
theorem inv_stored {s : State} (h : StateInv s) (ha : s.filter.active = true) {r c : Nat} (x : Byte)
    (hr : r < s.filter.height.toNat) (hc : c < s.filter.bpp.toNat * s.filter.width.toNat) :
    StateInv (stored s r c x) := by
  have hf := h.filter ha
  have ⟨_, _, _, hl, ho⟩ := (configOk_iff ..).1 hf.config
  have h1 := outIndex_lt hf hr hc
  have h2 := alphaIndex_lt hr hc
  have hcur : StateInv (s.putByte .cur c x) := by
    refine ⟨h.params, wf_putByte h.wf _ _ _, inBounds_putByte h.bounds (by simp only [byteBankSize]; omega) _,
      h.cursor, h.filter, fun _ => ⟨fun hn i hi => ?_, (h.lines ha).prev⟩, statusInv_same h.status rfl rfl, h.depth⟩
    simp only [putByte_mem, Memory.setBytes, Memory.bytes, Store.find?_put]
    split
    · rfl
    · exact (h.lines ha).cur hn i hi
  have hout : ∀ {s' : State} {i : Nat} (v : Byte), StateInv s' → i < s'.params.outSize → StateInv (s'.putByte .out i v) := by
    intro s' i v h' hi
    exact h'.withMem (wf_putByte h'.wf _ _ _) (inBounds_putByte h'.bounds (by simpa [byteBankSize] using hi) _) rfl rfl
  unfold stored
  dsimp only
  split
  · exact hout _ (hout _ hcur (by simp; omega)) (by simp; omega)
  · exact hout _ hcur (by simp; omega)

/-- Advancing past a byte that has just been stored. -/
theorem inv_advanced {s : State} (h : StateInv s) (ha : s.filter.active = true) {r c : Nat}
    (hr : r = s.filter.row.toNat) (hc : c = s.filter.col.toNat) (hrow : r < s.filter.height.toNat)
    (hcol : s.filter.col ≠ tagNext) (hw : (Store.find? s.mem.cur c).isSome) : StateInv (advanced s r c) := by
  have hf := h.filter ha
  have ⟨_, _, _, hl, ho⟩ := (configOk_iff ..).1 hf.config
  have hline := hf.line_le
  have hlt := hf.col_ok.resolve_left hcol
  have hmax : c + 1 < 2 ^ 32 := by
    have h1 := s.filter.col.isLt
    have h2 : s.filter.col.toNat ≠ 2 ^ 32 - 1 := fun h' => hcol (BitVec.eq_of_toNat_eq (by rw [h']; rfl))
    omega
  have hH := s.filter.height.isLt
  unfold advanced
  split
  · have hI : StateInv (lineCopied s s.filter.line.toNat) := by
      refine ⟨h.params, wf_lineCopied h.wf _, inBounds_lineCopied h.bounds (by omega), h.cursor, h.filter,
        fun _ => ⟨(h.lines ha).cur, fun _ i hi => ?_⟩, statusInv_same h.status rfl rfl, h.depth⟩
      have hi' : i < s.filter.line.toNat := hi
      simp only [lineCopied, Memory.setBytes, find?_copiedPrev, if_pos hi', Option.isSome_some]
    refine hI.withFilter (fun _ => ⟨hf.config, hf.line_eq, ?_, .inl rfl, fun h0 => ?_, fun _ => rfl⟩)
      (fun _ => ⟨fun hn => absurd rfl hn, fun _ i hi => ?_⟩)
    · simp only [BitVec.toNat_ofNat]
      rw [Nat.mod_eq_of_lt (by omega)]; omega
    · have : s.filter.line.toNat = 0 := by simpa using congrArg BitVec.toNat h0
      omega
    · have hi' : i < s.filter.line.toNat := hi
      simp only [withFilter_mem, lineCopied, Memory.setBytes, find?_copiedPrev, if_pos hi', Option.isSome_some]
  · have hc32 : (BitVec.ofNat 32 (c + 1)).toNat = c + 1 := by
      simp only [BitVec.toNat_ofNat]; exact Nat.mod_eq_of_lt hmax
    refine h.withFilter (fun _ => ⟨hf.config, hf.line_eq, hf.row_le, .inr ?_, hf.zeroLine, fun he => ?_⟩)
      (fun _ => ⟨fun _ i hi => ?_, (h.lines ha).prev⟩)
    · simp only [hc32]
      exact hlt.imp (fun h' => by omega) id
    · exfalso
      have : s.filter.row.toNat = s.filter.height.toNat := congrArg BitVec.toNat he
      omega
    · simp only [withFilter_filter, hc32] at hi
      simp only [withFilter_mem]
      by_cases hic : i = c
      · rw [hic]; exact hw
      · exact (h.lines ha).cur hcol i (by omega)

/-- Where a data byte arrives, the filter's row is not complete. -/
theorem row_lt_of_ne {p : Params} {f : FilterUnit} (hf : FilterInv p f) (hr : f.row ≠ f.height) :
    f.row.toNat < f.height.toNat := by
  have := hf.row_le
  have hne : f.row.toNat ≠ f.height.toNat := fun h' => hr (BitVec.eq_of_toNat_eq h')
  omega

/-- The state a data byte leaves, in a filter that meets the invariant (43_scanline.md R213). -/
def pushed (b : Byte) (s : State) : State :=
  succeed (advanced
    (stored s s.filter.row.toNat s.filter.col.toNat
      (recon s.filter.filterType b (neighboursOf s s.filter.row.toNat s.filter.col.toNat)))
    s.filter.row.toNat s.filter.col.toNat)

/-- SF.PUSH of a data byte. -/
theorem execSfPush_data {s : State} (h : StateInv s) (b : Byte) (ha : s.filter.active = true)
    (hr : s.filter.row ≠ s.filter.height) (hc : s.filter.col ≠ tagNext) :
    execSfPush b s = .next (pushed b s) := by
  have hf := h.filter ha
  have ⟨hb, _⟩ := (configOk_iff ..).1 hf.config
  have hbpp : s.filter.bpp ≠ 0#32 := by intro h0; rw [h0] at hb; simp at hb
  unfold execSfPush
  rw [if_neg (by simp [ha]), if_neg hr, if_neg hc, if_neg hbpp,
    dataByte_of_inv hf b (row_lt_of_ne hf hr) hc]
  rfl

theorem inv_execSfPush {s : State} (h : StateInv s) (b : Byte) : KeepsInv (execSfPush b s) := by
  by_cases ha : s.filter.active = true
  · by_cases hr : s.filter.row = s.filter.height
    · exact ⟨_, by simp [execSfPush, ha, hr], h.fail .sfOverrun⟩
    · by_cases hc : s.filter.col = tagNext
      · exact ⟨_, by simp [execSfPush, ha, hr, hc], inv_tagByte h b ha hr⟩
      · have hf := h.filter ha
        have hrow := row_lt_of_ne hf hr
        refine ⟨_, execSfPush_data h b ha hr hc, StateInv.succeed ?_⟩
        refine inv_advanced (inv_stored h ha _ hrow (hf.col_lt hc)) (by simpa using ha) (by simp) (by simp)
          (by simpa using hrow) (by simpa using hc) ?_
        unfold stored
        dsimp only
        split <;> simp [Memory.setBytes, Memory.bytes]
  · exact ⟨_, by simp [execSfPush, ha], h.fail .sfNotReady⟩

/-- Every command answers a next state and keeps the invariant. -/
theorem inv_exec {s : State} (h : StateInv s) (i : Instr) : KeepsInv (exec i s) := by
  cases i with
  | nop => exact inv_execNop h
  | sreset => exact inv_execSreset h
  | bcLoad => exact inv_execBcLoad h
  | bcRead n => exact inv_readCommand h n _
  | bcReadX n => exact inv_readCommand h n _
  | bcAlign => exact inv_execBcAlign h
  | bcExt n => exact inv_execBcExt h n
  | htBuild cls dst => exact inv_execHtBuild h cls dst
  | htDecode cls dst => exact inv_execHtDecode h cls dst
  | idct => exact inv_execIdct h
  | sfInit => exact inv_execSfInit h
  | sfPush b => exact inv_execSfPush h b

end Sys2Proof.Machine
end

