-- ==== Sys2Proof/Laws/Exec.lean ====
section
/-! SUPPORT. What each command can do, said once: if it answers `next t`, then `t` is one of these. -/

namespace Sys2Proof.Machine

theorem execNop_cases {s t : State} (h : execNop s = .next t) : t = succeed s := by cases h; rfl

theorem execBcLoad_cases {s t : State} (h : execBcLoad s = .next t) :
    (s.cursor.endBound < s.arg ∧ t = fail .badArg s) ∨
      (¬ s.cursor.endBound < s.arg ∧
        t = succeed (s.withCursor { s.cursor with byte := s.arg, bit := 0#3, valid := true })) := by
  unfold execBcLoad at h
  split at h
  · cases h; exact .inl ⟨‹_›, rfl⟩
  · cases h; exact .inr ⟨‹_›, rfl⟩

theorem readCommand_cases {n : Nat} {post : Nat → Word} {s t : State} (h : readCommand n post s = .next t) :
    (16 < n ∧ t = fail .badArg s) ∨
    (n ≤ 16 ∧ s.cursor.valid = false ∧ t = fail .cursorInvalid s) ∨
    (n ≤ 16 ∧ s.cursor.valid = true ∧ s.cursor.avail < n ∧ t = failCursor .underrun s) ∨
    (n ≤ 16 ∧ s.cursor.valid = true ∧ n ≤ s.cursor.avail ∧
      ∃ v c, readBits s n 0 s.cursor = .ok (v, c) ∧ t = succeedWith (post v) (s.withCursor c)) := by
  unfold readCommand maxBits at h
  split at h
  · cases h; exact .inl ⟨‹_›, rfl⟩
  · split at h
    · cases h; exact .inr (.inl ⟨by omega, ‹_›, rfl⟩)
    · rename_i hv
      have hv : s.cursor.valid = true := by simpa using hv
      split at h
      · cases h; exact .inr (.inr (.inl ⟨by omega, hv, ‹_›, rfl⟩))
      · split at h
        · rename_i v c hr
          cases h; exact .inr (.inr (.inr ⟨by omega, hv, by omega, v, c, hr, rfl⟩))
        · cases h

theorem execBcAlign_cases {s t : State} (h : execBcAlign s = .next t) :
    (s.cursor.valid = false ∧ t = fail .cursorInvalid s) ∨
      (s.cursor.valid = true ∧ t = succeed (s.withCursor s.cursor.align)) := by
  unfold execBcAlign at h
  split at h
  · cases h; exact .inl ⟨‹_›, rfl⟩
  · rename_i hv; cases h; exact .inr ⟨by simpa using hv, rfl⟩

theorem execBcExt_cases {n : Nat} {s t : State} (h : execBcExt n s = .next t) :
    (16 < n ∧ t = fail .badArg s) ∨
      (n ≤ 16 ∧ t = succeedWith (signedWord (extend (lowBits s.arg n) n)) s) := by
  unfold execBcExt maxBits at h
  split at h
  · cases h; exact .inl ⟨‹_›, rfl⟩
  · cases h; exact .inr ⟨by omega, rfl⟩

theorem buildSlot_cases (slot : Fin 8) (s : State) :
    (256 < symbolCount s ∧ buildSlot slot s = fail .buildTooMany (s.withTree slot none)) ∨
    (symbolCount s = 0 ∧ buildSlot slot s = fail .buildEmpty (s.withTree slot none)) ∨
    (1 ≤ symbolCount s ∧ symbolCount s ≤ 256 ∧ buildTree (histogram s) (symbolList s) = none ∧
      buildSlot slot s = fail .buildOversub (s.withTree slot none)) ∨
    (1 ≤ symbolCount s ∧ symbolCount s ≤ 256 ∧ ∃ r, buildTree (histogram s) (symbolList s) = some r ∧
      buildSlot slot s = succeed (s.withTree slot (some r))) := by
  unfold buildSlot maxSymbols
  split
  · exact .inl ⟨‹_›, rfl⟩
  · split
    · exact .inr (.inl ⟨‹_›, rfl⟩)
    · split
      · exact .inr (.inr (.inl ⟨by omega, by omega, ‹_›, rfl⟩))
      · exact .inr (.inr (.inr ⟨by omega, by omega, _, ‹_›, rfl⟩))

theorem execHtBuild_cases {cls : TableClass} {dst : Fin 4} {s t : State} (h : execHtBuild cls dst s = .next t) :
    t = buildSlot (slotOf cls dst) s :=
  (Host.Outcome.next.inj h).symm

theorem decodeSlot_cases {slot : Fin 8} {s t : State} (h : decodeSlot slot s = .next t) :
    (s.tree slot = none ∧ t = fail .tableInvalid s) ∨
    (∃ r, s.tree slot = some r ∧ s.cursor.valid = false ∧ t = fail .cursorInvalid s) ∨
    (∃ r e c, s.tree slot = some r ∧ s.cursor.valid = true ∧ walk s r.node s.cursor = .ok (e, c) ∧
      t = endWalk s (e, c)) := by
  unfold decodeSlot at h
  split at h
  · cases h; exact .inl ⟨‹_›, rfl⟩
  · rename_i r hr
    split at h
    · cases h; exact .inr (.inl ⟨r, hr, ‹_›, rfl⟩)
    · rename_i hv
      split at h
      · rename_i e he
        cases h; exact .inr (.inr ⟨r, e.1, e.2, hr, by simpa using hv, he, rfl⟩)
      · cases h

/-- The three ways a walk's end leaves the state: a symbol returned, or one of two errors with the cursor invalid. -/
theorem endWalk_cases (s : State) (e : WalkEnd) (c : Cursor) :
    (∃ sym, e = .symbol sym ∧ endWalk s (e, c) = succeedWith (sym.setWidth 32) (s.withCursor c)) ∨
    (e = .underrun ∧ endWalk s (e, c) = failCursor .underrun (s.withCursor c)) ∨
    (e = .invalidCode ∧ endWalk s (e, c) = failCursor .invalidCode (s.withCursor c)) := by
  cases e with
  | symbol sym => exact .inl ⟨sym, rfl, rfl⟩
  | underrun => exact .inr (.inl ⟨rfl, rfl⟩)
  | invalidCode => exact .inr (.inr ⟨rfl, rfl⟩)

/-- Writing a block changes memory alone, and of it IDCT_OUT alone. -/
theorem writeBlock_eq (y : Vector Word 64) (s : State) :
    writeBlock y s = { s with mem := (writeBlock y s).mem } := rfl

theorem execIdct_cases {s t : State} (h : execIdct s = .next t) :
    t = succeed (writeBlock (Config.idctImpl (block s .idctIn)) s) := by
  unfold execIdct idctWith at h
  generalize writeBlock (Config.idctImpl (block s .idctIn)) s = w at *
  cases h; rfl

/-- The filter after an accepted SF.INIT (43_scanline.md R211). -/
def initialFilter (s : State) : FilterUnit where
  width := s.sfWidth
  height := s.sfHeight
  bpp := s.sfBpp
  line := BitVec.ofNat 32 (s.sfBpp.toNat * s.sfWidth.toNat)
  row := 0#32
  col := tagNext
  tag := 0#8
  filterType := .none
  active := true

theorem execSfInit_cases {s t : State} (h : execSfInit s = .next t) :
    (configOk s.params s.sfWidth.toNat s.sfHeight.toNat s.sfBpp.toNat = true ∧
      t = succeed (s.withFilter (initialFilter s))) ∨
    (configOk s.params s.sfWidth.toNat s.sfHeight.toNat s.sfBpp.toNat = false ∧
      t = fail .sfBadConfig (s.withFilter { s.filter with active := false })) := by
  unfold execSfInit at h
  split at h
  · cases h; exact .inl ⟨‹_›, rfl⟩
  · cases h; exact .inr ⟨by simp_all, rfl⟩

theorem tagByte_cases (b : Byte) (s : State) :
    (∃ type, filterTypeOf b = some type ∧
      tagByte b s = succeed (s.withFilter { s.filter with tag := b, col := 0#32, filterType := type })) ∨
    (filterTypeOf b = none ∧
      tagByte b s = fail .sfBadFilter (s.withFilter { s.filter with tag := b, col := 0#32, filterType := .none })) := by
  unfold tagByte
  split
  · exact .inl ⟨_, ‹_›, rfl⟩
  · exact .inr ⟨‹_›, rfl⟩

/-- The tag values 0 to 4 and no other have a filter type (43_scanline.md R214). -/
theorem filterTypeOf_eq_none_iff (b : Byte) : filterTypeOf b = none ↔ 4 < b.toNat := by
  unfold filterTypeOf
  split_ifs <;> simp_all [BitVec.toNat_eq]
  omega

/-- Everything a pixel store that answers can have done. -/
theorem storePixelByte_ok {s t : State} {r c : Nat} {x : Byte} (h : storePixelByte s r c x = .ok t) :
    t = stored s r c x := by
  unfold storePixelByte at h
  simp only [bind, Except.bind] at h
  split at h
  · cases h
  · rename_i s1 h1
    obtain ⟨-, rfl⟩ := (writeByte_ok_iff ..).1 h1
    split at h
    · cases h
    · rename_i s2 h2
      obtain ⟨-, rfl⟩ := (writeByte_ok_iff ..).1 h2
      unfold stored; dsimp only
      split at h
      · obtain ⟨-, rfl⟩ := (writeByte_ok_iff ..).1 h
        simp [*]
      · cases h
        simp [*]

/-- Everything a line copy that answers can have done. -/
theorem copyLine_ok {s t : State} {n : Nat} (h : copyLine s n = .ok t) : t = lineCopied s n := by
  unfold copyLine at h
  split at h
  · cases h; rfl
  · cases h

/-- Everything an advance that answers can have done. -/
theorem advanceColumn_ok {s t : State} {r c : Nat} (h : advanceColumn s r c = .ok t) : t = advanced s r c := by
  unfold advanceColumn at h
  unfold advanced
  split at h
  · rename_i hc
    simp only [bind, Except.bind] at h
    split at h
    · cases h
    · rename_i s1 h1
      rw [copyLine_ok h1] at h
      cases h
      rw [if_pos hc]
  · rename_i hc
    cases h
    rw [if_neg hc]

/-- Everything a data byte that answers can have done: some byte `x` was stored and the filter advanced. -/
theorem dataByte_ok {s t : State} {b : Byte} (h : dataByte b s = .ok t) :
    ∃ n, neighbours s s.filter.row.toNat s.filter.col.toNat = .ok n ∧
      t = advanced (stored s s.filter.row.toNat s.filter.col.toNat (recon s.filter.filterType b n))
        s.filter.row.toNat s.filter.col.toNat := by
  unfold dataByte at h
  simp only [bind, Except.bind] at h
  split at h
  · cases h
  · rename_i n hn
    split at h
    · cases h
    · rename_i s1 h1
      exact ⟨n, hn, by rw [advanceColumn_ok h, storePixelByte_ok h1]⟩

/-- An advance changes the filter's row and column and the PREV buffer alone. -/
theorem advanced_eq (s : State) (r c : Nat) :
    advanced s r c = { s with mem := (advanced s r c).mem, filter := (advanced s r c).filter } := by
  unfold advanced; split <;> rfl

theorem byteAt_advanced (s : State) (r c : Nat) (b : ByteBank) (i : Nat) :
    (advanced s r c).byteAt b i =
      if c + 1 = s.filter.line.toNat ∧ b = .prev ∧ i < s.filter.line.toNat then s.byteAt .cur i
      else s.byteAt b i := by
  unfold advanced
  split
  · rename_i h
    simp [h, byteAt_lineCopied]
  · rename_i h
    simp [h]

theorem wordAt_advanced (s : State) (r c : Nat) (b : WordBank) (i : Nat) :
    (advanced s r c).wordAt b i = s.wordAt b i := by
  unfold advanced
  split
  · simp only [State.wordAt, withFilter_mem, withFilter_draw]
    simp [lineCopied]
  · rfl

theorem wordAt_stored (s : State) (r c : Nat) (x : Byte) (b : WordBank) (i : Nat) :
    (stored s r c x).wordAt b i = s.wordAt b i := by
  unfold stored; dsimp only; split <;> simp

theorem execSfPush_cases {b : Byte} {s t : State} (h : execSfPush b s = .next t) :
    (s.filter.active = false ∧ t = fail .sfNotReady s) ∨
    (s.filter.active = true ∧ s.filter.row = s.filter.height ∧ t = fail .sfOverrun s) ∨
    (s.filter.active = true ∧ s.filter.row ≠ s.filter.height ∧ s.filter.col = tagNext ∧ t = tagByte b s) ∨
    (s.filter.active = true ∧ s.filter.row ≠ s.filter.height ∧ s.filter.col ≠ tagNext ∧
      ∃ t', dataByte b s = .ok t' ∧ t = succeed t') := by
  unfold execSfPush at h
  split at h
  · cases h; exact .inl ⟨‹_›, rfl⟩
  · rename_i ha
    have ha : s.filter.active = true := by simpa using ha
    split at h
    · cases h; exact .inr (.inl ⟨ha, ‹_›, rfl⟩)
    · split at h
      · cases h; exact .inr (.inr (.inl ⟨ha, ‹_›, ‹_›, rfl⟩))
      · split at h
        · cases h
        · unfold finish at h
          split at h
          · cases h; exact .inr (.inr (.inr ⟨ha, ‹_›, ‹_›, _, ‹_›, rfl⟩))
          · cases h

end Sys2Proof.Machine
end

