-- ==== Sys2Proof/Laws/PerInstr.lean ====
section
/-! SUPPORT. For each command: the word the encoder gives a well-formed one matches its row of the opcode table
(30_encoding.md R106). -/

namespace Sys2Proof.Laws.OpcodeTable

/-- The word of a well-formed command matches its own row. -/
def Statement (i : Instr) : Prop :=
  i.wf = true → ∃ row, opcodeRows[i.row]? = some row ∧ encode i &&& row.1 = row.2

/-- Format B fills only the bits the mask leaves open. -/
theorem encodeB_mask (n : Nat) (opc : Byte) : encodeB n opc &&& 0xFFFFE0FF#32 = opc.setWidth 32 := by
  unfold encodeB
  generalize BitVec.ofNat 5 n = v
  apply BitVec.eq_of_getLsbD_eq
  intro i hi
  interval_cases i <;> simp

/-- Format T fills only the bits the mask leaves open. -/
theorem encodeT_mask (cls : TableClass) (dst : Fin 4) (opc : Byte) :
    encodeT cls dst opc &&& 0xFFFFF8FF#32 = opc.setWidth 32 := by
  unfold encodeT
  generalize BitVec.ofNat 3 (cls.number * 4 + dst.val) = v
  apply BitVec.eq_of_getLsbD_eq
  intro i hi
  interval_cases i <;> simp

/-- Format D fills only the bits the mask leaves open. -/
theorem encodeD_mask (b opc : Byte) : encodeD b opc &&& 0xFFFF00FF#32 = opc.setWidth 32 := by
  unfold encodeD
  apply BitVec.eq_of_getLsbD_eq
  intro i hi
  interval_cases i <;> simp

theorem nop : Statement .nop := fun _ => ⟨_, rfl, by decide⟩
theorem sreset : Statement .sreset := fun _ => ⟨_, rfl, by decide⟩
theorem bcLoad : Statement .bcLoad := fun _ => ⟨_, rfl, by decide⟩
theorem bcRead (n : Nat) : Statement (.bcRead n) := fun _ => ⟨_, rfl, encodeB_mask n _⟩
theorem bcReadX (n : Nat) : Statement (.bcReadX n) := fun _ => ⟨_, rfl, encodeB_mask n _⟩
theorem bcAlign : Statement .bcAlign := fun _ => ⟨_, rfl, by decide⟩
theorem bcExt (n : Nat) : Statement (.bcExt n) := fun _ => ⟨_, rfl, encodeB_mask n _⟩
theorem htBuild (cls : TableClass) (dst : Fin 4) : Statement (.htBuild cls dst) :=
  fun _ => ⟨_, rfl, encodeT_mask cls dst _⟩
theorem htDecode (cls : TableClass) (dst : Fin 4) : Statement (.htDecode cls dst) :=
  fun _ => ⟨_, rfl, encodeT_mask cls dst _⟩
theorem idct : Statement .idct := fun _ => ⟨_, rfl, by decide⟩
theorem sfInit : Statement .sfInit := fun _ => ⟨_, rfl, by decide⟩
theorem sfPush (b : Byte) : Statement (.sfPush b) := fun _ => ⟨_, rfl, encodeD_mask b _⟩

end Sys2Proof.Laws.OpcodeTable
end

