-- ==== Sys2Proof/Tests/Slice0.lean ====
section
/-! SUPPORT. Tests, each with an expected result from spec/95_test_vectors.md or a rule's example, and for each statement
with hypotheses a witness that meets them. -/

namespace Sys2Proof.Tests

open Sys2Proof Sys2Proof.Machine

/-! Well-formedness refuses an ill-formed count (30_encoding.md R103). -/

theorem test_wf_refuses_bcRead_32 : Instr.wf (.bcRead 32) = false := by decide
theorem test_wf_refuses_bcReadX_32 : Instr.wf (.bcReadX 32) = false := by decide
theorem test_wf_refuses_bcExt_32 : Instr.wf (.bcExt 32) = false := by decide
theorem test_wf_admits_bcRead_31 : Instr.wf (.bcRead 31) = true := by decide

/-! Decoding, each word written out from its format (30_encoding.md R102 to R106, R112). -/

theorem test_decode_nop : decode 0b00000000_00000000_00000000_00000000#32 = .ok .nop := by decide
theorem test_decode_sreset : decode 0b00000000_00000000_00000000_00000001#32 = .ok .sreset := by decide
theorem test_decode_bcLoad : decode 0b00000000_00000000_00000000_00010000#32 = .ok .bcLoad := by decide
theorem test_decode_bcRead : decode 0b00000000_00000000_00000011_00010001#32 = .ok (.bcRead 3) := by decide
theorem test_decode_bcRead_17 : decode 0b00000000_00000000_00010001_00010001#32 = .ok (.bcRead 17) := by decide
theorem test_decode_bcReadX : decode 0b00000000_00000000_00010000_00010010#32 = .ok (.bcReadX 16) := by decide
theorem test_decode_bcAlign : decode 0b00000000_00000000_00000000_00010011#32 = .ok .bcAlign := by decide
theorem test_decode_bcExt : decode 0b00000000_00000000_00001011_00010100#32 = .ok (.bcExt 11) := by decide
theorem test_decode_htBuild : decode 0b00000000_00000000_00000110_00100000#32 = .ok (.htBuild .ac 2) := by decide
theorem test_decode_htDecode : decode 0b00000000_00000000_00000101_00100001#32 = .ok (.htDecode .ac 1) := by decide
theorem test_decode_idct : decode 0b00000000_00000000_00000000_00110000#32 = .ok .idct := by decide
theorem test_decode_sfInit : decode 0b00000000_00000000_00000000_01000000#32 = .ok .sfInit := by decide
theorem test_decode_sfPush : decode 0b00000000_00000000_00000100_01000001#32 = .ok (.sfPush 4#8) := by decide
theorem test_decode_free_opcode : decode 0x00000002#32 = .error (.freeOpcode 2#8) := by decide
theorem test_decode_reserved_bit : decode 0x00010011#32 = .error (.reservedBits 0x11#8) := by decide
theorem test_encode_htDecode : encode (.htDecode .ac 3) = 0x00000721#32 := by decide
theorem test_table_word : decodeTableWord 32 0x00000521 = some (.htDecode .ac 1) := by decide

/-! Small states. -/

/-- STREAM_SIZE = 64, MAX_LINE = 64, OUT_SIZE = 256, as the programs of 95_test_vectors.md take them. -/
def small : State := State.resetWith { streamSize := 64, maxLine := 64, outSize := 256 } 0

/-- The state a command leaves, or the state before where it stops. -/
def after (i : Instr) (s : State) : State :=
  match exec i s with
  | .next t => t
  | .fault _ => s
  | .refused _ => s

/-- Stores bytes from index 0 on. -/
def bytesFrom (l : List Byte) : Store Byte := l.zipIdx.map fun e => (e.2, e.1)

/-- A valid cursor at `byte`, `bit` over the given stream, BC_END at its end. -/
def cursorAt (byte : Word) (bit : BitVec 3) (stream : List Byte) : State :=
  { small with
    mem := { Memory.unwritten with stream := bytesFrom stream }
    cursor := { byte := byte, bit := bit, valid := true, endBound := BitVec.ofNat 32 stream.length } }

/-- The stream of vectors B1 to B15. -/
def streamB : List Byte := [0xA5#8, 0x3C#8, 0xFF#8, 0x01#8]

/-- A staged histogram, its other lengths 0, and symbol list. -/
def staged (lengths syms : List Byte) : State :=
  { small with
    mem := { Memory.unwritten with
      htLen := bytesFrom (lengths ++ List.replicate (16 - lengths.length) 0#8), htSym := bytesFrom syms } }

/-- The table of vector H1. -/
def stagedH1 : State :=
  staged [0#8, 1#8, 5#8, 1#8, 1#8, 1#8, 1#8, 1#8, 1#8]
    [0#8, 1#8, 2#8, 3#8, 4#8, 5#8, 6#8, 7#8, 8#8, 9#8, 10#8, 11#8]

/-- The table of vector H2. -/
def stagedH2 : State := staged [1#8, 0#8, 2#8] [0x41#8, 0x42#8, 0x43#8]

/-- A state with slot DC 0 built from `s` and a valid cursor at the start of the given stream. -/
def withTable (s : State) (stream : List Byte) : State :=
  { cursorAt 0#32 0#3 stream with trees := (after (.htBuild .dc 0) s).trees }

/-- A filter in the middle of an image of `w` by `h` pixels. -/
def filterAt (w h bpp row col : Word) (type : FilterType) (prev cur : List Byte) : State :=
  { small with
    mem := { Memory.unwritten with prev := bytesFrom prev, cur := bytesFrom cur }
    filter :=
      { row := row, col := col, tag := 0#8, active := true, line := bpp * w
        width := w, height := h, bpp := bpp, filterType := type } }

/-- The same machine with its next host access given. -/
def withPending (s : State) (l : List HostAccess) : State := { s with pending := l }

/-! One command (two tests at most for each). -/

/-- 40_control.md R130, example. -/
theorem test_nop_clears_lastErr : (after .nop { small with status := 0x04000010#32 }).status = 0x00000011#32 := by decide

/-- 40_control.md R131, example. -/
theorem test_sreset_discards :
    let t := after .sreset { cursorAt 1#32 3#3 streamB with status := 0x04000010#32, result := sentinel, arg := 7#32 }
    (t.status, t.result, t.arg, t.cursor.byte, t.cursor.valid, t.cursor.endBound) =
      (1#32, 0#32, 7#32, 0#32, false, 4#32) := by decide

/-- Vector B12. -/
theorem test_bcLoad_at_end :
    (after .bcLoad { cursorAt 1#32 3#3 streamB with arg := 4#32 }).cursor =
      { byte := 4#32, bit := 0#3, valid := true, endBound := 4#32 } := by decide

/-- Vector B11. -/
theorem test_bcLoad_past_end :
    let t := after .bcLoad { cursorAt 1#32 3#3 streamB with arg := 5#32 }
    (t.status, t.cursor.byte, t.cursor.bit) = (0x02000004#32, 1#32, 3#3) := by decide

/-- Vector B4: 16 bits over three bytes. -/
theorem test_bcRead_three_bytes :
    let t := after (.bcRead 16) (cursorAt 1#32 3#3 streamB)
    (t.result, t.cursor.byte, t.cursor.bit) = (0x0000E7F8#32, 3#32, 3#3) := by decide

/-- Vector B5. -/
theorem test_bcRead_underrun :
    let t := after (.bcRead 6) (cursorAt 3#32 3#3 streamB)
    (t.status, t.result, t.cursor.byte, t.cursor.bit, t.cursor.valid) =
      (0x04000010#32, 0xFFFFFFFF#32, 3#32, 3#3, false) := by decide

/-- Vector B16: bits 010. -/
theorem test_bcReadX_negative :
    let t := after (.bcReadX 3) (cursorAt 0#32 0#3 [0b01011111#8])
    (t.result, t.cursor.bit, t.arg) = (0xFFFFFFFB#32, 3#3, 0#32) := by decide

/-- Vector B9 for BC.READX: no bits read, 0 returned. -/
theorem test_bcReadX_zero_at_end :
    let t := after (.bcReadX 0) { cursorAt 4#32 0#3 streamB with result := 9#32 }
    (t.status, t.result, t.cursor.byte) = (1#32, 0#32, 4#32) := by decide

/-- Vector B7. -/
theorem test_bcAlign_rounds_up :
    let t := after .bcAlign (cursorAt 1#32 3#3 streamB)
    (t.cursor.byte, t.cursor.bit) = (2#32, 0#3) := by decide

/-- Vector B8. -/
theorem test_bcAlign_keeps_aligned : (after .bcAlign (cursorAt 2#32 0#3 streamB)).cursor.byte = 2#32 := by decide

/-- Vector E10: only bits 2:0 of ARG. -/
theorem test_bcExt_low_bits : (after (.bcExt 3) { small with arg := 0xFFFFFFF2#32 }).result = 0xFFFFFFFB#32 := by decide

/-- Vector E15. -/
theorem test_bcExt_sixteen : (after (.bcExt 16) { small with arg := 0#32 }).result = 0xFFFF0001#32 := by decide

/-- Vector H1: HT_VALID and STATUS after a build into DC 0. -/
theorem test_htBuild_h1 :
    let t := after (.htBuild .dc 0) stagedH1
    (t.status, htValid t) = (1#32, 1#32) := by decide

/-- Vector H3b: three codes of one bit. -/
theorem test_htBuild_oversub :
    let t := after (.htBuild .dc 1) (staged [3#8] [1#8, 2#8, 3#8])
    (t.status, htValid t) = (0x08000080#32, 0#32) := by decide

/-- Vector H1c: 111111110. -/
theorem test_htDecode_nine_bits :
    let t := after (.htDecode .dc 0) (withTable stagedH1 [0xFF#8, 0x00#8])
    (t.result, t.cursor.byte, t.cursor.bit) = (0x0000000B#32, 1#32, 1#3) := by decide

/-- Vector H2: "11" fails with INVALID_CODE after 2 bits. -/
theorem test_htDecode_invalid_code :
    let t := after (.htDecode .dc 0) (withTable stagedH2 [0xC0#8])
    (t.status, t.cursor.bit, t.cursor.valid) = (0x06000040#32, 2#3, false) := by decide

/-- 44_idct.md R240: the status, and IDCT_OUT is what the open arithmetic gives. -/
theorem test_idct_status : (after .idct { small with result := 9#32 }).status = 1#32 := rfl

/-- Vector F13: 8 by 8 pixels of 4 bytes fill OUT. -/
theorem test_sfInit_accepts :
    let t := after .sfInit { small with sfWidth := 8#32, sfHeight := 8#32, sfBpp := 4#32 }
    (t.status, t.filter.line, t.filter.col, t.filter.active) = (1#32, 32#32, 0xFFFFFFFF#32, true) := by decide

/-- Vector F13: a line of 66 bytes is too long. -/
theorem test_sfInit_rejects_long_line :
    let t := after .sfInit { small with sfWidth := 22#32, sfHeight := 1#32, sfBpp := 3#32 }
    (t.status, t.filter.active) = (0x0D000800#32, false) := by decide

/-- Vector F10: row 1, column 3, Paeth. -/
theorem test_sfPush_paeth :
    let t := after (.sfPush 2#8)
      (filterAt 2#32 2#32 3#32 1#32 3#32 .paeth [10#8, 20#8, 30#8, 15#8, 25#8, 35#8] [11#8, 21#8, 31#8])
    (Store.find? t.mem.out 12, Store.find? t.mem.cur 3, t.filter.col) = (some 17#8, some 17#8, 4#32) := by decide

/-- Vector F9: the last byte of row 1, Average, with its alpha byte and the end of the image. -/
theorem test_sfPush_average_ends_row :
    let t := after (.sfPush 2#8)
      (filterAt 1#32 2#32 3#32 1#32 2#32 .average [255#8, 255#8, 255#8] [127#8, 128#8])
    (t.mem.out, t.mem.prev, t.filter.row, t.filter.col) =
      ([(6, 129#8), (7, 255#8)], bytesFrom [127#8, 128#8, 129#8], 2#32, 0xFFFFFFFF#32) := by decide

/-! Host accesses and illegal words. -/

/-- Program P6, first line. -/
theorem test_illegal_word :
    (match step (withPending small [.writeReg 0#8 0x00000002#32]) with
      | .next t => (t.status, t.result, t.pending)
      | _ => (0#32, 0#32, [])) = (0x01000002#32, 0xFFFFFFFF#32, []) := by decide

/-- Program P6: a write of 6 to STATUS clears E_ILLEGAL and E_BADARG. -/
theorem test_status_write : statusClear 0x6#32 0x00000007#32 = 0x00000001#32 := by decide

/-- Vector B14. -/
theorem test_bcEnd_clamps : clampEnd small.params 100#32 = 64#32 := by decide

/-- A word placed for the step is the command it runs, the first after reset. -/
theorem test_withFetchWord_runs :
    (match step (small.withFetchWord 32 0x00001111) with
      | .next t => t.status
      | _ => 0#32) = 0x02000004#32 := by decide

/-! The invariant of a concrete state, by evaluation. -/

/-- The invariant's clauses, as checks. -/
def checkInv (s : State) : Bool :=
  decide (1 ≤ s.params.streamSize ∧ s.params.streamSize < 2 ^ 31 ∧ 3 ≤ s.params.maxLine ∧ 4 ≤ s.params.outSize) &&
  s.mem.wf && s.mem.inBounds s.params &&
  decide (s.cursor.byte.toNat ≤ s.params.streamSize ∧ s.cursor.endBound.toNat ≤ s.params.streamSize ∧
    (s.cursor.bit ≠ 0#3 → s.cursor.byte.toNat < s.params.streamSize)) &&
  decide (s.filter.active = true →
    configOk s.params s.filter.width.toNat s.filter.height.toNat s.filter.bpp.toNat = true ∧
    s.filter.line.toNat = s.filter.bpp.toNat * s.filter.width.toNat % 2 ^ 32 ∧
    s.filter.row.toNat ≤ s.filter.height.toNat ∧
    (s.filter.col = tagNext ∨ s.filter.col.toNat < s.filter.line.toNat ∨ s.filter.line = 0#32) ∧
    (s.filter.line = 0#32 → s.filter.row = 0#32) ∧
    (s.filter.row = s.filter.height → s.filter.col = tagNext)) &&
  decide (s.filter.active = true →
    (s.filter.col ≠ tagNext → ∀ i, i < s.filter.col.toNat → (Store.find? s.mem.cur i).isSome = true) ∧
    (1 ≤ s.filter.row.toNat → ∀ i, i < s.filter.line.toNat → (Store.find? s.mem.prev i).isSome = true)) &&
  decide ((∀ i : Fin 12, s.status.getLsbD (12 + i.val) = false) ∧
    statusOk s.status = (lastErr s.status == 0#8) ∧ (lastErr s.status).toNat ≤ 13 ∧
    (lastErr s.status ≠ 0#8 → s.result = 0xFFFFFFFF#32)) &&
  decide (∀ slot : Fin 8, (s.tree slot).all (fun r => decide (r.node.depth ≤ 16)) = true)

/-- A state that passes the checks meets the invariant. -/
theorem stateInv_of_check {s : State} (h : checkInv s = true) : StateInv s := by
  simp only [checkInv, Bool.and_eq_true, decide_eq_true_eq] at h
  obtain ⟨⟨⟨⟨⟨⟨⟨hp, hw⟩, hb⟩, hc⟩, hf⟩, hl⟩, hs⟩, ht⟩ := h
  exact {
    params := hp
    wf := hw
    bounds := hb
    cursor := ⟨hc.1, hc.2.1, hc.2.2⟩
    filter := fun ha => ⟨(hf ha).1, (hf ha).2.1, (hf ha).2.2.1, (hf ha).2.2.2.1, (hf ha).2.2.2.2.1, (hf ha).2.2.2.2.2⟩
    lines := fun ha => ⟨(hl ha).1, (hl ha).2⟩
    status := {
      reserved := fun i h1 h2 => by
        have := hs.1 ⟨i - 12, by omega⟩
        simp only at this
        rwa [show 12 + (i - 12) = i by omega] at this
      ok_iff := by rw [hs.2.1]; simp
      code_le := hs.2.2.1
      sentinel := hs.2.2.2 }
    depth := fun slot r hr => by have := ht slot; simpa [hr] using this }

/-! Witnesses: for each statement with hypotheses, states and operands that meet them, each clause at a boundary. -/

theorem witness_DecodeOfEncodeIsTheCommand : Instr.wf (.bcExt 31) = true ∧ Instr.wf (.sfPush 255#8) = true := by decide

theorem witness_DecodedWordIsItsEncoding : ∃ w i, decode w = .ok i := ⟨0x0000FF41#32, .sfPush 255#8, by decide⟩

theorem witness_LegalWordsMatchOneTableRow :
    ∃ w, ∃ row ∈ opcodeRows, w &&& row.1 = row.2 := ⟨0x00001F11#32, by decide⟩

theorem witness_IllegalWordOnlyFails :
    (∃ (s : State) (rest : List HostAccess) (w : Word), s.pending = .writeReg 0#8 w :: rest ∧ ¬ LegalWord w ∧ opcodeField w = 0x02#8) ∧
    (∃ (s : State) (rest : List HostAccess) (w : Word), s.pending = .writeReg 0#8 w :: rest ∧ ¬ LegalWord w ∧ opcodeField w = 0x11#8) :=
  ⟨⟨withPending small [.writeReg 0#8 0x00000002#32], [], _, rfl, by unfold LegalWord; decide, by decide⟩,
   ⟨withPending small [.writeReg 0#8 0x00002011#32], [], _, rfl, by unfold LegalWord; decide, by decide⟩⟩

theorem witness_StepRunsTheDecodedCommand :
    (∃ (s : State) (rest : List HostAccess) (w : Word) (i : Instr),
      s.pending = .writeReg 0#8 w :: rest ∧ decode w = .ok i) ∧
    (∃ (s : State) (rest : List HostAccess) (r : Byte) (v : Word), s.pending = .writeReg r v :: rest ∧ r = 255#8) ∧
    (∃ (s : State) (rest : List HostAccess) (id i : Nat) (v : Word), s.pending = .writeMem id i v :: rest ∧ id = 5) ∧
    ∃ s : State, s.pending = [] :=
  ⟨⟨withPending small [.writeReg 0#8 0x00001F11#32], [], _, .bcRead 31, rfl, by decide⟩,
   ⟨withPending small [.writeReg 255#8 1#32], [], _, 1#32, rfl, rfl⟩,
   ⟨withPending small [.writeMem 5 255 1#32], [], _, 255, 1#32, rfl, rfl⟩, small, rfl⟩

theorem witness_ErrorProcedureEffect : (ErrCode.sfBadConfig, 0x0D#8, 11) ∈ errorTable := by decide

theorem witness_ACommandReportsOneCode : ∃ i s t, i ≠ .sreset ∧ exec i s = .next t :=
  ⟨.bcAlign, small, _, by decide, rfl⟩

theorem witness_NoErrorRecordedMeansSuccess : ∃ i s t, i ≠ .sreset ∧ exec i s = .next t ∧ NoErrorRecorded t :=
  ⟨.nop, small, after .nop small, by decide, rfl, by unfold NoErrorRecorded; decide⟩

theorem witness_FailedCommandLeavesTheSentinel :
    ∃ i s t, exec i s = .next t ∧ lastErr t.status ≠ 0#8 :=
  ⟨.bcAlign, small, after .bcAlign small, rfl, by decide⟩

theorem witness_OtherCommandsKeepResult :
    ∃ i s t, i ≠ .sreset ∧ (∀ n, i ≠ .bcRead n) ∧ (∀ n, i ≠ .bcReadX n) ∧ (∀ n, i ≠ .bcExt n) ∧
      (∀ c d, i ≠ .htDecode c d) ∧ exec i s = .next t ∧ lastErr t.status = 0#8 ∧ s.result = 9#32 :=
  ⟨.bcLoad, { small with result := 9#32 }, after .bcLoad { small with result := 9#32 }, by decide, by simp, by simp,
    by simp, by simp, rfl, by decide, rfl⟩

theorem witness_BcLoadStartsTheCursor :
    (∃ s : State, s.arg.toNat ≤ s.cursor.endBound.toNat ∧ s.arg = s.cursor.endBound) ∧
    (∃ s : State, s.cursor.endBound.toNat < s.arg.toNat ∧ s.arg = s.cursor.endBound + 1#32) :=
  ⟨⟨{ cursorAt 0#32 0#3 streamB with arg := 4#32 }, by decide, by decide⟩,
   ⟨{ cursorAt 0#32 0#3 streamB with arg := 5#32 }, by decide, by decide⟩⟩

theorem witness_BcReadReturnsTheNextBits :
    (∃ s, StateInv s ∧ 16 ≤ 16 ∧ s.cursor.valid = true ∧ s.cursor.avail = 16) ∧
    (∃ s, StateInv s ∧ 0 ≤ 16 ∧ s.cursor.valid = true ∧ s.cursor.avail = 0) :=
  ⟨⟨cursorAt 2#32 0#3 streamB, stateInv_of_check (by decide), by decide, by decide, by decide⟩,
   ⟨cursorAt 4#32 0#3 streamB, stateInv_of_check (by decide), by decide, by decide, by decide⟩⟩

theorem witness_BcReadXIsReadThenExtend :
    ∃ s : State, StateInv s ∧ 16 ≤ 16 ∧ s.cursor.valid = true ∧ 16 ≤ s.cursor.avail :=
  ⟨cursorAt 1#32 7#3 streamB, stateInv_of_check (by decide), by decide, by decide, by decide⟩

theorem witness_FixedReadFailures :
    16 < 17 ∧ (16 ≤ 16 ∧ small.cursor.valid = false) ∧
    ∃ s : State, 16 ≤ 16 ∧ s.cursor.valid = true ∧ s.cursor.avail = 15 :=
  ⟨by decide, by decide, cursorAt 2#32 1#3 streamB, by decide, by decide, by decide⟩

theorem witness_BcAlignRoundsUp :
    (∃ s, StateInv s ∧ s.cursor.valid = true ∧ s.cursor.bit = 7#3) ∧
    (∃ s, StateInv s ∧ s.cursor.valid = true ∧ s.cursor.bit = 0#3) ∧ ∃ s, StateInv s ∧ s.cursor.valid = false :=
  ⟨⟨cursorAt 3#32 7#3 streamB, stateInv_of_check (by decide), by decide, by decide⟩,
   ⟨cursorAt 4#32 0#3 streamB, stateInv_of_check (by decide), by decide, by decide⟩,
   ⟨small, stateInv_of_check (by decide), by decide⟩⟩

theorem witness_BcExtExtendsTheArgument :
    (∃ s : State, 1 ≤ 16 ∧ 16 ≤ 16 ∧ s.arg.getLsbD 15 = false) ∧
    (∃ s : State, 1 ≤ 1 ∧ 1 ≤ 16 ∧ s.arg.getLsbD 0 = true) ∧ 0 ≤ 16 ∧ 16 < 17 :=
  ⟨⟨{ small with arg := 0x7FFF#32 }, by decide, by decide, by decide⟩,
   ⟨{ small with arg := 1#32 }, by decide, by decide, by decide⟩, by decide, by decide⟩

theorem witness_ExtendIsOneToOne :
    (1 ≤ 16 ∧ 16 ≤ 16 ∧ 0xFFFF < 2 ^ 16) ∧ ∃ v v', v < 2 ^ 1 ∧ v' < 2 ^ 1 ∧ extend v 1 = extend v' 1 :=
  ⟨by decide, 1, 1, by decide, by decide, by decide⟩

theorem witness_FixedReadTouchesThreeBytes :
    (∃ s t n i j, StateInv s ∧ (i = .bcRead n ∨ i = .bcReadX n) ∧ j + 1 = s.cursor.byte.toNat ∧ exec i s = .next t) ∧
    (∃ s t n i j, StateInv s ∧ (i = .bcRead n ∨ i = .bcReadX n) ∧ j = s.cursor.byte.toNat + 3 ∧ exec i s = .next t) :=
  ⟨⟨cursorAt 1#32 3#3 streamB, _, 16, .bcRead 16, 0, stateInv_of_check (by decide), .inl rfl, by decide, rfl⟩,
   ⟨cursorAt 0#32 3#3 streamB, _, 16, .bcReadX 16, 3, stateInv_of_check (by decide), .inr rfl, by decide, rfl⟩⟩

/-- Histograms at the bounds of R179: one symbol, a full Kraft sum, 256 symbols. -/
theorem witness_HtBuildFillsOnlyItsSlot :
    Buildable (staged [1#8] [7#8]) ∧ Buildable (staged [2#8] [7#8, 8#8]) ∧
    Buildable (staged [0#8, 0#8, 0#8, 0#8, 0#8, 0#8, 0#8, 1#8, 255#8] []) := by
  unfold Buildable; decide

theorem witness_HtBuildErrorsEmptyTheSlot :
    totalCount (staged [0#8, 0#8, 0#8, 0#8, 0#8, 0#8, 0#8, 0#8, 255#8, 2#8] []) = 257 ∧ totalCount (staged [] []) = 0 ∧
    (1 ≤ totalCount (staged [3#8] []) ∧ totalCount (staged [3#8] []) ≤ 256 ∧ 2 ^ 16 < kraftSum (staged [3#8] [])) ∧
    ¬ Buildable (staged [3#8] []) := by
  unfold Buildable; decide

theorem witness_CanonicalCodesArePrefixFree :
    ∃ (s : State) (i j : Nat) (a b : List Bool), Buildable s ∧ (canonicalCodes (histogram s))[i]? = some a ∧
      (canonicalCodes (histogram s))[j]? = some b ∧ a <+: b :=
  ⟨stagedH2, 2, 2, [true, false, true], [true, false, true], by unfold Buildable; decide, by decide, by decide,
    List.prefix_refl _⟩

theorem witness_CanonicalCodeDecodesToItsSymbol :
    ∃ (s built u : State) (i : Nat) (code : List Bool), Buildable s ∧ exec (.htBuild .dc 0) s = .next built ∧ StateInv u ∧
      u.tree (slotOf .dc 0) = built.tree (slotOf .dc 0) ∧ u.cursor.valid = true ∧
      (canonicalCodes (histogram s))[i]? = some code ∧ code.length ≤ u.cursor.avail ∧
      streamBits u u.cursor.position code.length = code :=
  ⟨stagedH2, after (.htBuild .dc 0) stagedH2, withTable stagedH2 [0xBF#8], 2, [true, false, true],
    by unfold Buildable; decide, rfl, stateInv_of_check (by decide), rfl, by decide, by decide, by decide, by decide⟩

theorem witness_CompleteCodeHasNoInvalidCode :
    ∃ s built u t, 1 ≤ totalCount s ∧ totalCount s ≤ 256 ∧ kraftSum s = 2 ^ 16 ∧
      exec (.htBuild .dc 0) s = .next built ∧ u.tree (slotOf .dc 0) = built.tree (slotOf .dc 0) ∧
      exec (.htDecode .dc 0) u = .next t :=
  ⟨staged [2#8] [7#8, 8#8], after (.htBuild .dc 0) (staged [2#8] [7#8, 8#8]),
    withTable (staged [2#8] [7#8, 8#8]) [0xFF#8], after (.htDecode .dc 0) (withTable (staged [2#8] [7#8, 8#8]) [0xFF#8]),
    by decide, by decide, by decide, rfl, rfl, rfl⟩

/-- The root vector H2 builds. -/
def rootH2 : Root :=
  { c0 := .leaf 0x41#8, c1 := .inner (.inner (.leaf 0x42#8) (.leaf 0x43#8)) .empty }

theorem test_htBuild_h2_root : (after (.htBuild .dc 0) stagedH2).tree (slotOf .dc 0) = some rootH2 := by decide

theorem witness_HtDecodeReturnsTheLeaf :
    ∃ s r n sym, StateInv s ∧ s.tree (slotOf .dc 0) = some r ∧ s.cursor.valid = true ∧ n ≤ s.cursor.avail ∧
      r.node.follow (streamBits s s.cursor.position n) = some (.leaf sym) :=
  ⟨withTable stagedH2 [0xA0#8], rootH2, 3, 0x43#8, stateInv_of_check (by decide), by decide, by decide, by decide,
    by decide⟩

theorem witness_FailedWalkKeepsConsumedBits :
    (∃ s r, StateInv s ∧ s.tree (slotOf .dc 0) = some r ∧ s.cursor.valid = true ∧ 2 ≤ s.cursor.avail ∧
      r.node.follow (streamBits s s.cursor.position 2) = some .empty) ∧
    (∃ s r c0 c1, StateInv s ∧ s.tree (slotOf .dc 0) = some r ∧ s.cursor.valid = true ∧
      r.node.follow (streamBits s s.cursor.position s.cursor.avail) = some (.inner c0 c1)) :=
  ⟨⟨withTable stagedH2 [0xC0#8], rootH2, stateInv_of_check (by decide), by decide, by decide, by decide, by decide⟩,
   ⟨withTable stagedH2 [], rootH2, rootH2.c0, rootH2.c1, stateInv_of_check (by decide), by decide, by decide,
    by decide⟩⟩

theorem witness_HtDecodeChecksTableThenCursor :
    small.tree (slotOf .ac 3) = none ∧
    ∃ (s : State) (r : Root), s.tree (slotOf .dc 0) = some r ∧ s.cursor.valid = false :=
  ⟨by decide, (withTable stagedH2 []).invalidateCursor, rootH2, by decide, by decide⟩

theorem witness_HtDecodeTakesAtMostSixteenBits : ∃ s t, StateInv s ∧ exec (.htDecode .dc 0) s = .next t :=
  ⟨withTable (staged (List.replicate 15 0#8 ++ [1#8]) [7#8]) [0#8, 0#8],
    after (.htDecode .dc 0) (withTable (staged (List.replicate 15 0#8 ++ [1#8]) [7#8]) [0#8, 0#8]),
    stateInv_of_check (by decide), rfl⟩

theorem witness_IdctDependsOnItsInputAlone :
    ∃ s s' t t' : State, (∀ j, j < 64 → s.wordAt .idctIn j = s'.wordAt .idctIn j) ∧ s ≠ s' ∧
      exec .idct s = .next t ∧ exec .idct s' = .next t' :=
  ⟨small, { small with arg := 1#32 }, _, _, fun _ _ => rfl, by decide, rfl, rfl⟩

theorem witness_SfInitLatchesTheConfiguration :
    ∃ s : State, (s.sfBpp.toNat = 3 ∨ s.sfBpp.toNat = 4) ∧ 1 ≤ s.sfWidth.toNat ∧
      1 ≤ s.sfHeight.toNat ∧ s.sfBpp.toNat * s.sfWidth.toNat ≤ s.params.maxLine ∧
      4 * s.sfWidth.toNat * s.sfHeight.toNat = s.params.outSize :=
  ⟨{ small with sfWidth := 16#32, sfHeight := 4#32, sfBpp := 4#32 }, by decide, by decide, by decide, by decide, by decide⟩

theorem witness_SfInitRejectsBadConfigurations :
    ∃ s : State, ¬ ((s.sfBpp.toNat = 3 ∨ s.sfBpp.toNat = 4) ∧ 1 ≤ s.sfWidth.toNat ∧ 1 ≤ s.sfHeight.toNat ∧
      s.sfBpp.toNat * s.sfWidth.toNat ≤ s.params.maxLine ∧
      4 * s.sfWidth.toNat * s.sfHeight.toNat ≤ s.params.outSize) ∧ s.sfBpp.toNat * s.sfWidth.toNat = 66 :=
  ⟨{ small with sfWidth := 22#32, sfHeight := 1#32, sfBpp := 3#32 }, by decide, by decide⟩

theorem witness_TagByteSelectsTheFilter :
    ∃ s : State, s.filter.active = true ∧ s.filter.row ≠ s.filter.height ∧ s.filter.col = 0xFFFFFFFF#32 ∧
      (4#8).toNat ≤ 4 ∧ 4 < (5#8).toNat :=
  ⟨filterAt 1#32 1#32 3#32 0#32 0xFFFFFFFF#32 .none [] [], by decide, by decide, by decide, by decide, by decide⟩

/-- In the middle of a line of 3-byte pixels, and at the third channel that ends the line. -/
theorem witness_DataByteIsReconstructedAndStored :
    (∃ s, StateInv s ∧ s.filter.active = true ∧ s.filter.row ≠ s.filter.height ∧ s.filter.col ≠ 0xFFFFFFFF#32 ∧
      s.filter.col.toNat + 1 ≠ s.filter.line.toNat) ∧
    (∃ s, StateInv s ∧ s.filter.active = true ∧ s.filter.row ≠ s.filter.height ∧ s.filter.col ≠ 0xFFFFFFFF#32 ∧
      s.filter.col.toNat + 1 = s.filter.line.toNat ∧ s.filter.bpp.toNat = 3 ∧ s.filter.col.toNat % 3 = 2) :=
  ⟨⟨filterAt 2#32 2#32 3#32 0#32 0#32 .sub [] [], stateInv_of_check (by decide), by decide, by decide, by decide,
    by decide⟩,
   ⟨filterAt 1#32 2#32 3#32 1#32 2#32 .average [255#8, 255#8, 255#8] [127#8, 128#8], stateInv_of_check (by decide),
    by decide, by decide, by decide, by decide, by decide, by decide⟩⟩

/-- A line of 2^32 bytes, which SF_LINE holds as 0 (10_state.md R50), meets the invariant in a block that has room for it. -/
theorem witness_DataByteIsReconstructedAndStored_zero_line :
    ∃ s, StateInv s ∧ s.filter.active = true ∧ s.filter.row ≠ s.filter.height ∧ s.filter.col ≠ 0xFFFFFFFF#32 ∧
      s.filter.line = 0#32 :=
  ⟨{ filterAt 0x40000000#32 1#32 4#32 0#32 0#32 .none [] [] with
     params := { streamSize := 1, maxLine := 2 ^ 32, outSize := 2 ^ 32 } },
   stateInv_of_check (by decide), by decide, by decide, by decide, by decide⟩

/-- R222's examples: A on a tie, B on a tie with C, C. -/
theorem witness_ReconstructionFormulas :
    ∃ d : Byte → Byte → Byte → Byte → Int,
      (d = fun a b c v => |(a.toNat : Int) + b.toNat - c.toNat - v.toNat|) ∧
      (d 10#8 10#8 4#8 10#8 ≤ d 10#8 10#8 4#8 10#8 ∧ d 10#8 10#8 4#8 10#8 ≤ d 10#8 10#8 4#8 4#8) ∧
      (¬ (d 3#8 0#8 2#8 3#8 ≤ d 3#8 0#8 2#8 0#8 ∧ d 3#8 0#8 2#8 3#8 ≤ d 3#8 0#8 2#8 2#8) ∧
        d 3#8 0#8 2#8 0#8 ≤ d 3#8 0#8 2#8 2#8) ∧
      (¬ (d 3#8 1#8 2#8 3#8 ≤ d 3#8 1#8 2#8 1#8 ∧ d 3#8 1#8 2#8 3#8 ≤ d 3#8 1#8 2#8 2#8) ∧
        ¬ d 3#8 1#8 2#8 1#8 ≤ d 3#8 1#8 2#8 2#8) :=
  ⟨_, rfl, by decide, by decide, by decide⟩

theorem witness_PushOutsideAnImageFails :
    small.filter.active = false ∧
    ∃ s : State, s.filter.active = true ∧ s.filter.row = s.filter.height :=
  ⟨by decide, filterAt 1#32 2#32 3#32 2#32 0xFFFFFFFF#32 .none [] [], by decide, by decide⟩

theorem witness_FilteredLineIsReconstructed :
    ∃ s tag type, StateInv s ∧ s.filter.active = true ∧ s.filter.row ≠ s.filter.height ∧
      s.filter.col = 0xFFFFFFFF#32 ∧ filterTypeOf tag = some type ∧
      s.filter.line.toNat = s.filter.bpp.toNat * s.filter.width.toNat ∧ s.filter.bpp.toNat = 3 :=
  ⟨filterAt 1#32 2#32 3#32 1#32 0xFFFFFFFF#32 .none [10#8, 20#8, 30#8] [], 4#8, .paeth, stateInv_of_check (by decide),
    by decide, by decide, by decide, by decide, by decide, by decide⟩

theorem witness_FilterStaysInsideTheImage :
    ∃ s t b, StateInv s ∧ exec (.sfPush b) s = .next t ∧ s.filter.active = true :=
  ⟨filterAt 1#32 2#32 3#32 1#32 2#32 .average [255#8, 255#8, 255#8] [127#8, 128#8], _, 2#8,
    stateInv_of_check (by decide), rfl, by decide⟩

theorem witness_FilterNeverReadsUnwrittenBytes :
    ∃ s t b, StateInv s ∧ exec (.sfPush b) s = .next t ∧ s.filter.filterType = .paeth :=
  ⟨filterAt 1#32 2#32 3#32 1#32 2#32 .paeth [255#8, 255#8, 255#8] [127#8, 128#8], _, 2#8,
    stateInv_of_check (by decide), rfl, by decide⟩

theorem witness_CommandsWriteOnlyTheirOwnMemory :
    ∃ i s t, exec i s = .next t ∧ i ≠ .idct ∧ ∀ b, i ≠ .sfPush b := ⟨.bcAlign, small, _, rfl, by decide, by simp⟩

theorem witness_CommandsNeverWriteHostRegisters : ∃ i s t, exec i s = .next t := ⟨.sfInit, small, _, rfl⟩

theorem witness_EachUnitHasItsOwnCommands :
    (∃ i s t, i ≠ .sreset ∧ exec i s = .next t ∧ i ≠ .bcLoad ∧ (∀ n, i ≠ .bcRead n) ∧ (∀ n, i ≠ .bcReadX n) ∧
      i ≠ .bcAlign ∧ ∀ c d, i ≠ .htDecode c d) ∧
    (∃ i s t, i ≠ .sreset ∧ exec i s = .next t ∧ ∃ slot, ∀ c d, i = .htBuild c d → slotOf c d ≠ slot) ∧
    (∃ i s t, i ≠ .sreset ∧ exec i s = .next t ∧ i ≠ .sfInit ∧ ∀ b, i ≠ .sfPush b) :=
  ⟨⟨.bcExt 3, small, _, by decide, rfl, by decide, by simp, by simp, by decide, by simp⟩,
   ⟨.htBuild .ac 3, small, _, by decide, rfl, 0, by simp [slotOf]⟩,
   ⟨.idct, small, _, by decide, rfl, by decide, by simp⟩⟩

theorem witness_PowerOnLeavesMemoryUnspecified : ∃ (s : State) (rest : List HostAccess), s.pending = .powerOn :: rest :=
  ⟨withPending small [.powerOn], [], rfl⟩

/-- The least capacities, and a MAX_LINE and an OUT_SIZE beyond 32 bits. -/
theorem witness_InvariantHoldsAtReset :
    ParamsOk { streamSize := 1, maxLine := 3, outSize := 4 } ∧
    ParamsOk { streamSize := 2 ^ 31 - 1, maxLine := 2 ^ 40, outSize := 2 ^ 40 } := by unfold ParamsOk; decide

theorem witness_EveryStepKeepsTheInvariant : ∃ s t, StateInv s ∧ step s = .next t :=
  ⟨{ cursorAt 1#32 3#3 streamB with pending := [.writeReg 0#8 0x00001011#32] }, _, stateInv_of_check (by decide), rfl⟩

theorem witness_EveryStepAnswersANextState : ∃ s, StateInv s ∧ s.pending ≠ [] :=
  ⟨{ cursorAt 1#32 3#3 streamB with pending := [.writeReg 0#8 0x00001011#32] }, stateInv_of_check (by decide),
    by decide⟩

theorem witness_HostRegisterWrites :
    ParamsOk small.params ∧ 1 ≤ 11 ∧ 11 ≤ 11 ∧ (0x800#32).getLsbD 11 = true := by unfold ParamsOk; decide

theorem witness_ReadOnlyRegistersIgnoreWrites :
    16#8 ∈ [2#8, 4#8, 5#8, 6#8, 8#8, 12#8, 13#8, 14#8, 15#8, 16#8] ∧ 17 ≤ (17#8).toNat := by decide

theorem witness_HostReadsHaveNoSideEffect :
    (∃ (s : State) (rest : List HostAccess) (r : Byte), s.pending = .readReg r :: rest) ∧
    ∃ (s : State) (rest : List HostAccess) (id i : Nat), s.pending = .readMem id i :: rest :=
  ⟨⟨withPending small [.readReg 1#8], [], 1#8, rfl⟩, ⟨withPending small [.readMem 5 255], [], 5, 255, rfl⟩⟩

theorem witness_HostReadAfterWrite :
    ((5, ByteBank.out) ∈ [(0, ByteBank.stream), (1, .htLen), (2, .htSym), (5, .out)] ∧
      255 < byteBankSize small.params .out) ∧
    (4, WordBank.idctOut) ∈ [(3, WordBank.idctIn), (4, .idctOut)] ∧ 63 < 64 := by decide

theorem witness_HostAccessOutsideASpace :
    (∀ b, (5, b) ∈ [(0, ByteBank.stream), (1, .htLen), (2, .htSym), (5, .out)] → byteBankSize small.params b ≤ 256) ∧
    (∀ b, ¬ (6, b) ∈ [(0, ByteBank.stream), (1, .htLen), (2, .htSym), (5, .out)]) ∧ 64 ≤ 64 :=
  ⟨by intro b hb; simp at hb; subst hb; decide, by intro b hb; simp at hb, by decide⟩

/-! The witnesses for the transform: one arithmetic that meets IDCT_ACCURATE with a wide bound, and a DC-only block. -/

/-- A DC coefficient of 8.0 (vector I5), every other 0. -/
def dcBlock : State :=
  { small with mem := { Memory.unwritten with idctIn := (0, 0x41000000#32) :: (List.range 63).map fun i => (i + 1, 0#32) } }

theorem dcBlock_get (j : Fin 64) : (block dcBlock .idctIn).get j = if j = 0 then 0x41000000#32 else 0#32 := by
  revert j; decide

theorem floatValue_zero : floatValue 0#32 = 0 := by
  simp [floatValue, floatMagnitude, floatSign, floatExponent, floatFraction]

theorem floatValue_eight : floatValue 0x41000000#32 = 8 := by
  have hs : floatSign 0x41000000#32 = false := by decide
  have he : floatExponent 0x41000000#32 = 130 := by decide
  have hf : floatFraction 0x41000000#32 = 0 := by decide
  norm_num [floatValue, floatMagnitude, hs, he, hf]

theorem dcBlock_domain : InIdctDomain (block dcBlock .idctIn) := by
  intro j
  rw [dcBlock_get]
  split
  · rw [floatValue_eight]; exact ⟨by decide, by norm_num⟩
  · rw [floatValue_zero]; exact ⟨by decide, by norm_num⟩

/-- The arithmetic that answers 0 everywhere meets IDCT_ACCURATE with the bound 2^20. -/
theorem zeroTransform_accurate : IdctAccurate (fun _ => Vector.replicate 64 0#32) (2 ^ 20) := by
  intro input hin x y e he
  have h0 : (Vector.replicate 64 0#32).get (blockIndex x y) = 0#32 := by simp [Vector.get]
  rw [h0, floatValue_zero]
  refine ⟨by decide, ?_⟩
  have := he.abs_le (M := 2 ^ 16) fun u v => by exact_mod_cast (hin (blockIndex u v)).2
  norm_num at this ⊢
  exact this

theorem coefficient_dcBlock (u v : Fin 8) :
    coefficient (block dcBlock .idctIn) u v = if u = 0 ∧ v = 0 then 8 else 0 := by
  rw [coefficient, dcBlock_get]
  by_cases h : u = 0 ∧ v = 0
  · obtain ⟨rfl, rfl⟩ := h
    simp [blockIndex, floatValue_eight]
  · have : blockIndex u v ≠ 0 := by
      revert h; revert u v; decide
    rw [if_neg this, if_neg h, floatValue_zero]

theorem witness_DcOnlyBlockComesOutFlat :
    ∃ (impl : Vector Word 64 → Vector Word 64) (eps : Rat) (s : State) (d : Rat), IdctAccurate impl eps ∧
      InIdctDomain (block s .idctIn) ∧
      (∀ u v : Fin 8, coefficient (block s .idctIn) u v = if u = 0 ∧ v = 0 then d else 0) ∧ d = 8 :=
  ⟨_, _, dcBlock, 8, zeroTransform_accurate, dcBlock_domain, coefficient_dcBlock, rfl⟩

theorem witness_TransformIsSeparableAndInvertsTheForwardDct :
    (∃ (f : Fin 8 → Fin 8 → ℝ) (y : Fin 8) (rows : Fin 8 → ℝ), ∀ u, IsTransform1d (f u) y (rows u)) ∧
    (∃ f F : Fin 8 → Fin 8 → ℝ, (∀ u v, IsForwardDct f u v (F u v)) ∧ f = fun x y => (x.val : ℝ) - y.val) ∧
    ∃ (impl : Vector Word 64 → Vector Word 64) (eps : Rat) (s : State) (f F : Fin 8 → Fin 8 → ℝ) (delta : ℝ),
      IdctAccurate impl eps ∧ InIdctDomain (block s .idctIn) ∧ (∀ u v, IsForwardDct f u v (F u v)) ∧
        ∀ u v, |(coefficient (block s .idctIn) u v : ℝ) - F u v| ≤ delta := by
  refine ⟨⟨fun _ _ => 1, 0, _, fun _ => rfl⟩, ⟨_, _, fun _ _ => rfl, rfl⟩,
    ⟨_, _, dcBlock, fun _ _ => 0, fun _ _ => 0, 8, zeroTransform_accurate, dcBlock_domain,
      fun u v => by simp [IsForwardDct], fun u v => ?_⟩⟩
  rw [coefficient_dcBlock]
  split <;> norm_num

end Sys2Proof.Tests
end

section
/-! The invariant after power-on reset (70_reset_and_hazards.md R290): one lemma per clause that has something to say,
and the reset state assembled from them. -/

namespace Sys2Proof.Machine

/-- This block's open capacities lie in the ranges of 00_scope.md R7. -/
theorem paramsOk_configParams : ParamsOk Config.params := by
  simp only [ParamsOk, Config.params]
  omega

theorem cursorInv_reset (p : Params) : CursorInv p Cursor.reset where
  byte_le := Nat.zero_le _
  end_le := Nat.zero_le _
  inside h := absurd rfl h

/-- STATUS = 1 is OK with LAST_ERR = 0 and every other bit clear, whatever RESULT holds (10_state.md R32, R34). -/
theorem statusInv_of_status_eq_one {s : State} (h : s.status = 1#32) : StatusInv s where
  reserved i h12 h24 := by
    rw [h, BitVec.getLsbD_one, decide_eq_false (by omega : i ≠ 0), Bool.and_false]
  ok_iff := by rw [h]; decide
  code_le := by rw [h]; decide
  sentinel hne := absurd (by rw [h]; decide) hne

@[simp] theorem filter_active_resetWith (p : Params) (d : Nat) : (State.resetWith p d).filter.active = false := rfl

@[simp] theorem tree_resetWith (p : Params) (d : Nat) (slot : Fin 8) : (State.resetWith p d).tree slot = none := by
  simp [State.tree, State.resetWith]

/-- Only the capacities are assumed: the filter is inactive and no slot holds a table, so their clauses ask nothing. -/
theorem stateInv_resetWith {p : Params} (hp : ParamsOk p) (d : Nat) : StateInv (State.resetWith p d) where
  params := hp
  wf := Memory.wf_unwritten
  bounds := Memory.inBounds_unwritten p
  cursor := cursorInv_reset p
  filter := by simp
  lines := by simp
  status := statusInv_of_status_eq_one rfl
  depth := by simp

end Sys2Proof.Machine

namespace Sys2Proof.Proofs

open Sys2Proof.Machine

/-- Settles O52: the reset state meets the invariant under any capacities of R7, and this block's are such. -/
theorem invariantHoldsAtReset : Obligations.InvariantHoldsAtReset :=
  ⟨fun _ d hp => stateInv_resetWith hp d, stateInv_resetWith paramsOk_configParams 0⟩

end Sys2Proof.Proofs
end

section
/-! The invariant over one step (10_state.md R62): every host access keeps it, a command by `inv_exec`. -/

namespace Sys2Proof.Machine

/-- No clause of the invariant speaks of ARG, the filter's configuration registers, the queue or the answers. -/
theorem StateInv.of_hostFields {s t : State} (h : StateInv s)
    (ht : t = { s with arg := t.arg, sfWidth := t.sfWidth, sfHeight := t.sfHeight, sfBpp := t.sfBpp,
                       pending := t.pending, answers := t.answers }) : StateInv t := by
  rw [ht]
  exact {
    params := h.params
    wf := h.wf
    bounds := h.bounds
    cursor := h.cursor
    filter := h.filter
    lines := fun ha => ⟨(h.lines ha).cur, (h.lines ha).prev⟩
    status := statusInv_same h.status rfl rfl
    depth := h.depth }

theorem clampEnd_toNat {p : Params} (hp : ParamsOk p) (v : Word) :
    (clampEnd p v).toNat = min v.toNat p.streamSize := by
  obtain ⟨-, hs, -, -⟩ := hp
  unfold clampEnd
  split
  · omega
  · rw [BitVec.toNat_ofNat, Nat.mod_eq_of_lt (by omega)]; omega

theorem inv_runWord {s : State} (h : StateInv s) (w : Word) : KeepsInv (runWord w s) := by
  unfold runWord
  split
  · exact inv_exec h _
  · exact ⟨_, rfl, h.fail _⟩

theorem inv_hostWriteReg {s : State} (h : StateInv s) (r : Byte) (v : Word) : KeepsInv (hostWriteReg r v s) := by
  have hend : CursorInv s.params { s.cursor with endBound := clampEnd s.params v } :=
    ⟨h.cursor.byte_le, by rw [clampEnd_toNat h.params]; exact Nat.min_le_right .., h.cursor.inside⟩
  unfold hostWriteReg
  split_ifs
  · exact inv_runWord h v
  · exact ⟨_, rfl, h.of_status rfl (statusInv_clear h.status v rfl rfl)⟩
  · exact ⟨_, rfl, h.of_hostFields rfl⟩
  · exact ⟨_, rfl, h.withCursor hend⟩
  · exact ⟨_, rfl, h.of_hostFields rfl⟩
  · exact ⟨_, rfl, h.of_hostFields rfl⟩
  · exact ⟨_, rfl, h.of_hostFields rfl⟩
  · exact ⟨_, rfl, h⟩

/-- The ids of the byte spaces (10_state.md R57); the line buffers have none. -/
theorem spaceOf_eq_bytes_iff (id : Nat) (b : ByteBank) :
    spaceOf id = some (.bytes b) ↔ (id, b) ∈ [(0, ByteBank.stream), (1, .htLen), (2, .htSym), (5, .out)] := by
  unfold spaceOf
  split_ifs <;> simp_all [eq_comm]

/-- The ids of the binary32 spaces (10_state.md R57). -/
theorem spaceOf_eq_words_iff (id : Nat) (b : WordBank) :
    spaceOf id = some (.words b) ↔ (id, b) ∈ [(3, WordBank.idctIn), (4, .idctOut)] := by
  unfold spaceOf
  split_ifs <;> simp_all [eq_comm]

/-- A write to a byte bank that is no line buffer. -/
theorem StateInv.putByte {s : State} (h : StateInv s) {b : ByteBank} (hc : b ≠ .cur) (hp : b ≠ .prev) {i : Nat}
    (hi : i < byteBankSize s.params b) (v : Byte) : StateInv (s.putByte b i v) :=
  h.withMem (wf_putByte h.wf b i v) (inBounds_putByte h.bounds hi v)
    (by simpa [Memory.bytes, hc.symm] using Memory.bytes_setBytes s.mem b .cur (Store.put (s.mem.bytes b) i v))
    (by simpa [Memory.bytes, hp.symm] using Memory.bytes_setBytes s.mem b .prev (Store.put (s.mem.bytes b) i v))

theorem StateInv.putWord {s : State} (h : StateInv s) (b : WordBank) {i : Nat} (hi : i < wordBankSize) (v : Word) :
    StateInv (s.putWord b i v) :=
  h.withMem (wf_putWord h.wf b i v) (inBounds_putWord h.bounds b hi v) (by cases b <;> rfl) (by cases b <;> rfl)

theorem inv_hostWriteMem {s : State} (h : StateInv s) (id i : Nat) (v : Word) : StateInv (hostWriteMem id i v s) := by
  unfold hostWriteMem
  split
  · rename_i b hb
    have hb := (spaceOf_eq_bytes_iff id b).1 hb
    split
    · exact h.putByte (by rintro rfl; simp at hb) (by rintro rfl; simp at hb) ‹_› _
    · exact h
  · split
    · exact h.putWord _ ‹_› v
    · exact h
  · exact h
  · exact h

theorem inv_powerOnReset {s : State} (h : StateInv s) : StateInv (powerOnReset s) :=
  (stateInv_resetWith h.params (s.draw + 1)).of_hostFields rfl

theorem inv_performAccess {s : State} (h : StateInv s) (a : HostAccess) : KeepsInv (performAccess a s) := by
  cases a with
  | writeReg r v => exact inv_hostWriteReg h r v
  | readReg r => exact ⟨_, rfl, h.of_hostFields rfl⟩
  | writeMem id i v => exact ⟨_, rfl, inv_hostWriteMem h id i v⟩
  | readMem id i => exact ⟨_, rfl, h.of_hostFields rfl⟩
  | powerOn => exact ⟨_, rfl, inv_powerOnReset h⟩

theorem step_of_pending {s : State} {a : HostAccess} {rest : List HostAccess} (h : s.pending = a :: rest) :
    step s = performAccess a { s with pending := rest } := by
  simp only [step, h]

theorem step_of_idle {s : State} (h : s.pending = []) : step s = .next s := by
  simp only [step, h]

/-- From a state that meets the invariant a step answers a next state, and that state meets it. -/
theorem inv_step {s : State} (h : StateInv s) : KeepsInv (step s) := by
  cases hp : s.pending with
  | nil => exact ⟨s, step_of_idle hp, h⟩
  | cons a rest =>
    rw [step_of_pending hp]
    exact inv_performAccess (h.of_hostFields rfl) a

end Sys2Proof.Machine

namespace Sys2Proof.Proofs

open Sys2Proof.Machine

/-- Settles O53, by the kind of the access performed. -/
theorem everyStepKeepsTheInvariant : Obligations.EveryStepKeepsTheInvariant := by
  intro s t h hst
  obtain ⟨t', hst', ht'⟩ := inv_step h
  cases hst.symm.trans hst'
  exact ht'

end Sys2Proof.Proofs
end

section
/-! The host's accesses (20_memory.md R76 to R80): the step that performs one, and what each register write, register
read and memory access does. -/

namespace Sys2Proof.Machine

theorem hostWriteReg_command {w : Word} {i : Instr} (h : decode w = .ok i) (s : State) :
    hostWriteReg 0#8 w s = exec i s := by
  simp only [hostWriteReg, runWord, if_pos, h]

/-- The registers a host write reaches (10_state.md R32). -/
def writableRegisters : List Byte := [0#8, 1#8, 3#8, 7#8, 9#8, 10#8, 11#8]

theorem hostWriteReg_of_not_mem {r : Byte} (h : r ∉ writableRegisters) (v : Word) (s : State) :
    hostWriteReg r v s = .next s := by
  simp only [writableRegisters, List.mem_cons, List.not_mem_nil, or_false, not_or] at h
  simp only [hostWriteReg, h, if_false]

/-- The registers with a value to read (10_state.md R32). -/
def readableRegisters : List Byte :=
  [1#8, 2#8, 3#8, 4#8, 5#8, 6#8, 7#8, 8#8, 9#8, 10#8, 11#8, 12#8, 13#8, 14#8, 15#8, 16#8]

theorem hostReadReg_of_not_mem {r : Byte} (h : r ∉ readableRegisters) (s : State) : hostReadReg r s = 0#32 := by
  simp only [readableRegisters, List.mem_cons, List.not_mem_nil, or_false, not_or] at h
  simp only [hostReadReg, h, if_false]

/-- STATUS after a host write, as a choice: cleared where the value selects a sticky bit (10_state.md R34). -/
theorem getLsbD_statusClear_ite (v st : Word) (i : Nat) :
    (statusClear v st).getLsbD i = if 1 ≤ i ∧ i ≤ 11 ∧ v.getLsbD i = true then false else st.getLsbD i := by
  have hsel : (decide (1 ≤ i) && decide (i ≤ 11) && v.getLsbD i) =
      decide (1 ≤ i ∧ i ≤ 11 ∧ v.getLsbD i = true) := by
    simp [Bool.and_assoc]
  rw [getLsbD_statusClear, hsel]
  by_cases h : 1 ≤ i ∧ i ≤ 11 ∧ v.getLsbD i = true
  · rw [if_pos h, decide_eq_true h, Bool.not_true, Bool.and_false]
  · rw [if_neg h, decide_eq_false h, Bool.not_false, Bool.and_true]

/-! HT_VALID. -/

/-- A bit of HT_VALID as it is assembled: one that was set before, or that of a filled slot of the list. -/
theorem getLsbD_foldl_htValid (s : State) (slots : List (Fin 8)) (w : Word) (i : Nat) :
    (slots.foldl (fun w slot => if (s.tree slot).isSome then w ||| (1#32 <<< slot.val) else w) w).getLsbD i =
      (w.getLsbD i || slots.any fun slot => slot.val == i && (s.tree slot).isSome) := by
  induction slots generalizing w with
  | nil => simp
  | cons slot slots ih =>
    have hbit : (1#32 <<< slot.val).getLsbD i = (slot.val == i) := by
      have hlt := slot.isLt
      simp only [BitVec.getLsbD_shiftLeft, BitVec.getLsbD_one]
      rw [Bool.eq_iff_iff]
      simp
      omega
    rw [List.foldl_cons, ih, List.any_cons]
    split
    · rename_i hs
      simp [hs, hbit, Bool.or_assoc]
    · rename_i hs
      simp [hs]

/-- Bit `i` of HT_VALID is set exactly for a slot `i` that holds a table (10_state.md R42). -/
theorem getLsbD_htValid (s : State) (i : Nat) :
    (htValid s).getLsbD i = (List.finRange 8).any fun slot => slot.val == i && (s.tree slot).isSome := by
  rw [htValid, getLsbD_foldl_htValid]
  simp

theorem getLsbD_htValid_slot (s : State) (slot : Fin 8) : (htValid s).getLsbD slot.val = (s.tree slot).isSome := by
  rw [getLsbD_htValid, Bool.eq_iff_iff, List.any_eq_true]
  simp only [Bool.and_eq_true, beq_iff_eq, List.mem_finRange, true_and, Fin.val_inj]
  exact ⟨fun ⟨_, he, hs⟩ => he ▸ hs, fun hs => ⟨slot, rfl, hs⟩⟩

theorem getLsbD_htValid_reserved (s : State) {i : Nat} (hi : 8 ≤ i) : (htValid s).getLsbD i = false := by
  rw [getLsbD_htValid, List.any_eq_false]
  intro slot _
  have := slot.isLt
  simp only [Bool.and_eq_true, beq_iff_eq]
  omega

/-! Memory accesses. -/

section
variable {id i : Nat} {b : ByteBank} {s : State}

theorem hostReadMem_bytes (hb : spaceOf id = some (.bytes b)) (hi : i < byteBankSize s.params b) :
    hostReadMem id i s = (s.byteAt b i).setWidth 32 := by
  simp only [hostReadMem, hb, if_pos hi]

theorem hostWriteMem_bytes (hb : spaceOf id = some (.bytes b)) (hi : i < byteBankSize s.params b) (v : Word) :
    hostWriteMem id i v s = s.putByte b i (v.extractLsb' 0 8) := by
  simp only [hostWriteMem, hb, if_pos hi]

end

theorem hostReadMem_words {id i : Nat} {b : WordBank} (hb : spaceOf id = some (.words b)) (hi : i < 64) (s : State) :
    hostReadMem id i s = s.wordAt b i := by
  simp only [hostReadMem, hb, wordBankSize, hi, if_true]

theorem hostWriteMem_idctIn {i : Nat} (hi : i < 64) (v : Word) (s : State) :
    hostWriteMem 3 i v s = s.putWord .idctIn i v :=
  if_pos hi

/-- A host write to memory changes memory alone. -/
theorem hostWriteMem_eq (id i : Nat) (v : Word) (s : State) :
    hostWriteMem id i v s = { s with mem := (hostWriteMem id i v s).mem } := by
  unfold hostWriteMem
  split
  · split <;> rfl
  · split <;> rfl
  · rfl
  · rfl

end Sys2Proof.Machine

namespace Sys2Proof.Proofs

open Sys2Proof.Machine

/-- Settles O59, space by space: an access inside a space is a read or a write of one element of its bank. -/
theorem hostReadAfterWrite : Obligations.HostReadAfterWrite := by
  intro s id i v
  refine ⟨fun b hb hi => ?_, fun b hb hi => ?_, fun b hb hi => ?_, ?_, hostWriteMem_eq id i v s⟩
  · exact hostReadMem_bytes ((spaceOf_eq_bytes_iff id b).2 hb) hi
  · exact hostReadMem_words ((spaceOf_eq_words_iff id b).2 hb) hi s
  · have hb := (spaceOf_eq_bytes_iff id b).2 hb
    rw [hostWriteMem_bytes hb hi, hostReadMem_bytes hb (by simpa using hi)]
    refine ⟨by simp [byteAt_putByte], fun b' k hk => ?_, fun b' k => wordAt_putByte ..⟩
    rw [byteAt_putByte, if_neg hk]
  · rintro rfl hi
    rw [hostWriteMem_idctIn hi, hostReadMem_words (b := .idctIn) rfl hi]
    refine ⟨by simp [wordAt_putWord], fun b' k hk => ?_, fun b' k => byteAt_putWord ..⟩
    rw [wordAt_putWord, if_neg hk]

/-- Settles O58, bit by bit of the fold that assembles HT_VALID. -/
theorem htValidShowsTheBuiltSlots : Obligations.HtValidShowsTheBuiltSlots :=
  fun s => ⟨getLsbD_htValid_slot s, fun _ hi => getLsbD_htValid_reserved s hi⟩

/-- Settles O6: each clause names the oldest access of the queue. -/
theorem stepRunsTheDecodedCommand : Obligations.StepRunsTheDecodedCommand :=
  ⟨fun _ _ _ _ hp hd => (step_of_pending hp).trans (hostWriteReg_command hd _),
    fun _ _ _ _ hp => step_of_pending hp, fun _ _ _ _ _ hp => step_of_pending hp, fun _ hp => step_of_idle hp⟩

/-- Settles O55, with BC_END and STATUS by what their updates do to the value. -/
theorem hostRegisterWrites : Obligations.HostRegisterWrites := fun s v hp =>
  ⟨rfl, rfl, rfl, rfl, ⟨_, rfl, clampEnd_toNat hp v, rfl⟩, ⟨_, rfl, rfl, getLsbD_statusClear_ite v s.status⟩⟩

/-- Settles O56: a register that ignores writes or reads 0 is none of those that have a branch of their own. -/
theorem readOnlyRegistersIgnoreWrites : Obligations.ReadOnlyRegistersIgnoreWrites := by
  intro s r v
  have hwrite : ∀ x ∈ writableRegisters,
      x ∉ [2#8, 4#8, 5#8, 6#8, 8#8, 12#8, 13#8, 14#8, 15#8, 16#8] ∧ x.toNat < 17 := by decide
  have hread : ∀ x ∈ readableRegisters, x ≠ 0#8 ∧ x.toNat < 17 := by decide
  constructor
  · refine fun hr => hostWriteReg_of_not_mem (fun hmem => ?_) v s
    obtain ⟨hlist, hlt⟩ := hwrite r hmem
    exact hr.elim hlist (Nat.not_le_of_lt hlt)
  · refine fun hr => hostReadReg_of_not_mem (fun hmem => ?_) s
    obtain ⟨hzero, hlt⟩ := hread r hmem
    exact hr.elim hzero (Nat.not_le_of_lt hlt)

/-- Settles O57: a read register by register, and the read as a step. -/
theorem hostReadsHaveNoSideEffect : Obligations.HostReadsHaveNoSideEffect := by
  refine ⟨fun s => ⟨rfl, rfl, rfl, rfl, ?_, rfl, rfl, rfl, rfl, rfl, rfl, rfl, ?_, rfl, rfl⟩,
    fun s rest => ⟨fun r hp => step_of_pending hp, fun id i hp => ?_⟩⟩
  · change (s.cursor.bit.setWidth 32).toNat = s.cursor.bit.toNat
    exact BitVec.toNat_setWidth_of_le (by decide)
  · change (s.filter.tag.setWidth 32).toNat = s.filter.tag.toNat
    exact BitVec.toNat_setWidth_of_le (by decide)
  · exact step_of_pending hp

end Sys2Proof.Proofs
end

section
/-! How a command other than SRESET ends (60_exceptions.md R261, R262): it changes its own unit and then reports, by the
success procedure, with or without a value in RESULT, or by the error procedure. Said once of every command; the rules
about all commands follow. -/

namespace Sys2Proof.Machine

/-- The four commands that return a value in RESULT (10_state.md R36). -/
def returnsValue : Instr → Bool
  | .bcRead _ => true
  | .bcReadX _ => true
  | .bcExt _ => true
  | .htDecode _ _ => true
  | _ => false

/-- The fields only the host writes (10_state.md R37, R41, R43 to R45) and the model's own are in `t` as in `s`. -/
def HostFieldsSame (s t : State) : Prop :=
  t.arg = s.arg ∧ t.cursor.endBound = s.cursor.endBound ∧ t.sfWidth = s.sfWidth ∧ t.sfHeight = s.sfHeight ∧
    t.sfBpp = s.sfBpp ∧ t.params = s.params ∧ t.draw = s.draw ∧ t.pending = s.pending ∧ t.answers = s.answers

theorem HostFieldsSame.refl (s : State) : HostFieldsSame s s := ⟨rfl, rfl, rfl, rfl, rfl, rfl, rfl, rfl, rfl⟩

/-- `u` is `s` after the work of command `i`, before it reports. -/
structure Worked (i : Instr) (s u : State) : Prop where
  status : u.status = s.status
  result : u.result = s.result
  host : HostFieldsSame s u
  mem : i ≠ .idct → (∀ b, i ≠ .sfPush b) → u.mem = s.mem

/-- What command `i` can report in a state `u`. -/
inductive Reported (i : Instr) (u : State) : State → Prop
  | ok : Reported i u (succeed u)
  | value (v : Word) (hv : returnsValue i = true) : Reported i u (succeedWith v u)
  | error (c : ErrCode) : Reported i u (fail c u)

theorem Worked.refl (i : Instr) (s : State) : Worked i s s := ⟨rfl, rfl, .refl s, fun _ _ => rfl⟩

theorem Worked.withCursor (i : Instr) (s : State) {c : Cursor} (hc : c.endBound = s.cursor.endBound) :
    Worked i s (s.withCursor c) :=
  ⟨rfl, rfl, ⟨rfl, hc, rfl, rfl, rfl, rfl, rfl, rfl, rfl⟩, fun _ _ => rfl⟩

theorem Worked.withFilter (i : Instr) (s : State) (f : FilterUnit) : Worked i s (s.withFilter f) :=
  ⟨rfl, rfl, .refl s, fun _ _ => rfl⟩

theorem Worked.withTree (i : Instr) (s : State) (slot : Fin 8) (r : Option Root) : Worked i s (s.withTree slot r) :=
  ⟨rfl, rfl, .refl s, fun _ _ => rfl⟩

theorem Worked.writeBlock (s : State) (y : Vector Word 64) : Worked .idct s (writeBlock y s) where
  status := writeBlock_status y s
  result := writeBlock_result y s
  host := by simp [HostFieldsSame]
  mem h _ := absurd rfl h

theorem Worked.advanced_stored (b : Byte) (s : State) (r c : Nat) (x : Byte) :
    Worked (.sfPush b) s (advanced (stored s r c x) r c) := by
  have hu := advanced_eq (stored s r c x) r c
  have hw := stored_eq s r c x
  generalize advanced (stored s r c x) r c = u at *
  generalize stored s r c x = w at *
  rw [hu, hw]
  exact ⟨rfl, rfl, .refl s, fun _ hp => absurd rfl (hp b)⟩

theorem readCommand_reported {i : Instr} (hv : returnsValue i = true) {n : Nat} {post : Nat → Word} {s t : State}
    (h : readCommand n post s = .next t) : ∃ u, Worked i s u ∧ Reported i u t := by
  rcases readCommand_cases h with ⟨-, rfl⟩ | ⟨-, -, rfl⟩ | ⟨-, -, -, rfl⟩ | ⟨-, -, -, v, c, hr, rfl⟩
  · exact ⟨s, .refl .., .error _⟩
  · exact ⟨s, .refl .., .error _⟩
  · exact ⟨s.invalidateCursor, .withCursor i s rfl, .error _⟩
  · exact ⟨s.withCursor c, .withCursor i s (readBits_ok hr).2, .value _ hv⟩

theorem buildSlot_reported (i : Instr) (slot : Fin 8) (s : State) :
    ∃ u, Worked i s u ∧ Reported i u (buildSlot slot s) := by
  rcases buildSlot_cases slot s with ⟨-, h⟩ | ⟨-, h⟩ | ⟨-, -, -, h⟩ | ⟨-, -, r, -, h⟩ <;> rw [h]
  · exact ⟨_, .withTree i s slot none, .error _⟩
  · exact ⟨_, .withTree i s slot none, .error _⟩
  · exact ⟨_, .withTree i s slot none, .error _⟩
  · exact ⟨_, .withTree i s slot (some r), .ok⟩

theorem decodeSlot_reported {i : Instr} (hv : returnsValue i = true) {slot : Fin 8} {s t : State}
    (h : decodeSlot slot s = .next t) : ∃ u, Worked i s u ∧ Reported i u t := by
  rcases decodeSlot_cases h with ⟨-, rfl⟩ | ⟨r, -, -, rfl⟩ | ⟨r, e, c, -, -, hw, rfl⟩
  · exact ⟨s, .refl .., .error _⟩
  · exact ⟨s, .refl .., .error _⟩
  · have hend := (walk_ok hw).2
    rcases endWalk_cases s e c with ⟨sym, -, h⟩ | ⟨-, h⟩ | ⟨-, h⟩ <;> rw [h]
    · exact ⟨_, .withCursor i s hend, .value _ hv⟩
    · exact ⟨(s.withCursor c).invalidateCursor, .withCursor i s hend, .error _⟩
    · exact ⟨(s.withCursor c).invalidateCursor, .withCursor i s hend, .error _⟩

theorem execIdct_reported {s t : State} (h : execIdct s = .next t) :
    ∃ u, Worked .idct s u ∧ Reported .idct u t := by
  rw [execIdct_cases h]
  exact ⟨_, .writeBlock s _, .ok⟩

theorem execSfPush_reported {b : Byte} {s t : State} (h : execSfPush b s = .next t) :
    ∃ u, Worked (.sfPush b) s u ∧ Reported (.sfPush b) u t := by
  rcases execSfPush_cases h with ⟨-, rfl⟩ | ⟨-, -, rfl⟩ | ⟨-, -, -, rfl⟩ | ⟨-, -, -, u, hu, rfl⟩
  · exact ⟨s, .refl .., .error _⟩
  · exact ⟨s, .refl .., .error _⟩
  · rcases tagByte_cases b s with ⟨type, -, h⟩ | ⟨-, h⟩ <;> rw [h]
    · exact ⟨_, .withFilter .., .ok⟩
    · exact ⟨_, .withFilter .., .error _⟩
  · obtain ⟨n, -, rfl⟩ := dataByte_ok hu
    exact ⟨_, .advanced_stored .., .ok⟩

/-- Every command but SRESET does its work and then reports once. -/
theorem exec_reported {i : Instr} {s t : State} (hi : i ≠ .sreset) (h : exec i s = .next t) :
    ∃ u, Worked i s u ∧ Reported i u t := by
  cases i with
  | nop => obtain rfl := execNop_cases h; exact ⟨s, .refl .., .ok⟩
  | sreset => exact absurd rfl hi
  | bcLoad =>
    rcases execBcLoad_cases h with ⟨-, rfl⟩ | ⟨-, rfl⟩
    · exact ⟨s, .refl .., .error _⟩
    · refine ⟨_, ?_, .ok⟩
      exact .withCursor _ s rfl
  | bcRead n => exact readCommand_reported rfl h
  | bcReadX n => exact readCommand_reported rfl h
  | bcAlign =>
    rcases execBcAlign_cases h with ⟨-, rfl⟩ | ⟨-, rfl⟩
    · exact ⟨s, .refl .., .error _⟩
    · exact ⟨_, .withCursor _ s (by unfold Cursor.align; split <;> rfl), .ok⟩
  | bcExt n =>
    rcases execBcExt_cases h with ⟨-, rfl⟩ | ⟨-, rfl⟩
    · exact ⟨s, .refl .., .error _⟩
    · exact ⟨s, .refl .., .value _ rfl⟩
  | htBuild cls dst =>
    rw [execHtBuild_cases h]
    exact buildSlot_reported _ _ s
  | htDecode cls dst => exact decodeSlot_reported rfl h
  | idct => exact execIdct_reported h
  | sfInit =>
    rcases execSfInit_cases h with ⟨-, rfl⟩ | ⟨-, rfl⟩
    · exact ⟨_, .withFilter .., .ok⟩
    · exact ⟨_, .withFilter .., .error _⟩
  | sfPush b => exact execSfPush_reported h

/-! STATUS and RESULT. -/

/-- STATUS and RESULT after a command but SRESET: as the success procedure leaves them, RESULT kept unless the command
returns a value, or as the error procedure of one code leaves them. -/
theorem exec_status {i : Instr} {s t : State} (hi : i ≠ .sreset) (h : exec i s = .next t) :
    (t.status = statusSucceed s.status ∧ (returnsValue i = false → t.result = s.result)) ∨
      ∃ c, t.status = statusFail c s.status ∧ t.result = sentinel := by
  obtain ⟨u, hu, hr⟩ := exec_reported hi h
  cases hr with
  | ok => exact .inl ⟨by simp [hu.status], fun _ => hu.result⟩
  | value v hv => exact .inl ⟨by simp [hu.status], fun hn => by simp [hv] at hn⟩
  | error c => exact .inr ⟨c, by simp [hu.status], rfl⟩

/-- The code, number and STATUS bit of every error code stand in the table of 60_exceptions.md R260. -/
theorem mem_errorTable (c : ErrCode) : (c, c.number, c.stickyBit) ∈ errorTable := by
  cases c <;> decide

theorem ErrCode.number_ne_zero (c : ErrCode) : c.number ≠ 0#8 := by
  cases c <;> decide

theorem execSreset_status {s t : State} (h : execSreset s = .next t) : t.status = statusSucceed 0#32 := by
  cases h; rfl

theorem execSreset_hostFieldsSame {s t : State} (h : execSreset s = .next t) : HostFieldsSame s t := by
  cases h; exact .refl s

theorem execSreset_mem {s t : State} (h : execSreset s = .next t) : t.mem = s.mem := by
  cases h; rfl

/-- No error is recorded exactly when bits 1 to 11 of STATUS are 0 (10_state.md R35). -/
theorem noErrorRecorded_iff (s : State) :
    NoErrorRecorded s ↔ ∀ i, 1 ≤ i → i ≤ 11 → s.status.getLsbD i = false := by
  have hmask : ∀ i : Fin 32, stickyMask.getLsbD i.val = decide (1 ≤ i.val ∧ i.val ≤ 11) := by decide
  constructor
  · intro h i h1 h11
    have hbit := congrArg (·.getLsbD i) h
    simpa [hmask ⟨i, by omega⟩, h1, h11] using hbit
  · intro h
    refine BitVec.eq_of_getLsbD_eq fun i hi => ?_
    rw [BitVec.getLsbD_and, hmask ⟨i, hi⟩, BitVec.getLsbD_zero]
    by_cases hs : 1 ≤ i ∧ i ≤ 11
    · rw [h i hs.1 hs.2, Bool.false_and]
    · rw [decide_eq_false hs, Bool.and_false]

/-! What is left alone. -/

theorem exec_hostFieldsSame {i : Instr} {s t : State} (h : exec i s = .next t) : HostFieldsSame s t := by
  by_cases hi : i = .sreset
  · subst hi
    exact execSreset_hostFieldsSame h
  · obtain ⟨u, hu, hr⟩ := exec_reported hi h
    cases hr <;> exact hu.host

/-- A command other than IDCT and SF.PUSH writes no memory. -/
theorem exec_memorySame {i : Instr} {s t : State} (hi : i ≠ .idct) (hp : ∀ b, i ≠ .sfPush b)
    (h : exec i s = .next t) : MemorySame s t := by
  obtain ⟨-, -, -, -, -, -, hdraw, -, -⟩ := exec_hostFieldsSame h
  refine memorySame_of_mem_eq ?_ hdraw
  by_cases hs : i = .sreset
  · subst hs
    exact execSreset_mem h
  · obtain ⟨u, hu, hr⟩ := exec_reported hs h
    have hmem := hu.mem hi hp
    cases hr <;> exact hmem

/-- IDCT writes no byte bank, and IDCT_OUT alone of the binary32 banks (44_idct.md R240). -/
theorem execIdct_memory {s t : State} (h : execIdct s = .next t) : (∀ b, BankSame b s t) ∧ WordsSame .idctIn s t := by
  obtain rfl := execIdct_cases h
  exact ⟨fun b i => by simp, fun i => by simp [wordAt_writeBlock]⟩

/-- SF.PUSH writes OUT and the line buffers alone (20_memory.md R75). -/
theorem execSfPush_memory {b : Byte} {s t : State} (h : execSfPush b s = .next t) :
    (∀ bank, bank ≠ .out → bank ≠ .cur → bank ≠ .prev → BankSame bank s t) ∧ ∀ bank, WordsSame bank s t := by
  rcases execSfPush_cases h with ⟨-, rfl⟩ | ⟨-, -, rfl⟩ | ⟨-, -, -, rfl⟩ | ⟨-, -, -, u, hu, rfl⟩
  · exact ⟨fun _ _ _ _ _ => rfl, fun _ _ => rfl⟩
  · exact ⟨fun _ _ _ _ _ => rfl, fun _ _ => rfl⟩
  · rcases tagByte_cases b s with ⟨type, -, h⟩ | ⟨-, h⟩ <;> rw [h]
    · exact ⟨fun _ _ _ _ _ => rfl, fun _ _ => rfl⟩
    · exact ⟨fun _ _ _ _ _ => rfl, fun _ _ => rfl⟩
  · obtain ⟨n, -, rfl⟩ := dataByte_ok hu
    refine ⟨fun bank hout hcur hprev i => ?_, fun bank i => ?_⟩
    · simp [byteAt_advanced, byteAt_stored, hout, hcur, hprev]
    · simp [wordAt_advanced, wordAt_stored]

end Sys2Proof.Machine

namespace Sys2Proof.Proofs

open Sys2Proof.Machine

/-- Settles O9, by the two ways a command reports. -/
theorem aCommandReportsOneCode : Obligations.ACommandReportsOneCode := by
  intro i s t hi h
  rcases exec_status hi h with ⟨hst, -⟩ | ⟨c, hst, hr⟩
  · exact .inl (succeeded_of_status hst)
  · exact .inr ⟨_, mem_errorTable c, failed_of_status c hst hr⟩

/-- Settles O10: a failure would have left its sticky bit, and success changes none. -/
theorem noErrorRecordedMeansSuccess : Obligations.NoErrorRecordedMeansSuccess := by
  intro i s t hi h hclean
  rw [noErrorRecorded_iff] at hclean ⊢
  rcases exec_status hi h with ⟨hst, -⟩ | ⟨c, hst, -⟩
  · refine ⟨fun j h1 h11 => ?_, succeeded_of_status hst⟩
    rw [← statusSucceed_keeps s.status h1 (by omega), ← hst]
    exact hclean j h1 h11
  · obtain ⟨h1, h11⟩ := c.stickyBit_range
    have hset := statusFail_sets c s.status
    rw [← hst, hclean _ h1 h11] at hset
    exact absurd hset (by decide)

/-- Settles O11: SRESET reports success in a cleared STATUS, any other command by one of the two procedures. -/
theorem failedCommandLeavesTheSentinel : Obligations.FailedCommandLeavesTheSentinel := by
  intro i s t h
  by_cases hi : i = .sreset
  · subst hi
    simp [execSreset_status h]
  · rcases exec_status hi h with ⟨hst, -⟩ | ⟨c, hst, hr⟩
    · simp [hst]
    · exact ⟨by simp [hst, c.number_ne_zero], fun _ => hr⟩

/-- Settles O12: such a command returns no value, and LAST_ERR = 0 rules out the error procedure. -/
theorem otherCommandsKeepResult : Obligations.OtherCommandsKeepResult := by
  intro i s t hi hread hreadx hext hdecode h hok
  have hv : returnsValue i = false := by
    cases i with
    | bcRead n => exact absurd rfl (hread n)
    | bcReadX n => exact absurd rfl (hreadx n)
    | bcExt n => exact absurd rfl (hext n)
    | htDecode c d => exact absurd rfl (hdecode c d)
    | _ => rfl
  rcases exec_status hi h with ⟨-, hr⟩ | ⟨c, hst, -⟩
  · exact hr hv
  · rw [hst, lastErr_statusFail] at hok
    exact absurd hok c.number_ne_zero

/-- Settles O47: only IDCT and SF.PUSH write memory, each its own banks. -/
theorem commandsWriteOnlyTheirOwnMemory : Obligations.CommandsWriteOnlyTheirOwnMemory := by
  intro i s t h
  by_cases hidct : i = .idct
  · subst hidct
    obtain ⟨hbytes, hin⟩ := execIdct_memory h
    exact ⟨hbytes _, hbytes _, hbytes _, hin, fun hne => absurd rfl hne, fun _ => ⟨hbytes _, hbytes _, hbytes _⟩⟩
  · by_cases hpush : ∃ b, i = .sfPush b
    · obtain ⟨b, rfl⟩ := hpush
      obtain ⟨hbytes, hwords⟩ := execSfPush_memory h
      exact ⟨hbytes _ (by decide) (by decide) (by decide), hbytes _ (by decide) (by decide) (by decide),
        hbytes _ (by decide) (by decide) (by decide), hwords _, fun _ => hwords _, fun hne => absurd rfl (hne b)⟩
    · obtain ⟨hbytes, hwords⟩ := exec_memorySame hidct (fun b hb => hpush ⟨b, hb⟩) h
      exact ⟨hbytes _, hbytes _, hbytes _, hwords _, fun _ => hwords _, fun _ => ⟨hbytes _, hbytes _, hbytes _⟩⟩

/-- Settles O48. -/
theorem commandsNeverWriteHostRegisters : Obligations.CommandsNeverWriteHostRegisters :=
  fun _ _ _ h => exec_hostFieldsSame h

end Sys2Proof.Proofs
end

section
/-! The filter round trip (43_scanline.md R229). A row is pushed byte by byte; `MidRow` says what the tag and the first
`c` filtered bytes have left, `RowDone` what the whole row leaves, and one data byte leads from `MidRow` at `c` to `MidRow`
at `c + 1` or, at the end of the line, to `RowDone`. -/

namespace Sys2Proof.Machine

/-! One row of the image, byte by byte. -/

/-- The first `n` bytes of the scanline `x` stand in CUR and in row `r` of OUT, each whole truecolour pixel with its alpha
byte (43_scanline.md R223, R224). -/
structure Rebuilt (bpp w r : Nat) (x : Nat → Byte) (n : Nat) (u : State) : Prop where
  cur : ∀ i, i < n → u.byteAt .cur i = x i
  out : ∀ i, i < n → u.byteAt .out (r * (4 * w) + 4 * (i / bpp) + i % bpp) = x i
  alpha : bpp = 3 → ∀ p, 3 * p + 2 < n → u.byteAt .out (r * (4 * w) + 4 * p + 3) = 255#8

theorem Rebuilt.zero (bpp w r : Nat) (x : Nat → Byte) (u : State) : Rebuilt bpp w r x 0 u :=
  ⟨fun _ h => absurd h (Nat.not_lt_zero _), fun _ h => absurd h (Nat.not_lt_zero _),
    fun _ _ h => absurd h (Nat.not_lt_zero _)⟩

/-- Only CUR and OUT matter. -/
theorem Rebuilt.congr {bpp w r n : Nat} {x : Nat → Byte} {u v : State} (h : Rebuilt bpp w r x n u)
    (hcur : BankSame .cur u v) (hout : BankSame .out u v) : Rebuilt bpp w r x n v where
  cur i hi := (hcur i).trans (h.cur i hi)
  out i hi := (hout _).trans (h.out i hi)
  alpha hb p hp := (hout _).trans (h.alpha hb p hp)

theorem outIndex_ne {f : FilterUnit} (hb : f.bpp.toNat = 3 ∨ f.bpp.toNat = 4) (r : Nat) {i c : Nat} (h : i ≠ c) :
    outIndex f r i ≠ outIndex f r c := by
  unfold outIndex
  rcases hb with hb | hb <;> rw [hb] <;> omega

/-- No channel of a truecolour pixel lies at an alpha byte. -/
theorem outIndex_ne_alpha {f : FilterUnit} (hb : f.bpp.toNat = 3) (r i p : Nat) :
    outIndex f r i ≠ r * (4 * f.width.toNat) + 4 * p + 3 := by
  unfold outIndex
  rw [hb]
  omega

theorem writesAlpha_iff (f : FilterUnit) (c : Nat) : writesAlpha f c = true ↔ f.bpp.toNat = 3 ∧ c % 3 = 2 := by
  simp [writesAlpha]

/-- Storing byte `c` of a row rebuilds one byte more. -/
theorem rebuilt_stored {u : State} {r c : Nat} {x : Nat → Byte} (hb : u.filter.bpp.toNat = 3 ∨ u.filter.bpp.toNat = 4)
    (h : Rebuilt u.filter.bpp.toNat u.filter.width.toNat r x c u) :
    Rebuilt u.filter.bpp.toNat u.filter.width.toNat r x (c + 1) (stored u r c (x c)) where
  cur i hi := by
    by_cases hic : i = c
    · simp [byteAt_stored, hic]
    · simpa [byteAt_stored, hic] using h.cur i (by omega)
  out i hi := by
    have halpha : ¬ (writesAlpha u.filter c = true ∧ outIndex u.filter r i = alphaIndex u.filter r c) :=
      fun ⟨hw, he⟩ => outIndex_ne_alpha ((writesAlpha_iff ..).1 hw).1 r i _ he
    change (stored u r c (x c)).byteAt .out (outIndex u.filter r i) = x i
    rw [byteAt_stored, if_neg fun hc => halpha hc.2]
    by_cases hic : i = c
    · subst hic; simp
    · rw [if_neg fun hc => outIndex_ne hb r hic hc.2, if_neg fun hc => absurd hc.1 (by decide)]
      exact h.out i (by omega)
  alpha hb3 p hp := by
    have hplace := outIndex_ne_alpha hb3 r c p
    rw [byteAt_stored]
    by_cases hpc : 3 * p + 2 = c
    · rw [if_pos ⟨rfl, (writesAlpha_iff ..).2 ⟨hb3, by omega⟩, by unfold alphaIndex; rw [hb3]; omega⟩]
    · split
      · rfl
      · simpa [hplace.symm] using h.alpha hb3 p (by omega)

/-! One data byte. -/

theorem bankSame_advanced (u : State) (r c : Nat) {b : ByteBank} (hb : b ≠ .prev) : BankSame b u (advanced u r c) := by
  intro i
  simp [byteAt_advanced, hb]

theorem advanced_filter_of_ne {u : State} {r c : Nat} (h : c + 1 ≠ u.filter.line.toNat) :
    (advanced u r c).filter = { u.filter with col := BitVec.ofNat 32 (c + 1) } := by
  rw [advanced, if_neg h, withFilter_filter]

theorem advanced_filter_of_eq {u : State} {r c : Nat} (h : c + 1 = u.filter.line.toNat) :
    (advanced u r c).filter = { u.filter with col := tagNext, row := BitVec.ofNat 32 (r + 1) } := by
  rw [advanced, if_pos h, withFilter_filter]

/-- The machine's neighbours are those of the scanlines its line buffers hold. -/
theorem neighboursOf_eq_rowNeighbours {u : State} {c : Nat} {x p : Nat → Byte} (r : Nat)
    (hb : 1 ≤ u.filter.bpp.toNat) (hx : ∀ i, i < c → u.byteAt .cur i = x i) (hp : ∀ i, u.byteAt .prev i = p i) :
    neighboursOf u r c = rowNeighbours u.filter.bpp.toNat (r == 0) x p c := by
  have ha : u.filter.bpp.toNat ≤ c → u.byteAt .cur (c - u.filter.bpp.toNat) = x (c - u.filter.bpp.toNat) :=
    fun hle => hx _ (by omega)
  by_cases hle : u.filter.bpp.toNat ≤ c <;> by_cases hr : r = 0
  · simp [neighboursOf, rowNeighbours, hle, hr, ha hle]
  · simp [neighboursOf, rowNeighbours, hle, hr, ha hle, hp, Nat.one_le_iff_ne_zero]
  · simp [neighboursOf, rowNeighbours, hle, hr]
  · simp [neighboursOf, rowNeighbours, hle, hr, hp, Nat.one_le_iff_ne_zero]

/-- Byte `c` of the scanline `x`, filtered against PREV by the forward rule of `type` (43_scanline.md R229). -/
def filteredByte (s : State) (type : FilterType) (x : Nat → Byte) (c : Nat) : Byte :=
  x c - predictor type (rowNeighbours s.filter.bpp.toNat (s.filter.row.toNat == 0) x (s.byteAt .prev) c)

/-! The row. -/

/-- `u` is `s`, which stood before a row, after the row's tag and its first `c` filtered bytes. -/
structure MidRow (s : State) (tag : Byte) (type : FilterType) (x : Nat → Byte) (c : Nat) (u : State) : Prop where
  inv : StateInv u
  filter : u.filter = { s.filter with tag := tag, filterType := type, col := BitVec.ofNat 32 c }
  prev : BankSame .prev s u
  rebuilt : Rebuilt s.filter.bpp.toNat s.filter.width.toNat s.filter.row.toNat x c u

/-- `t` is `s`, which stood before a row, after the whole row. -/
structure RowDone (s : State) (x : Nat → Byte) (t : State) : Prop where
  row : t.filter.row = BitVec.ofNat 32 (s.filter.row.toNat + 1)
  col : t.filter.col = tagNext
  prev : ∀ i, i < s.filter.line.toNat → t.byteAt .prev i = x i
  rebuilt : Rebuilt s.filter.bpp.toNat s.filter.width.toNat s.filter.row.toNat x s.filter.line.toNat t

section
variable {s u : State} {tag : Byte} {type : FilterType} {x : Nat → Byte} {c : Nat}

/-- The state after data byte `c` of a row whose bytes are `x`. -/
def rowPushed (s : State) (x : Nat → Byte) (c : Nat) (u : State) : State :=
  succeed (advanced (stored u s.filter.row.toNat c (x c)) s.filter.row.toNat c)

theorem MidRow.bpp (h : MidRow s tag type x c u) (ha : s.filter.active = true) :
    u.filter.bpp.toNat = 3 ∨ u.filter.bpp.toNat = 4 :=
  ((configOk_iff ..).1 (h.inv.filter (by rw [h.filter]; exact ha)).config).1

/-- The filtered byte is reconstructed: pushing it stores `x c` and advances. -/
theorem MidRow.push (h : MidRow s tag type x c u) (ha : s.filter.active = true)
    (hr : s.filter.row ≠ s.filter.height) (hc : c < s.filter.line.toNat) :
    execSfPush (filteredByte s type x c) u = .next (rowPushed s x c u) := by
  have hf := h.filter
  have hcol : u.filter.col.toNat = c := by
    have hline := s.filter.line.isLt
    rw [hf, BitVec.toNat_ofNat, Nat.mod_eq_of_lt (by omega)]
  have hdata : u.filter.col ≠ tagNext := by
    have hline := s.filter.line.isLt
    intro he
    rw [he] at hcol
    change 2 ^ 32 - 1 = c at hcol
    omega
  have hrow : u.filter.row.toNat = s.filter.row.toNat := by rw [hf]
  have hbpp : u.filter.bpp.toNat = s.filter.bpp.toNat := by rw [hf]
  have htype : u.filter.filterType = type := by rw [hf]
  have hua : u.filter.active = true := by rw [hf]; exact ha
  have hb := h.bpp ha
  have hn := neighboursOf_eq_rowNeighbours s.filter.row.toNat (by omega) h.rebuilt.cur h.prev
  rw [execSfPush_data h.inv _ hua (by rw [hf]; exact hr) hdata, pushed, hrow, hcol, htype, hn, hbpp, recon,
    filteredByte, BitVec.sub_add_cancel]
  rfl

theorem MidRow.rebuilt_rowPushed (h : MidRow s tag type x c u) (ha : s.filter.active = true) :
    Rebuilt s.filter.bpp.toNat s.filter.width.toNat s.filter.row.toNat x (c + 1) (rowPushed s x c u) := by
  have hbpp : u.filter.bpp = s.filter.bpp := by rw [h.filter]
  have hwidth : u.filter.width = s.filter.width := by rw [h.filter]
  rw [← hbpp, ← hwidth]
  have hstored := rebuilt_stored (h.bpp ha) (by rw [hbpp, hwidth]; exact h.rebuilt)
  exact hstored.congr (bankSame_advanced _ _ _ (by decide)) (bankSame_advanced _ _ _ (by decide))

/-- Inside the line a data byte leads to the next column. -/
theorem MidRow.next (h : MidRow s tag type x c u) (ha : s.filter.active = true)
    (hr : s.filter.row ≠ s.filter.height) (hc : c + 1 < s.filter.line.toNat) :
    MidRow s tag type x (c + 1) (rowPushed s x c u) := by
  have hne : c + 1 ≠ u.filter.line.toNat := by rw [h.filter]; exact Nat.ne_of_lt hc
  obtain ⟨t, ht, hinv⟩ := inv_execSfPush h.inv (filteredByte s type x c)
  rw [h.push ha hr (by omega)] at ht
  cases ht
  refine ⟨hinv, ?_, fun i => ?_, h.rebuilt_rowPushed ha⟩
  · rw [rowPushed, succeed_filter, advanced_filter_of_ne (by simpa using hne), stored_filter, h.filter]
  · rw [rowPushed, byteAt_succeed, byteAt_advanced, if_neg fun hl => hne (by simpa using hl.1)]
    simpa [byteAt_stored] using h.prev i

/-- The last data byte of the line completes the row. -/
theorem MidRow.done (h : MidRow s tag type x c u) (ha : s.filter.active = true)
    (hc : c + 1 = s.filter.line.toNat) : RowDone s x (rowPushed s x c u) := by
  have hline : u.filter.line = s.filter.line := by rw [h.filter]
  have hend : c + 1 = (stored u s.filter.row.toNat c (x c)).filter.line.toNat := by simpa [hline] using hc
  have hrebuilt := h.rebuilt_rowPushed ha
  refine ⟨?_, ?_, fun i hi => ?_, hc ▸ hrebuilt⟩
  · rw [rowPushed, succeed_filter, advanced_filter_of_eq hend]
  · rw [rowPushed, succeed_filter, advanced_filter_of_eq hend]
  · rw [← hrebuilt.cur i (by omega), rowPushed, byteAt_succeed, byteAt_succeed, byteAt_advanced,
      if_pos ⟨hend, rfl, by simpa [hline] using hi⟩, byteAt_advanced, if_neg (by simp)]

theorem pushBytes_cons {b : Byte} {bs : List Byte} {t : State} (h : execSfPush b u = .next t) :
    pushBytes (b :: bs) u = pushBytes bs t := by
  have hexec : exec (.sfPush b) u = .next t := h
  simp only [pushBytes, hexec]

/-- The bytes from column `c` to the end of the line complete the row. -/
theorem MidRow.pushRest (h : MidRow s tag type x c u) (ha : s.filter.active = true)
    (hr : s.filter.row ≠ s.filter.height) {n : Nat} (hn : c + (n + 1) = s.filter.line.toNat) :
    ∃ t, pushBytes ((List.range' c (n + 1)).map (filteredByte s type x)) u = .next t ∧ RowDone s x t := by
  induction n generalizing c u with
  | zero => exact ⟨_, pushBytes_cons (h.push ha hr (by omega)), h.done ha hn⟩
  | succ n ih =>
    obtain ⟨t, ht, hdone⟩ := ih (h.next ha hr (by omega)) (by omega)
    refine ⟨t, ?_, hdone⟩
    rw [List.range'_succ, List.map_cons, pushBytes_cons (h.push ha hr (by omega)), ht]

/-- A tag byte of a filter type stands at the start of a row's data. -/
theorem midRow_of_tag (h : StateInv s) (ha : s.filter.active = true) (hr : s.filter.row ≠ s.filter.height)
    (ht : filterTypeOf tag = some type) (x : Nat → Byte) : MidRow s tag type x 0 (tagByte tag s) := by
  have hinv := inv_tagByte h tag ha hr
  rcases tagByte_cases tag s with ⟨type', ht', hs⟩ | ⟨ht', -⟩
  · cases ht.symm.trans ht'
    rw [hs] at hinv ⊢
    exact ⟨hinv, rfl, fun _ => rfl, .zero ..⟩
  · cases ht.symm.trans ht'

theorem execSfPush_tag (ha : s.filter.active = true) (hr : s.filter.row ≠ s.filter.height)
    (hc : s.filter.col = tagNext) (b : Byte) : execSfPush b s = .next (tagByte b s) := by
  simp [execSfPush, ha, hr, hc]

/-- A whole row, pushed to a filter that stands before one. -/
theorem rowDone_of_push (h : StateInv s) (ha : s.filter.active = true) (hr : s.filter.row ≠ s.filter.height)
    (hc : s.filter.col = tagNext) (ht : filterTypeOf tag = some type) (x : Nat → Byte)
    (hl : 1 ≤ s.filter.line.toNat) :
    ∃ t, pushBytes (tag :: (List.range s.filter.line.toNat).map (filteredByte s type x)) s = .next t ∧
      RowDone s x t := by
  obtain ⟨n, hn⟩ : ∃ n, s.filter.line.toNat = n + 1 := ⟨s.filter.line.toNat - 1, by omega⟩
  rw [pushBytes_cons (execSfPush_tag ha hr hc tag), List.range_eq_range', hn]
  exact (midRow_of_tag h ha hr ht x).pushRest ha hr (by omega)

end

end Sys2Proof.Machine

namespace Sys2Proof.Proofs

open Sys2Proof.Machine

/-- Settles O44, by induction on the bytes of the row that are left. -/
theorem filteredLineIsReconstructed : Obligations.FilteredLineIsReconstructed := by
  intro s tag type x h ha hr hc ht hline f r filtered
  have hf := h.filter ha
  obtain ⟨hb, hw, -⟩ := (configOk_iff ..).1 hf.config
  have hpos : 1 ≤ s.filter.line.toNat := by
    rw [hline]
    exact Nat.mul_pos (by omega) hw
  obtain ⟨t, hpush, hdone⟩ := rowDone_of_push h ha hr hc ht x hpos
  have hrow : t.filter.row.toNat = r + 1 := by
    have hlt := row_lt_of_ne hf hr
    have hheight := s.filter.height.isLt
    rw [hdone.row, BitVec.toNat_ofNat, Nat.mod_eq_of_lt (by omega)]
  refine ⟨t, hpush, hrow, hdone.col, fun c hlt => ⟨hdone.prev c hlt, hdone.rebuilt.out c hlt⟩, fun h3 p hp => ?_⟩
  have h3 : s.filter.bpp.toNat = 3 := h3
  have hp : p < s.filter.width.toNat := hp
  exact hdone.rebuilt.alpha h3 p (by rw [hline, h3]; omega)

end Sys2Proof.Proofs
end

section
/-! One step goes on, memory after power-on reset (70_reset_and_hazards.md R291), and the host's accesses that reach no
element (20_memory.md R78, R79). -/

namespace Sys2Proof.Machine

theorem byteAt_resetWith (p : Params) (d : Nat) (b : ByteBank) (i : Nat) :
    (State.resetWith p d).byteAt b i = Config.powerOnByte d b i := by
  cases b <;> rfl

theorem wordAt_resetWith (p : Params) (d : Nat) (b : WordBank) (i : Nat) :
    (State.resetWith p d).wordAt b i = Config.powerOnWord d b i := by
  cases b <;> rfl

theorem hostWriteMem_idctOut (i : Nat) (v : Word) (s : State) : hostWriteMem 4 i v s = s := rfl

section
variable {id i : Nat} {s : State}

/-- A host write at an index its space does not have, or to an id of no space, is ignored (20_memory.md R78). -/
theorem hostWriteMem_of_outside (hbytes : ∀ b, spaceOf id = some (.bytes b) → byteBankSize s.params b ≤ i)
    (hwords : ∀ b, spaceOf id = some (.words b) → 64 ≤ i) (v : Word) : hostWriteMem id i v s = s := by
  unfold hostWriteMem
  split
  · exact if_neg (Nat.not_lt_of_le (hbytes _ ‹_›))
  · exact if_neg (Nat.not_lt_of_le (hwords _ ‹_›))
  · rfl
  · rfl

/-- A host read at an index its space does not have, or of an id of no space, returns 0 (20_memory.md R79). -/
theorem hostReadMem_of_outside (hbytes : ∀ b, spaceOf id = some (.bytes b) → byteBankSize s.params b ≤ i)
    (hwords : ∀ b, spaceOf id = some (.words b) → 64 ≤ i) : hostReadMem id i s = 0#32 := by
  unfold hostReadMem
  split
  · exact if_neg (Nat.not_lt_of_le (hbytes _ ‹_›))
  · exact if_neg (Nat.not_lt_of_le (hwords _ ‹_›))
  · rfl

end

end Sys2Proof.Machine

namespace Sys2Proof.Proofs

open Sys2Proof.Machine

/-- Settles O54: the invariant rules out both faults in every access, and no arm of `exec` is refused. -/
theorem everyStepAnswersANextState : Obligations.EveryStepAnswersANextState := by
  intro s h
  obtain ⟨t, ht, -⟩ := inv_step h
  exact ⟨t, ht⟩

/-- Settles O51: a store that lists nothing leaves every element to the draw. -/
theorem powerOnLeavesMemoryUnspecified : Obligations.PowerOnLeavesMemoryUnspecified :=
  ⟨fun p d => ⟨byteAt_resetWith p d, wordAt_resetWith p d⟩, fun _ _ hp => step_of_pending hp⟩

/-- Settles O60, with the space of an id in place of the list of ids. -/
theorem hostAccessOutsideASpace : Obligations.HostAccessOutsideASpace := by
  intro s id i v
  refine ⟨fun hid => by rw [hid, hostWriteMem_idctOut], fun hb hw => ?_⟩
  have hbytes : ∀ b, spaceOf id = some (.bytes b) → byteBankSize s.params b ≤ i :=
    fun b h => hb b ((spaceOf_eq_bytes_iff id b).1 h)
  have hwords : ∀ b, spaceOf id = some (.words b) → 64 ≤ i := by
    intro b h
    have hid := (spaceOf_eq_words_iff id b).1 h
    simp only [List.mem_cons, Prod.mk.injEq, List.not_mem_nil, or_false] at hid
    exact hw (hid.imp And.left And.left)
  exact ⟨hostWriteMem_of_outside hbytes hwords v, hostReadMem_of_outside hbytes hwords⟩

end Sys2Proof.Proofs
end

section
/-! A fixed-length read that has enough bits left (41_bitcursor.md R141, R142): its value bit by bit, and how the
command ends. -/

namespace Sys2Proof.Machine

theorem CursorInv.position_le {p : Params} {c : Cursor} (h : CursorInv p c) : c.position ≤ 8 * p.streamSize := by
  have hbit := c.bit_lt
  unfold Cursor.position
  by_cases hb : c.bit = 0#3
  · have hle := h.byte_le
    rw [hb, BitVec.toNat_zero]
    omega
  · have hlt := h.inside hb
    omega

/-- The bits left before the end bound lie in the stream. -/
theorem CursorInv.position_add_le {p : Params} {c : Cursor} (h : CursorInv p c) {n : Nat} (hn : n ≤ c.avail) :
    c.position + n ≤ 8 * p.streamSize := by
  have hpos := h.position_le
  have hend := h.end_le
  have havail := c.avail_eq
  omega

/-- A fixed-length read with enough bits left returns the value of the next `n` bits and moves the cursor past them. -/
theorem readCommand_of_avail {s : State} (h : StateInv s) {n : Nat} (hn : n ≤ 16) (hv : s.cursor.valid = true)
    (ha : n ≤ s.cursor.avail) (post : Nat → Word) :
    ∃ c, readCommand n post s =
        .next (succeedWith (post (bitsValue 0 (streamBits s s.cursor.position n))) (s.withCursor c)) ∧
      c.position = s.cursor.position + n ∧ c.valid = true ∧ c.endBound = s.cursor.endBound := by
  obtain ⟨c, hread, hpos, hvalid, hend⟩ := readBits_of_le (v := 0) h.stream_lt (h.cursor.position_add_le ha)
  refine ⟨c, ?_, hpos, hvalid.trans hv, hend⟩
  rw [readCommand, maxBits, if_neg (Nat.not_lt_of_le hn), if_neg (by simp [hv]), if_neg (Nat.not_lt_of_le ha), hread]

/-- The first bit of a run is the most significant of its value. -/
theorem testBit_bitsValue (l : List Bool) {i : Nat} (hi : i < l.length) :
    (bitsValue 0 l).testBit (l.length - 1 - i) = l[i] := by
  induction l generalizing i with
  | nil => simp at hi
  | cons b l ih =>
    have hsplit : bitsValue 0 (b :: l) = 2 ^ l.length * b.toNat + bitsValue 0 l := by
      rw [bitsValue, bitsValue_eq]
      ring
    rw [hsplit, Nat.testBit_two_pow_mul_add _ (bitsValue_lt l), List.length_cons, Nat.add_sub_cancel]
    cases i with
    | zero => cases b <;> simp
    | succ i =>
      have hi : i < l.length := by simpa using hi
      rw [if_pos (by omega), List.getElem_cons_succ, ← ih hi]
      congr 1
      omega

theorem bitsValue_streamBits_lt (s : State) (p n : Nat) : bitsValue 0 (streamBits s p n) < 2 ^ n := by
  simpa using bitsValue_lt (streamBits s p n)

theorem unsignedWord_toNat {v n : Nat} (hn : n ≤ 16) (hv : v < 2 ^ n) : (unsignedWord v).toNat = v := by
  have hpow : 2 ^ n ≤ 2 ^ 16 := Nat.pow_le_pow_right (by decide) hn
  rw [unsignedWord, BitVec.toNat_ofNat, Nat.mod_eq_of_lt (by omega)]

/-- The value read, bit by bit in stream order (20_memory.md R70, R71). -/
theorem testBit_bitsValue_streamBits (s : State) (p : Nat) {n i : Nat} (hi : i < n) :
    (bitsValue 0 (streamBits s p n)).testBit (n - 1 - i) = streamBit s (p + i) := by
  simpa [streamBits] using testBit_bitsValue (streamBits s p n) (i := i) (by simpa using hi)

end Sys2Proof.Machine

namespace Sys2Proof.Proofs

open Sys2Proof.Machine

/-- Settles O17, by the value of a run of bits, the first one most significant. -/
theorem bcReadReturnsTheNextBits : Obligations.BcReadReturnsTheNextBits := by
  intro s n h hn hv ha
  obtain ⟨c, hread, hpos, hvalid, hend⟩ := readCommand_of_avail h hn hv ha unsignedWord
  have hlt := bitsValue_streamBits_lt s s.cursor.position n
  have hvalue := unsignedWord_toNat hn hlt
  refine ⟨_, hread, succeeded_of_status rfl, ?_, fun i hi => ?_, hpos, hvalid, hend, rfl,
    memorySame_of_mem_eq rfl rfl⟩
  · rw [succeedWith_result, hvalue]
    exact hlt
  · rw [succeedWith_result, BitVec.getLsbD, hvalue, testBit_bitsValue_streamBits s _ hi]

end Sys2Proof.Proofs
end

section
/-! The filter keeps to its image (43_scanline.md R228) and to the line bytes it has written (R217): a data byte under
another power-on draw `d` of the unwritten elements, operation by operation. -/

namespace Sys2Proof.Machine

/-- A data byte writes OUT at its place and at its pixel's alpha byte alone, both in the image. -/
theorem byteAt_out_of_dataByte {s t : State} {b : Byte} (hf : FilterInv s.params s.filter)
    (hr : s.filter.row ≠ s.filter.height) (hc : s.filter.col ≠ tagNext) (h : dataByte b s = .ok t) {i : Nat}
    (hi : 4 * s.filter.width.toNat * s.filter.height.toNat ≤ i) : t.byteAt .out i = s.byteAt .out i := by
  obtain ⟨n, -, rfl⟩ := dataByte_ok h
  have hplace := outIndex_lt hf (row_lt_of_ne hf hr) (hf.col_lt hc)
  have halpha := alphaIndex_lt (row_lt_of_ne hf hr) (hf.col_lt hc)
  rw [bankSame_advanced _ _ _ (by decide), byteAt_stored, if_neg (by omega), if_neg (by omega), if_neg (by simp)]

/-- No clause of the invariant speaks of the draw. -/
theorem StateInv.withDraw {s : State} (h : StateInv s) (d : Nat) : StateInv { s with draw := d } where
  params := h.params
  wf := h.wf
  bounds := h.bounds
  cursor := h.cursor
  filter := h.filter
  lines := fun ha => ⟨(h.lines ha).cur, (h.lines ha).prev⟩
  status := statusInv_same h.status rfl rfl
  depth := h.depth

/-- Below a row, every byte of PREV up to the data column has been written. -/
theorem prev_written {s : State} (h : StateInv s) (ha : s.filter.active = true) (hc : s.filter.col ≠ tagNext)
    (hr : 1 ≤ s.filter.row.toNat) {i : Nat} (hi : i ≤ s.filter.col.toNat) :
    (Store.find? s.mem.prev i).isSome := by
  refine (h.lines ha).prev hr i ?_
  rcases (h.filter ha).col_ok.resolve_left hc with hlt | hzero
  · omega
  · rw [(h.filter ha).zeroLine hzero] at hr
    exact absurd hr (by decide)

/-- The neighbours of a data byte are out of bounds or written. -/
theorem neighboursOf_withDraw {s : State} (h : StateInv s) (ha : s.filter.active = true)
    (hc : s.filter.col ≠ tagNext) (d : Nat) :
    neighboursOf { s with draw := d } s.filter.row.toNat s.filter.col.toNat =
      neighboursOf s s.filter.row.toNat s.filter.col.toNat := by
  obtain ⟨hbpp, -⟩ := (configOk_iff ..).1 (h.filter ha).config
  have hleft : s.filter.bpp.toNat ≤ s.filter.col.toNat →
      ({ s with draw := d } : State).byteAt .cur (s.filter.col.toNat - s.filter.bpp.toNat) =
        s.byteAt .cur (s.filter.col.toNat - s.filter.bpp.toNat) :=
    fun hle => byteAt_of_written (b := .cur) ((h.lines ha).cur hc _ (by omega)) d
  have habove : 1 ≤ s.filter.row.toNat → ∀ i ≤ s.filter.col.toNat,
      ({ s with draw := d } : State).byteAt .prev i = s.byteAt .prev i :=
    fun hr i hi => byteAt_of_written (b := .prev) (prev_written h ha hc hr hi) d
  rw [neighboursOf, neighboursOf, Neighbours.mk.injEq]
  exact ⟨ite_congr rfl hleft fun _ => rfl, ite_congr rfl (fun hr => habove hr _ le_rfl) fun _ => rfl,
    ite_congr rfl (fun hr => habove hr.1 _ (Nat.sub_le ..)) fun _ => rfl⟩

theorem stored_withDraw (s : State) (r c : Nat) (x : Byte) (d : Nat) :
    stored { s with draw := d } r c x = { stored s r c x with draw := d } := by
  unfold stored
  dsimp only
  split <;> rfl

/-- A copy of written bytes. -/
theorem lineCopied_withDraw {u : State} {n : Nat} (hw : ∀ i, i < n → (Store.find? u.mem.cur i).isSome) (d : Nat) :
    lineCopied { u with draw := d } n = { lineCopied u n with draw := d } := by
  have hprev : copiedPrev { u with draw := d } n = copiedPrev u n := by
    refine List.foldl_ext _ _ _ fun st i hi => ?_
    rw [byteAt_of_written (b := .cur) (hw i (List.mem_range.1 hi)) d]
  simp only [lineCopied, hprev]

/-- An advance past the last byte written to CUR. -/
theorem advanced_withDraw {u : State} {c : Nat} (hw : ∀ i, i < c + 1 → (Store.find? u.mem.cur i).isSome)
    (r d : Nat) : advanced { u with draw := d } r c = { advanced u r c with draw := d } := by
  unfold advanced
  dsimp only
  split
  · rename_i hend
    rw [lineCopied_withDraw (hend ▸ hw)]
    rfl
  · rfl

theorem cur_written_stored {s : State} {c : Nat} (hw : ∀ i, i < c → (Store.find? s.mem.cur i).isSome) (r : Nat)
    (x : Byte) {i : Nat} (hi : i < c + 1) : (Store.find? (stored s r c x).mem.cur i).isSome := by
  have hcur : (stored s r c x).mem.cur = Store.put s.mem.cur c x := by
    unfold stored
    dsimp only
    split <;> rfl
  rw [hcur, Store.find?_put]
  split
  · rfl
  · exact hw i (by omega)

/-- A data byte leaves the same under another draw. -/
theorem pushed_withDraw {s : State} (h : StateInv s) (ha : s.filter.active = true) (hc : s.filter.col ≠ tagNext)
    (b : Byte) (d : Nat) : pushed b { s with draw := d } = { pushed b s with draw := d } := by
  unfold pushed
  dsimp only
  rw [neighboursOf_withDraw h ha hc, stored_withDraw,
    advanced_withDraw fun _ hi => cur_written_stored ((h.lines ha).cur hc) _ _ hi]
  rfl

theorem tagByte_withDraw (b : Byte) (s : State) (d : Nat) :
    tagByte b { s with draw := d } = { tagByte b s with draw := d } := by
  unfold tagByte
  split <;> rfl

end Sys2Proof.Machine

namespace Sys2Proof.Proofs

open Sys2Proof.Machine

/-- Settles O45: only a data byte writes OUT, at places that lie in the image. -/
theorem filterStaysInsideTheImage : Obligations.FilterStaysInsideTheImage := by
  intro s t b h hexec
  refine ⟨fun ha => ?_, fun i hi => ?_⟩
  · obtain ⟨-, -, -, -, himage⟩ := (configOk_iff ..).1 (h.filter ha).config
    exact himage
  · rcases execSfPush_cases hexec with ⟨-, rfl⟩ | ⟨-, -, rfl⟩ | ⟨-, -, -, rfl⟩ | ⟨ha, hr, hc, u, hu, rfl⟩
    · rfl
    · rfl
    · rcases tagByte_cases b s with ⟨type, -, htag⟩ | ⟨-, htag⟩ <;> rw [htag] <;> rfl
    · exact byteAt_out_of_dataByte (h.filter ha) hr hc hu hi

/-- Settles O46, by the ways a push ends; a data byte reads written bytes of the line buffers alone. -/
theorem filterNeverReadsUnwrittenBytes : Obligations.FilterNeverReadsUnwrittenBytes := by
  intro s t b d h hexec
  have hexec : execSfPush b s = .next t := hexec
  change execSfPush b { s with draw := d } = _
  rcases execSfPush_cases hexec with ⟨ha, rfl⟩ | ⟨ha, hr, rfl⟩ | ⟨ha, hr, hc, rfl⟩ | ⟨ha, hr, hc, -⟩
  · exact if_pos ha
  · rw [execSfPush, if_neg (by simp [ha]), if_pos hr]
    rfl
  · rw [execSfPush_tag (s := { s with draw := d }) ha hr hc, tagByte_withDraw]
  · cases (execSfPush_data h b ha hr hc).symm.trans hexec
    rw [execSfPush_data (h.withDraw d) b ha hr hc, pushed_withDraw h ha hc]

end Sys2Proof.Proofs
end

section
/-! Decode and encode agree (30_encoding.md R100 to R108): every format packs its opcode and one operand field that
begins at bit 8, and the decoder takes the same two fields apart. -/

namespace Sys2Proof

/-! One packing for the four formats (R102 to R105). -/

/-- The word with `opc` in bits 7:0, a `k`-bit operand field above it, and every higher bit 0. -/
def packed {k : Nat} (v : BitVec k) (opc : Byte) : Word := opc.setWidth 32 ||| v.setWidth 32 <<< 8

theorem getLsbD_packed {k : Nat} (v : BitVec k) (opc : Byte) (j : Nat) :
    (packed v opc).getLsbD j = if j < 8 then opc.getLsbD j else (decide (j < 32) && v.getLsbD (j - 8)) := by
  by_cases h8 : j < 8
  · simp [packed, h8, (by omega : j < 32)]
  · have hopc : opc.getLsbD j = false := BitVec.getLsbD_of_ge opc j (by omega)
    by_cases hj : j < 32 <;> simp [packed, h8, hj, hopc]

/-- The bits from `r` up are 0. -/
theorem ushiftRight_eq_zero_iff (w : Word) (r : Nat) : w >>> r = 0#32 ↔ ∀ j, r ≤ j → w.getLsbD j = false := by
  constructor
  · intro h j hj
    simpa [Nat.add_sub_cancel' hj] using congrArg (·.getLsbD (j - r)) h
  · intro h
    apply BitVec.eq_of_getLsbD_eq
    intro j _
    simpa using h (r + j) (Nat.le_add_right r j)

/-- A word is packed from its own fields exactly when every bit above them is 0, so the packing loses nothing. -/
theorem packed_eq_iff {k : Nat} (hk : k ≤ 24) (v : BitVec k) (opc : Byte) (w : Word) :
    packed v opc = w ↔ opcodeField w = opc ∧ w >>> (8 + k) = 0#32 ∧ w.extractLsb' 8 k = v := by
  rw [ushiftRight_eq_zero_iff]
  constructor
  · rintro rfl
    refine ⟨BitVec.eq_of_getLsbD_eq fun j hj => ?_, fun j hj => ?_, BitVec.eq_of_getLsbD_eq fun j hj => ?_⟩
    · simp [opcodeField, getLsbD_packed, hj]
    · rw [getLsbD_packed, if_neg (by omega), BitVec.getLsbD_of_ge v _ (by omega), Bool.and_false]
    · rw [BitVec.getLsbD_extractLsb', getLsbD_packed, if_neg (by omega), Nat.add_sub_cancel_left]
      simp [hj, (by omega : 8 + j < 32)]
  · rintro ⟨rfl, hres, rfl⟩
    refine BitVec.eq_of_getLsbD_eq fun j hj => ?_
    rw [getLsbD_packed]
    by_cases h8 : j < 8
    · simp [opcodeField, h8]
    by_cases hin : j - 8 < k
    · simp [h8, hin, hj, Nat.add_sub_cancel' (Nat.le_of_not_lt h8)]
    · simp [h8, hin, hres j (by omega)]

/-! The fields of a command. -/

/-- OPC of a command (R106). -/
def Instr.opcode : Instr → Byte
  | .nop => 0x00#8
  | .sreset => 0x01#8
  | .bcLoad => 0x10#8
  | .bcRead _ => 0x11#8
  | .bcReadX _ => 0x12#8
  | .bcAlign => 0x13#8
  | .bcExt _ => 0x14#8
  | .htBuild _ _ => 0x20#8
  | .htDecode _ _ => 0x21#8
  | .idct => 0x30#8
  | .sfInit => 0x40#8
  | .sfPush _ => 0x41#8

/-- The format of a command (R106). -/
def Instr.format : Instr → Format
  | .nop | .sreset | .bcLoad | .bcAlign | .idct | .sfInit => .n
  | .bcRead _ | .bcReadX _ | .bcExt _ => .b
  | .htBuild _ _ | .htDecode _ _ => .t
  | .sfPush _ => .d

/-- The width of a format's operand field (R102 to R105). -/
def Format.operandWidth : Format → Nat
  | .n => 0
  | .b => 5
  | .t => 3
  | .d => 8

theorem Format.firstReservedBit_eq (f : Format) : f.firstReservedBit = 8 + f.operandWidth := by
  cases f <;> rfl

theorem Format.operandWidth_le (f : Format) : f.operandWidth ≤ 24 := by
  cases f <;> decide

/-- CLS*4 + DST, the operand field of format T (R104). -/
def slotField (cls : TableClass) (dst : Fin 4) : BitVec 3 := BitVec.ofNat 3 (cls.number * 4 + dst.val)

/-- The operand field of a command. -/
def Instr.operand : (i : Instr) → BitVec i.format.operandWidth
  | .nop | .sreset | .bcLoad | .bcAlign | .idct | .sfInit => 0#0
  | .bcRead n | .bcReadX n | .bcExt n => BitVec.ofNat 5 n
  | .htBuild cls dst | .htDecode cls dst => slotField cls dst
  | .sfPush b => b

theorem encodeN_eq_packed (opc : Byte) : encodeN opc = packed 0#0 opc := by
  simp [encodeN, packed]

theorem encode_eq_packed (i : Instr) : encode i = packed i.operand i.opcode := by
  cases i with
  | nop | sreset | bcLoad | bcAlign | idct | sfInit => exact encodeN_eq_packed _
  | bcRead n | bcReadX n | bcExt n => rfl
  | htBuild cls dst | htDecode cls dst => rfl
  | sfPush b => rfl

/-! The decoder. -/

/-- What each row of the opcode table reads from the fields of `w`, in the table's order. -/
def readings (w : Word) : List Instr :=
  [.nop, .sreset, .bcLoad, .bcRead (countField w), .bcReadX (countField w), .bcAlign, .bcExt (countField w),
   .htBuild (classField w) (destField w), .htDecode (classField w) (destField w), .idct, .sfInit,
   .sfPush (byteField w)]

theorem withReservedZero_ok_iff (f : Format) (w : Word) (i j : Instr) :
    withReservedZero f w i = .ok j ↔ w >>> f.firstReservedBit = 0#32 ∧ i = j := by
  unfold withReservedZero
  split <;> simp [*]

theorem decode_of_reading {w : Word} {i : Instr} (hi : i ∈ readings w) (hop : opcodeField w = i.opcode) :
    decode w = withReservedZero i.format w i := by
  simp only [readings, List.mem_cons, List.not_mem_nil, or_false] at hi
  rcases hi with rfl | rfl | rfl | rfl | rfl | rfl | rfl | rfl | rfl | rfl | rfl | rfl <;>
    simp [decode, hop, Instr.opcode, Instr.format]

theorem decode_of_free {w : Word} (h : ∀ i ∈ readings w, opcodeField w ≠ i.opcode) :
    decode w = .error (.freeOpcode (opcodeField w)) := by
  simp only [readings, List.forall_mem_cons, Instr.opcode] at h
  simp only [decode, h, if_false]

/-- A command decodes from a word exactly when it is the reading of the row with the word's opcode, and the reserved
bits are 0 (R106 to R108). -/
theorem decode_ok_iff (w : Word) (i : Instr) :
    decode w = .ok i ↔
      i ∈ readings w ∧ opcodeField w = i.opcode ∧ w >>> i.format.firstReservedBit = 0#32 := by
  constructor
  · intro h
    by_cases hrow : ∃ j ∈ readings w, opcodeField w = j.opcode
    · obtain ⟨j, hj, hop⟩ := hrow
      obtain ⟨hres, rfl⟩ := (withReservedZero_ok_iff ..).1 ((decode_of_reading hj hop).symm.trans h)
      exact ⟨hj, hop, hres⟩
    · cases (decode_of_free fun j hj hop => hrow ⟨j, hj, hop⟩).symm.trans h
  · rintro ⟨hi, hop, hres⟩
    rw [decode_of_reading hi hop, withReservedZero_ok_iff]
    exact ⟨hres, rfl⟩

/-! A reading of a word holds the word's operand field. -/

theorem eq_countField_iff (n : Nat) (w : Word) :
    n = countField w ↔ bitCountFits n = true ∧ w.extractLsb' 8 5 = BitVec.ofNat 5 n := by
  have hlt := (w.extractLsb' 8 5).isLt
  rw [countField, bitCountFits, decide_eq_true_iff, ← BitVec.toNat_inj, BitVec.toNat_ofNat]
  omega

theorem eq_slot_iff (cls : TableClass) (dst : Fin 4) (w : Word) :
    (cls = classField w ∧ dst = destField w) ↔ w.extractLsb' 8 3 = slotField cls dst := by
  have hcls : classField w = if (w.extractLsb' 8 3).getLsbD 2 then .ac else .dc := by simp [classField]
  have hdst : destField w = ((w.extractLsb' 8 3).extractLsb' 0 2).toFin := by
    rw [destField]
    congr 1
    apply BitVec.eq_of_getLsbD_eq
    intro j hj
    simp [hj, (by omega : j < 3)]
  rw [hcls, hdst]
  generalize w.extractLsb' 8 3 = v
  revert v dst
  cases cls <;> decide

theorem mem_readings_iff (w : Word) (i : Instr) :
    i ∈ readings w ↔ i.wf = true ∧ w.extractLsb' 8 i.format.operandWidth = i.operand := by
  cases i with
  | nop | sreset | bcLoad | bcAlign | idct | sfInit =>
    simp [readings, Instr.wf, Instr.operand, Instr.format, Format.operandWidth]
  | bcRead n | bcReadX n | bcExt n =>
    change _ ↔ bitCountFits n = true ∧ w.extractLsb' 8 5 = BitVec.ofNat 5 n
    simp [readings, eq_countField_iff]
  | htBuild cls dst | htDecode cls dst =>
    change _ ↔ true = true ∧ w.extractLsb' 8 3 = slotField cls dst
    simp [readings, eq_slot_iff]
  | sfPush b =>
    change _ ↔ true = true ∧ byteField w = b
    simp [readings, eq_comm]

/-- The decoder inverts the encoder: a word decodes to the one well-formed command whose word it is. -/
theorem decode_ok_iff_encode (w : Word) (i : Instr) : decode w = .ok i ↔ i.wf = true ∧ encode i = w := by
  rw [decode_ok_iff, mem_readings_iff, encode_eq_packed, packed_eq_iff i.format.operandWidth_le,
    Format.firstReservedBit_eq]
  tauto

/-! The opcode table (R106). -/

/-- The bits a format fixes: OPC and the reserved bits (R102 to R105). -/
def Format.mask : Format → Word
  | .n => 0xFFFFFFFF#32
  | .b => 0xFFFFE0FF#32
  | .t => 0xFFFFF8FF#32
  | .d => 0xFFFF00FF#32

theorem Format.getLsbD_mask (f : Format) {j : Nat} (hj : j < 32) :
    f.mask.getLsbD j = (decide (j < 8) || decide (f.firstReservedBit ≤ j)) := by
  have hall : ∀ j : Fin 32, f.mask.getLsbD j = (decide (j.val < 8) || decide (f.firstReservedBit ≤ j.val)) := by
    cases f <;> decide
  exact hall ⟨j, hj⟩

/-- A word matches a row exactly when it has the row's opcode and its reserved bits are 0. -/
theorem and_mask_eq_iff (f : Format) (w : Word) (opc : Byte) :
    w &&& f.mask = opc.setWidth 32 ↔ opcodeField w = opc ∧ w >>> f.firstReservedBit = 0#32 := by
  have hlow : 8 ≤ f.firstReservedBit := by cases f <;> decide
  rw [ushiftRight_eq_zero_iff]
  constructor
  · intro h
    have hbit {j : Nat} (hj : j < 32) :
        (w.getLsbD j && (decide (j < 8) || decide (f.firstReservedBit ≤ j))) = opc.getLsbD j := by
      rw [← f.getLsbD_mask hj, ← BitVec.getLsbD_and, h]
      simp [hj]
    refine ⟨BitVec.eq_of_getLsbD_eq fun j hj => ?_, fun j hj => ?_⟩
    · simpa [opcodeField, hj] using hbit (by omega : j < 32)
    · by_cases hin : j < 32
      · simpa [hj, BitVec.getLsbD_of_ge opc j (by omega)] using hbit hin
      · exact BitVec.getLsbD_of_ge w j (by omega)
  · rintro ⟨rfl, hres⟩
    refine BitVec.eq_of_getLsbD_eq fun j hj => ?_
    rw [BitVec.getLsbD_and, f.getLsbD_mask hj]
    by_cases h8 : j < 8
    · simp [opcodeField, h8, hj]
    by_cases hin : f.firstReservedBit ≤ j
    · simp [h8, hres j hin, opcodeField]
    · simp [h8, hin, opcodeField]

/-- The row of a command. -/
def Instr.tableRow (i : Instr) : Word × Word := (i.format.mask, i.opcode.setWidth 32)

theorem opcodeRows_eq (w : Word) : opcodeRows = (readings w).map Instr.tableRow := rfl

/-- The rows a word matches are the rows of the commands it decodes to. -/
theorem matches_row_iff (w : Word) (row : Word × Word) :
    (row ∈ opcodeRows ∧ w &&& row.1 = row.2) ↔ ∃ i, decode w = .ok i ∧ i.tableRow = row := by
  simp only [opcodeRows_eq w, List.mem_map, decode_ok_iff, ← and_mask_eq_iff]
  constructor
  · rintro ⟨⟨i, hi, rfl⟩, hmatch⟩
    exact ⟨i, ⟨hi, hmatch⟩, rfl⟩
  · rintro ⟨i, ⟨hi, hmatch⟩, rfl⟩
    exact ⟨⟨i, hi, rfl⟩, hmatch⟩

theorem legalWord_iff (w : Word) : LegalWord w ↔ ∃ i, decode w = .ok i := by
  constructor
  · rintro ⟨row, h⟩
    obtain ⟨i, hi, -⟩ := (matches_row_iff w row).1 h
    exact ⟨i, hi⟩
  · rintro ⟨i, hi⟩
    exact ⟨i.tableRow, (matches_row_iff w _).2 ⟨i, hi, rfl⟩⟩

/-- The decoder is a function, so a word has one row at most. -/
theorem matched_row_unique {w : Word} {row row' : Word × Word} (h : row ∈ opcodeRows ∧ w &&& row.1 = row.2)
    (h' : row' ∈ opcodeRows ∧ w &&& row'.1 = row'.2) : row = row' := by
  obtain ⟨i, hi, rfl⟩ := (matches_row_iff w row).1 h
  obtain ⟨j, hj, rfl⟩ := (matches_row_iff w row').1 h'
  cases hi.symm.trans hj
  rfl

end Sys2Proof

namespace Sys2Proof.Proofs

/-- Settles O1, since the decoder inverts the encoder. -/
theorem decodeOfEncodeIsTheCommand : Obligations.DecodeOfEncodeIsTheCommand :=
  fun i hi => (decode_ok_iff_encode (encode i) i).2 ⟨hi, rfl⟩

/-- Settles O2, since the decoder inverts the encoder. -/
theorem decodedWordIsItsEncoding : Obligations.DecodedWordIsItsEncoding :=
  fun w i h => ((decode_ok_iff_encode w i).1 h).symm

/-- Settles O3: the rows a word matches are those of the commands it decodes to, and it decodes to one at most. -/
theorem legalWordsMatchOneTableRow : Obligations.LegalWordsMatchOneTableRow :=
  fun w => ⟨(legalWord_iff w).symm, fun _ hrow _ hrow' h h' => matched_row_unique ⟨hrow, h⟩ ⟨hrow', h'⟩⟩

end Sys2Proof.Proofs
end

section
/-! What a word written to CMD does where it is illegal, and the commands NOP and BC.EXT, which read no stream
(30_encoding.md R107 to R113, 40_control.md R130, 41_bitcursor.md R146, R152). -/

namespace Sys2Proof.Machine

/-! An illegal word. -/

theorem runWord_of_illegal {w : Word} (h : ¬ ∃ i, decode w = .ok i) (s : State) :
    runWord w s = .next (fail .illegal s) := by
  unfold runWord
  split
  · exact absurd ⟨_, ‹_›⟩ h
  · rfl

/-! Receive/extend, by the top bit of the field (41_bitcursor.md R146). -/

theorem extend_of_top {v n : Nat} (hn : 1 ≤ n) (h : v.testBit (n - 1) = true) : extend v n = v := by
  rw [extend, if_neg (by omega), if_pos h]

theorem extend_of_not_top {v n : Nat} (hn : 1 ≤ n) (h : v.testBit (n - 1) = false) :
    extend v n = v - (2 ^ n - 1) := by
  rw [extend, if_neg (by omega), if_neg (by simp [h])]

/-- A field of at most 16 bits extends to a value of at most 17 signed bits (41_bitcursor.md R147). -/
theorem extend_range {v n : Nat} (hn : n ≤ 16) (hv : v < 2 ^ n) : -2 ^ 16 < extend v n ∧ extend v n < 2 ^ 16 := by
  have hpow : 2 ^ n ≤ 2 ^ 16 := Nat.pow_le_pow_right (by decide) hn
  have hcast : ((2 ^ n : Nat) : Int) = 2 ^ n := by push_cast; rfl
  unfold extend
  split_ifs <;> omega

theorem signedWord_toInt {x : Int} (hlo : -2 ^ 31 ≤ x) (hhi : x < 2 ^ 31) : (signedWord x).toInt = x := by
  rw [signedWord, BitVec.toInt_ofInt, Int.bmod_eq_of_le (by omega) (by omega)]

/-- RESULT holds the extended value itself: 17 signed bits fit in its 32. -/
theorem signedWord_extend_toInt {v n : Nat} (hn : n ≤ 16) (hv : v < 2 ^ n) :
    (signedWord (extend v n)).toInt = extend v n := by
  obtain ⟨hlo, hhi⟩ := extend_range hn hv
  exact signedWord_toInt (by omega) (by omega)

/-! ARG[n-1:0] (41_bitcursor.md R152). -/

theorem lowBits_lt (arg : Word) (n : Nat) : lowBits arg n < 2 ^ n := Nat.mod_lt _ (Nat.two_pow_pos n)

theorem lowBits_cast (arg : Word) (n : Nat) : (lowBits arg n : Int) = arg.toNat % 2 ^ n := by
  rw [lowBits]
  push_cast
  rfl

theorem testBit_lowBits (arg : Word) {n : Nat} (hn : 1 ≤ n) :
    (lowBits arg n).testBit (n - 1) = arg.getLsbD (n - 1) := by
  rw [lowBits, Nat.testBit_mod_two_pow, decide_eq_true (by omega), Bool.true_and, BitVec.getLsbD]

theorem execBcExt_of_le {n : Nat} (hn : n ≤ 16) (s : State) :
    exec (.bcExt n) s = .next (succeedWith (signedWord (extend (lowBits s.arg n) n)) s) :=
  if_neg (Nat.not_lt_of_le hn)

theorem execBcExt_of_gt {n : Nat} (hn : 16 < n) (s : State) : exec (.bcExt n) s = .next (fail .badArg s) :=
  if_pos hn

end Sys2Proof.Machine

namespace Sys2Proof.Proofs

open Sys2Proof.Machine

/-- Settles O5: a word that matches no row does not decode, and CMD then fails it with ILLEGAL. -/
theorem illegalWordOnlyFails : Obligations.IllegalWordOnlyFails := by
  intro s rest w hp hw
  have hstep : step s = .next (fail .illegal { s with pending := rest }) :=
    (step_of_pending hp).trans (runWord_of_illegal (mt (legalWord_iff w).2 hw) _)
  exact ⟨_, hstep, failed_of_status .illegal rfl rfl, rfl, memorySame_of_mem_eq rfl rfl⟩

/-- Settles O21, by the top bit of the field. -/
theorem bcExtExtendsTheArgument : Obligations.BcExtExtendsTheArgument := by
  intro s n
  constructor
  · intro hn
    have hvalue := signedWord_extend_toInt hn (lowBits_lt s.arg n)
    refine ⟨_, execBcExt_of_le hn s, succeeded_of_status rfl, ?_, fun h1 htop => ?_, fun h1 htop => ?_, rfl,
      memorySame_of_mem_eq rfl rfl⟩
    · rintro rfl
      rfl
    · rw [succeedWith_result, hvalue, extend_of_not_top h1 ((testBit_lowBits s.arg h1).trans htop), lowBits_cast]
    · rw [succeedWith_result, hvalue, extend_of_top h1 ((testBit_lowBits s.arg h1).trans htop), lowBits_cast]
  · intro hn
    exact ⟨_, execBcExt_of_gt hn s, failed_of_status .badArg rfl rfl, rfl, memorySame_of_mem_eq rfl rfl⟩

/-- Settles O4, word by word. -/
theorem specWordsDecode : Obligations.SpecWordsDecode :=
  ⟨rfl, rfl, rfl, rfl, rfl, rfl, rfl, rfl, rfl, rfl, rfl, rfl, rfl, rfl, rfl⟩

/-- Settles O13: NOP is the success procedure alone. -/
theorem nopOnlyReportsSuccess : Obligations.NopOnlyReportsSuccess :=
  fun s => ⟨succeed s, rfl, succeeded_of_status rfl, rfl, memorySame_of_mem_eq rfl rfl⟩

end Sys2Proof.Proofs
end

section
/-! SRESET empties every slot (40_control.md R131). -/

namespace Sys2Proof.Machine

theorem execSreset_tree {s t : State} (h : execSreset s = .next t) (slot : Fin 8) : t.tree slot = none := by
  cases h
  exact Vector.getElem_replicate slot.isLt

end Sys2Proof.Machine

namespace Sys2Proof.Proofs

open Sys2Proof.Machine

/-- Settles O14: the state SRESET leaves, field by field, its STATUS the success procedure's on a cleared one. -/
theorem sresetDiscardsTheSession : Obligations.SresetDiscardsTheSession := by
  intro s
  have hstatus : statusSucceed 0#32 = 0x00000001#32 := by decide
  exact ⟨_, rfl, (execSreset_status (s := s) rfl).trans hstatus, rfl, execSreset_tree (s := s) rfl, rfl, rfl, rfl,
    memorySame_of_mem_eq rfl rfl⟩

end Sys2Proof.Proofs
end


section
/-! The bit cursor commands (41_bitcursor.md R144 to R151): how a fixed-length read ends, which bytes it looks at,
receive/extend as a map onto its two ranges, the round-up of BC.ALIGN, and which command changes which unit (R140,
42_huffman.md R170, 43_scanline.md R210). -/

namespace Sys2Proof.Machine

/-! The four ways a fixed-length read ends (R144, R149, R150). -/

section
variable {n : Nat} (post : Nat → Word) (s : State)

theorem readCommand_of_gt (hn : 16 < n) : readCommand n post s = .next (fail .badArg s) :=
  if_pos hn

theorem readCommand_of_invalid (hn : n ≤ 16) (hv : s.cursor.valid = false) :
    readCommand n post s = .next (fail .cursorInvalid s) :=
  (if_neg (Nat.not_lt_of_le hn)).trans (if_pos hv)

theorem readCommand_of_short (hn : n ≤ 16) (hv : s.cursor.valid = true) (ha : s.cursor.avail < n) :
    readCommand n post s = .next (failCursor .underrun s) := by
  rw [readCommand, maxBits, if_neg (Nat.not_lt_of_le hn), if_neg (by simp [hv]), if_pos ha]

theorem readCommand_of_readBits (hn : n ≤ 16) (hv : s.cursor.valid = true) (ha : n ≤ s.cursor.avail) {v : Nat}
    {c : Cursor} (hr : readBits s n 0 s.cursor = .ok (v, c)) :
    readCommand n post s = .next (succeedWith (post v) (s.withCursor c)) := by
  rw [readCommand, maxBits, if_neg (Nat.not_lt_of_le hn), if_neg (by simp [hv]), if_neg (Nat.not_lt_of_le ha), hr]

end

/-- BC.READ and BC.READX are one fixed-length read, but for what they make of the value. -/
theorem exec_fixedRead {i : Instr} {n : Nat} (hi : i = .bcRead n ∨ i = .bcReadX n) :
    ∃ post, ∀ s, exec i s = readCommand n post s := by
  rcases hi with rfl | rfl
  · exact ⟨unsignedWord, fun _ => rfl⟩
  · exact ⟨fun v => signedWord (extend v n), fun _ => rfl⟩

/-! A byte written outside the bytes a read looks at (R145). -/

theorem streamBit_putByte {j p : Nat} (hj : p / 8 ≠ j) (s : State) (v : Byte) :
    streamBit (s.putByte .stream j v) p = streamBit s p := by
  rw [streamBit, byteAt_putByte, if_neg (fun h => hj h.2), streamBit]

theorem streamBits_putByte {j p n : Nat} (hj : ∀ i, i < n → (p + i) / 8 ≠ j) (s : State) (v : Byte) :
    streamBits (s.putByte .stream j v) p n = streamBits s p n :=
  List.map_congr_left fun i hi => streamBit_putByte (hj i (List.mem_range.1 hi)) s v

/-- A run of bits inside the stream reads the same after a write to a byte that holds none of them. -/
theorem readBits_putByte {s : State} {n j : Nat} {c : Cursor} (hs : s.params.streamSize < 2 ^ 32)
    (h : c.position + n ≤ 8 * s.params.streamSize) (hj : ∀ i, i < n → (c.position + i) / 8 ≠ j) (v : Byte) :
    readBits (s.putByte .stream j v) n 0 c = readBits s n 0 c := by
  obtain ⟨c₁, hr₁, hpos₁, hvalid₁, hend₁⟩ := readBits_of_le (v := 0) hs h
  obtain ⟨c₂, hr₂, hpos₂, hvalid₂, hend₂⟩ := readBits_of_le (s := s.putByte .stream j v) (v := 0) hs h
  have hc : c₂ = c₁ :=
    Cursor.ext_position (hpos₂.trans hpos₁.symm) (hvalid₂.trans hvalid₁.symm) (hend₂.trans hend₁.symm)
  rw [hr₂, hr₁, streamBits_putByte hj, hc]

/-- At most 16 bits from a cursor on lie in its byte and the two after it. -/
theorem Cursor.bits_in_three_bytes (c : Cursor) {n j : Nat} (hn : n ≤ 16)
    (hj : j < c.byte.toNat ∨ c.byte.toNat + 2 < j) : ∀ i, i < n → (c.position + i) / 8 ≠ j := by
  have hbit := c.bit_lt
  intro i hi
  unfold Cursor.position
  omega

/-- A fixed-length read does the same where a byte it does not look at has been written. -/
theorem readCommand_putByte {s t : State} (hinv : StateInv s) {n : Nat} {post : Nat → Word} {j : Nat} (v : Byte)
    (hj : j < s.cursor.byte.toNat ∨ s.cursor.byte.toNat + 2 < j) (h : readCommand n post s = .next t) :
    readCommand n post (s.putByte .stream j v) = .next (t.putByte .stream j v) := by
  rcases readCommand_cases h with ⟨hn, rfl⟩ | ⟨hn, hv, rfl⟩ | ⟨hn, hv, ha, rfl⟩ | ⟨hn, hv, ha, x, c, hr, rfl⟩
  · exact readCommand_of_gt post _ hn
  · exact readCommand_of_invalid post _ hn hv
  · exact readCommand_of_short post _ hn hv ha
  · have hsame := readBits_putByte hinv.stream_lt (hinv.cursor.position_add_le ha)
      (s.cursor.bits_in_three_bytes hn hj) v
    exact readCommand_of_readBits post (s.putByte .stream j v) hn hv ha (hsame.trans hr)

/-! BC.READX as two commands (R150). -/

theorem lowBits_unsignedWord {v n : Nat} (hn : n ≤ 16) (hv : v < 2 ^ n) : lowBits (unsignedWord v) n = v := by
  rw [lowBits, unsignedWord_toNat hn hv, Nat.mod_eq_of_lt hv]

/-- BC.EXT with a value in ARG as BC.READ returns it extends that value. -/
theorem execBcExt_of_field {n v : Nat} (hn : n ≤ 16) (hv : v < 2 ^ n) (s : State) :
    exec (.bcExt n) { s with arg := unsignedWord v } =
      .next (succeedWith (signedWord (extend v n)) { s with arg := unsignedWord v }) := by
  rw [execBcExt_of_le hn, lowBits_unsignedWord hn hv]

theorem statusSucceed_idem (st : Word) : statusSucceed (statusSucceed st) = statusSucceed st := by
  refine BitVec.eq_of_getLsbD_eq fun i _ => ?_
  simp only [getLsbD_statusSucceed]
  grind

/-- A second success report adds nothing, and ARG put back is as it was. -/
theorem succeedWith_succeedWith (s : State) (v w : Word) :
    ({ succeedWith w { succeedWith v s with arg := v } with arg := s.arg } : State) = succeedWith w s := by
  simp [succeedWith, succeed, statusSucceed_idem]

/-! Receive/extend on the two halves of the n-bit values (R146, R147). -/

theorem extend_of_low {v n : Nat} (hn : 1 ≤ n) (hv : v < 2 ^ (n - 1)) : extend v n = v - (2 ^ n - 1) :=
  extend_of_not_top hn (Nat.testBit_lt_two_pow hv)

theorem extend_of_high {v n : Nat} (hn : 1 ≤ n) (hlo : 2 ^ (n - 1) ≤ v) (hhi : v < 2 ^ n) : extend v n = v :=
  extend_of_top hn (Nat.testBit_of_two_pow_le_and_two_pow_add_one_gt hlo (by rwa [Nat.sub_add_cancel hn]))

/-- The two halves of the n-bit values, and what each extends to. -/
theorem extend_halves {v n : Nat} (hn : 1 ≤ n) (hv : v < 2 ^ n) :
    (v < 2 ^ (n - 1) ∧ extend v n = v - (2 ^ n - 1)) ∨ (2 ^ (n - 1) ≤ v ∧ extend v n = v) := by
  rcases lt_or_ge v (2 ^ (n - 1)) with hlo | hhi
  · exact .inl ⟨hlo, extend_of_low hn hlo⟩
  · exact .inr ⟨hhi, extend_of_high hn hhi hv⟩

theorem extend_injective {n : Nat} (hn : 1 ≤ n) {v v' : Nat} (hv : v < 2 ^ n) (hv' : v' < 2 ^ n)
    (h : extend v n = extend v' n) : v = v' := by
  have hpow : ((2 ^ n : Nat) : Int) = 2 ^ n := Int.natCast_pow 2 n
  have hpos := Nat.two_pow_pos (n - 1)
  rcases extend_halves hn hv with ⟨-, hx⟩ | ⟨hge, hx⟩ <;> rcases extend_halves hn hv' with ⟨-, hx'⟩ | ⟨hge', hx'⟩
  all_goals
    rw [hx, hx'] at h
    omega

/-- The range of receive/extend: a negative half and a positive one, with no small value between. -/
theorem exists_extend_eq_iff {n : Nat} (hn : 1 ≤ n) (x : Int) :
    (∃ v, v < 2 ^ n ∧ extend v n = x) ↔
      (-(2 ^ n - 1) ≤ x ∧ x ≤ -2 ^ (n - 1)) ∨ (2 ^ (n - 1) ≤ x ∧ x ≤ 2 ^ n - 1) := by
  have hpow : ((2 ^ n : Nat) : Int) = 2 ^ n := Int.natCast_pow 2 n
  have hhalf : ((2 ^ (n - 1) : Nat) : Int) = 2 ^ (n - 1) := Int.natCast_pow 2 (n - 1)
  have hdouble : 2 ^ n = 2 * 2 ^ (n - 1) := by rw [← Nat.pow_succ', Nat.succ_eq_add_one, Nat.sub_add_cancel hn]
  constructor
  · rintro ⟨v, hv, rfl⟩
    rcases extend_halves hn hv with ⟨hlo, hx⟩ | ⟨hhi, hx⟩
    all_goals
      rw [hx]
      omega
  · rintro (⟨hlo, hhi⟩ | ⟨hlo, hhi⟩)
    · refine ⟨(x + (2 ^ n - 1)).toNat, by omega, ?_⟩
      rw [extend_of_low hn (by omega)]
      omega
    · refine ⟨x.toNat, by omega, ?_⟩
      rw [extend_of_high hn (by omega) (by omega)]
      omega

/-! BC.ALIGN (R151). -/

@[simp] theorem Cursor.align_valid (c : Cursor) : c.align.valid = c.valid := by
  unfold Cursor.align; split <;> rfl

@[simp] theorem Cursor.align_endBound (c : Cursor) : c.align.endBound = c.endBound := by
  unfold Cursor.align; split <;> rfl

/-- Alignment rounds the position up to a multiple of 8, where the byte index does not wrap. -/
theorem Cursor.position_align {c : Cursor} (h : c.byte.toNat < 2 ^ 32 - 1) :
    c.align.position = 8 * ((c.position + 7) / 8) := by
  have hlt := c.bit_lt
  unfold Cursor.align Cursor.position
  split
  · next hb =>
    rw [hb, BitVec.toNat_zero]
    omega
  · next hb =>
    have hne : c.bit.toNat ≠ 0 := fun h0 => hb (BitVec.eq_of_toNat_eq h0)
    have hnext : (c.byte + 1#32).toNat = c.byte.toNat + 1 := by
      simp only [BitVec.toNat_add, BitVec.toNat_ofNat]
      omega
    rw [hnext, BitVec.toNat_zero]
    omega

/-! Each unit's own commands (41_bitcursor.md R140, 42_huffman.md R170, 43_scanline.md R210). -/

/-- The commands that move the cursor. -/
def movesCursor : Instr → Bool
  | .bcLoad => true
  | .bcRead _ => true
  | .bcReadX _ => true
  | .bcAlign => true
  | .htDecode _ _ => true
  | _ => false

/-- The slot a command builds a table in. -/
def builtSlot : Instr → Option (Fin 8)
  | .htBuild cls dst => some (slotOf cls dst)
  | _ => none

/-- The commands of the filter. -/
def movesFilter : Instr → Bool
  | .sfInit => true
  | .sfPush _ => true
  | _ => false

/-- From `s` to `t` nothing changed in a unit that command `i` does not own. -/
structure KeepsOtherUnits (i : Instr) (s t : State) : Prop where
  cursor : movesCursor i = false → t.cursor = s.cursor
  tree : ∀ slot, builtSlot i ≠ some slot → t.tree slot = s.tree slot
  filter : movesFilter i = false → t.filter = s.filter

theorem tree_of_trees_eq {s t : State} (h : t.trees = s.trees) (slot : Fin 8) : t.tree slot = s.tree slot := by
  rw [State.tree, State.tree, h]

theorem KeepsOtherUnits.of_eq (i : Instr) {s t : State} (hc : t.cursor = s.cursor) (ht : t.trees = s.trees)
    (hf : t.filter = s.filter) : KeepsOtherUnits i s t :=
  ⟨fun _ => hc, fun slot _ => tree_of_trees_eq ht slot, fun _ => hf⟩

theorem KeepsOtherUnits.of_cursor {i : Instr} (hi : movesCursor i = true) {s t : State} (ht : t.trees = s.trees)
    (hf : t.filter = s.filter) : KeepsOtherUnits i s t :=
  ⟨fun h => by simp [hi] at h, fun slot _ => tree_of_trees_eq ht slot, fun _ => hf⟩

theorem KeepsOtherUnits.of_filter {i : Instr} (hi : movesFilter i = true) {s t : State} (hc : t.cursor = s.cursor)
    (ht : t.trees = s.trees) : KeepsOtherUnits i s t :=
  ⟨fun _ => hc, fun slot _ => tree_of_trees_eq ht slot, fun h => by simp [hi] at h⟩

/-- A report changes no unit. -/
theorem KeepsOtherUnits.reported {i : Instr} {s u t : State} (h : KeepsOtherUnits i s u) (hr : Reported i u t) :
    KeepsOtherUnits i s t := by
  obtain ⟨hc, ht, hf⟩ := h
  cases hr <;> exact ⟨hc, ht, hf⟩

theorem readCommand_keepsOtherUnits {i : Instr} (hi : movesCursor i = true) {n : Nat} {post : Nat → Word} {s t : State}
    (h : readCommand n post s = .next t) : KeepsOtherUnits i s t := by
  rcases readCommand_cases h with ⟨-, rfl⟩ | ⟨-, -, rfl⟩ | ⟨-, -, -, rfl⟩ | ⟨-, -, -, v, c, -, rfl⟩
  all_goals exact .of_cursor hi rfl rfl

theorem decodeSlot_keepsOtherUnits {i : Instr} (hi : movesCursor i = true) {slot : Fin 8} {s t : State}
    (h : decodeSlot slot s = .next t) : KeepsOtherUnits i s t := by
  rcases decodeSlot_cases h with ⟨-, rfl⟩ | ⟨r, -, -, rfl⟩ | ⟨r, e, c, -, -, -, rfl⟩
  · exact .of_cursor hi rfl rfl
  · exact .of_cursor hi rfl rfl
  · cases e
    all_goals exact .of_cursor hi rfl rfl

theorem tree_withTree_of_ne (s : State) {slot other : Fin 8} (r : Option Root) (h : slot ≠ other) :
    (s.withTree slot r).tree other = s.tree other :=
  Vector.getElem_set_ne slot.isLt other.isLt (Fin.val_ne_of_ne h)

theorem execHtBuild_keepsOtherUnits {cls : TableClass} {dst : Fin 4} {s t : State}
    (h : execHtBuild cls dst s = .next t) : KeepsOtherUnits (.htBuild cls dst) s t := by
  have hset : ∀ r, KeepsOtherUnits (.htBuild cls dst) s (s.withTree (slotOf cls dst) r) := fun r =>
    ⟨fun _ => rfl, fun slot hne => tree_withTree_of_ne s r fun he => hne (congrArg some he), fun _ => rfl⟩
  rw [execHtBuild_cases h]
  rcases buildSlot_cases (slotOf cls dst) s with ⟨-, h⟩ | ⟨-, h⟩ | ⟨-, -, -, h⟩ | ⟨-, -, r, -, h⟩ <;> rw [h]
  · exact (hset none).reported (.error _)
  · exact (hset none).reported (.error _)
  · exact (hset none).reported (.error _)
  · exact (hset (some r)).reported .ok

theorem execSfPush_keepsOtherUnits {b : Byte} {s t : State} (h : execSfPush b s = .next t) :
    KeepsOtherUnits (.sfPush b) s t := by
  rcases execSfPush_cases h with ⟨-, rfl⟩ | ⟨-, -, rfl⟩ | ⟨-, -, -, rfl⟩ | ⟨-, -, -, u, hu, rfl⟩
  · exact .of_filter rfl rfl rfl
  · exact .of_filter rfl rfl rfl
  · rcases tagByte_cases b s with ⟨type, -, h⟩ | ⟨-, h⟩ <;> rw [h]
    · exact .of_filter rfl rfl rfl
    · exact .of_filter rfl rfl rfl
  · obtain ⟨n, -, rfl⟩ := dataByte_ok hu
    rw [advanced_eq, stored_eq]
    exact .of_filter rfl rfl rfl

/-- Every command but SRESET keeps the units it does not own. -/
theorem exec_keepsOtherUnits {i : Instr} {s t : State} (hi : i ≠ .sreset) (h : exec i s = .next t) :
    KeepsOtherUnits i s t := by
  cases i with
  | nop => obtain rfl := execNop_cases h; exact .of_eq _ rfl rfl rfl
  | sreset => exact absurd rfl hi
  | bcLoad =>
    rcases execBcLoad_cases h with ⟨-, rfl⟩ | ⟨-, rfl⟩
    · exact .of_cursor rfl rfl rfl
    · exact .of_cursor rfl rfl rfl
  | bcRead n => exact readCommand_keepsOtherUnits rfl h
  | bcReadX n => exact readCommand_keepsOtherUnits rfl h
  | bcAlign =>
    rcases execBcAlign_cases h with ⟨-, rfl⟩ | ⟨-, rfl⟩
    · exact .of_cursor rfl rfl rfl
    · exact .of_cursor rfl rfl rfl
  | bcExt n =>
    rcases execBcExt_cases h with ⟨-, rfl⟩ | ⟨-, rfl⟩
    · exact .of_eq _ rfl rfl rfl
    · exact .of_eq _ rfl rfl rfl
  | htBuild cls dst => exact execHtBuild_keepsOtherUnits h
  | htDecode cls dst => exact decodeSlot_keepsOtherUnits rfl h
  | idct =>
    obtain rfl := execIdct_cases h
    exact .of_eq _ (by simp) (by simp) (by simp)
  | sfInit =>
    rcases execSfInit_cases h with ⟨-, rfl⟩ | ⟨-, rfl⟩
    · exact .of_filter rfl rfl rfl
    · exact .of_filter rfl rfl rfl
  | sfPush b => exact execSfPush_keepsOtherUnits h

end Sys2Proof.Machine

namespace Sys2Proof.Proofs

open Sys2Proof.Machine

/-- Settles O18: the two reads see the same bits and stop at the same cursor, and the field BC.READ returns is the one
BC.EXT takes from ARG. -/
theorem bcReadXIsReadThenExtend : Obligations.BcReadXIsReadThenExtend := by
  intro s n h hn hv ha
  obtain ⟨c, hr, hpos, -, -⟩ := readBits_of_le (v := 0) h.stream_lt (h.cursor.position_add_le ha)
  have hlt := bitsValue_streamBits_lt s s.cursor.position n
  have hread := readCommand_of_readBits unsignedWord s hn hv ha hr
  have hreadX := readCommand_of_readBits (fun v => signedWord (extend v n)) s hn hv ha hr
  exact ⟨_, _, hread, execBcExt_of_field hn hlt _,
    hreadX.trans (congrArg Host.Outcome.next (succeedWith_succeedWith _ _ _).symm), hpos,
    succeeded_of_status (statusSucceed_idem s.status), rfl, memorySame_of_mem_eq rfl rfl⟩

/-- Settles O20, by rounding the position up. -/
theorem bcAlignRoundsUp : Obligations.BcAlignRoundsUp := by
  intro s h
  constructor
  · intro hv
    have hexec : exec .bcAlign s = .next (succeed (s.withCursor s.cursor.align)) := if_neg (by simp [hv])
    have hbyte : s.cursor.byte.toNat < 2 ^ 32 - 1 := by
      have hle := h.cursor.byte_le
      obtain ⟨-, hsize, -, -⟩ := h.params
      omega
    exact ⟨_, hexec, succeeded_of_status rfl, Cursor.position_align hbyte, s.cursor.align_valid.trans hv,
      s.cursor.align_endBound, rfl, memorySame_of_mem_eq rfl rfl⟩
  · intro hv
    have hexec : exec .bcAlign s = .next (fail .cursorInvalid s) := if_pos hv
    exact ⟨_, hexec, failed_of_status .cursorInvalid rfl rfl, rfl, memorySame_of_mem_eq rfl rfl⟩

/-- Settles O22, by the two halves of the n-bit values. -/
theorem extendIsOneToOne : Obligations.ExtendIsOneToOne := by
  intro n h1 hn
  refine ⟨fun v hv v' hv' => extend_injective h1 hv hv', exists_extend_eq_iff h1, fun v hv => ?_, ?_⟩
  · obtain ⟨hlo, hhi⟩ := extend_range hn hv
    exact ⟨hlo.le, hhi, signedWord_extend_toInt hn hv⟩
  · decide

/-- Settles O23: the bits read lie in three bytes, and the written byte is none of them. -/
theorem fixedReadTouchesThreeBytes : Obligations.FixedReadTouchesThreeBytes := by
  intro s t n i j v h hi hj ht
  obtain ⟨post, hexec⟩ := exec_fixedRead hi
  rw [hexec] at ht ⊢
  exact readCommand_putByte h v hj ht

/-- Settles O49, by the units each command owns. -/
theorem eachUnitHasItsOwnCommands : Obligations.EachUnitHasItsOwnCommands := by
  intro i s t hi h
  obtain ⟨hcursor, htree, hfilter⟩ := exec_keepsOtherUnits hi h
  refine ⟨fun hload hread hreadx halign hdecode => hcursor ?_, fun slot hbuild => htree slot ?_,
    fun hinit hpush => hfilter ?_⟩
  · cases i with
    | bcLoad => exact absurd rfl hload
    | bcRead n => exact absurd rfl (hread n)
    | bcReadX n => exact absurd rfl (hreadx n)
    | bcAlign => exact absurd rfl halign
    | htDecode c d => exact absurd rfl (hdecode c d)
    | _ => rfl
  · cases i with
    | htBuild c d => exact fun he => hbuild c d rfl (Option.some.inj he)
    | _ => simp [builtSlot]
  · cases i with
    | sfInit => exact absurd rfl hinit
    | sfPush b => exact absurd rfl (hpush b)
    | _ => rfl

/-- Settles O16, by the comparison of ARG with BC_END. -/
theorem bcLoadStartsTheCursor : Obligations.BcLoadStartsTheCursor := by
  intro s
  constructor
  · intro hle
    have hexec : exec .bcLoad s =
        .next (succeed (s.withCursor { s.cursor with byte := s.arg, bit := 0#3, valid := true })) :=
      if_neg (Nat.not_lt_of_le hle)
    exact ⟨_, hexec, succeeded_of_status rfl, rfl, rfl, memorySame_of_mem_eq rfl rfl⟩
  · intro hlt
    have hexec : exec .bcLoad s = .next (fail .badArg s) := if_pos hlt
    exact ⟨_, hexec, failed_of_status .badArg rfl rfl, rfl, memorySame_of_mem_eq rfl rfl⟩

/-- Settles O19, by the three ways a fixed-length read fails. -/
theorem fixedReadFailures : Obligations.FixedReadFailures := by
  intro s n i hi
  obtain ⟨post, hexec⟩ := exec_fixedRead hi
  rw [hexec]
  refine ⟨fun hn => ?_, fun hn hv => ?_, fun hn hv ha => ?_⟩
  · exact ⟨_, readCommand_of_gt post s hn, failed_of_status .badArg rfl rfl, rfl, memorySame_of_mem_eq rfl rfl⟩
  · exact ⟨_, readCommand_of_invalid post s hn hv, failed_of_status .cursorInvalid rfl rfl, rfl,
      memorySame_of_mem_eq rfl rfl⟩
  · exact ⟨_, readCommand_of_short post s hn hv ha, failed_of_status .underrun rfl rfl, rfl,
      memorySame_of_mem_eq rfl rfl⟩

end Sys2Proof.Proofs
end

section
/-! HT.BUILD (42_huffman.md R171 to R180): the histogram's counts, when a build succeeds, and how it ends. -/

namespace Sys2Proof.Machine

/-! The histogram (R171, R179). -/

theorem histogram_length (s : State) : (histogram s).length = 16 := rfl

/-- The list's sum and the sum over 1 to 16 add the same counts in the same order, so both evaluate alike. -/
theorem symbolCount_eq_totalCount (s : State) : symbolCount s = totalCount s := rfl

theorem kraftOf_histogram (s : State) : kraftOf (histogram s) = kraftSum s := rfl

theorem symbolList_length (s : State) : (symbolList s).length = symbolCount s := by
  simp [symbolList]

/-! When a build succeeds (R174, R179). -/

/-- The root is the one node a level above depth 1 has: a build with no symbol of length 0. -/
theorem nodesAtDepthZero_of_buildTree {lengths : List Nat} {syms : List Byte} {r : Root}
    (h : buildTree lengths syms = some r) : nodesAtDepthOne (splitByLength (0 :: lengths) syms) = [r.node] := by
  have hroot : nodesAtDepthOne (splitByLength (0 :: lengths) syms) =
      pairUp (nodesAtDepthOne (splitByLength lengths syms)) := rfl
  rcases buildTree_some h with ⟨hone, hempty⟩ | htwo
  · rw [hroot, hone, pairUp, Root.node, hempty]
  · rw [hroot, htwo]
    rfl

theorem buildTree_isSome_iff_length (lengths : List Nat) (syms : List Byte) :
    (buildTree lengths syms).isSome = true ↔
      nodesAtDepthOne (splitByLength lengths syms) ≠ [] ∧
        (nodesAtDepthOne (splitByLength lengths syms)).length ≤ 2 := by
  unfold buildTree
  rcases nodesAtDepthOne (splitByLength lengths syms) with _ | ⟨a, _ | ⟨b, _ | ⟨c, rest⟩⟩⟩ <;> simp

/-- With a symbol for each count a build succeeds exactly when there is a symbol and the Kraft sum is at most 1. -/
theorem buildTree_isSome_iff {lengths : List Nat} {syms : List Byte} (h : lengths.sum ≤ syms.length) :
    (buildTree lengths syms).isSome = true ↔ 1 ≤ lengths.sum ∧ kraftOf lengths ≤ 2 ^ lengths.length := by
  have hcut := splitByLength_map_length lengths syms h
  have hnil : nodesAtDepthOne (splitByLength lengths syms) = [] ↔ lengths.sum = 0 := by
    rw [nodesAtDepthOne_eq_nil_iff]
    conv_rhs => rw [← hcut]
    simp [List.sum_eq_zero_iff]
  have hkraft := nodesAtDepthOne_length_le_iff (splitByLength lengths syms) 2
  rw [hcut, splitByLength_length] at hkraft
  rw [buildTree_isSome_iff_length, Ne, hnil]
  omega

theorem buildTree_histogram_isSome_iff (s : State) :
    (buildTree (histogram s) (symbolList s)).isSome = true ↔ 1 ≤ totalCount s ∧ kraftSum s ≤ 2 ^ 16 := by
  rw [buildTree_isSome_iff (symbolList_length s).ge, kraftOf_histogram, histogram_length]
  rfl

/-! How HT.BUILD ends (R176). -/

@[simp] theorem tree_withTree_same (s : State) (slot : Fin 8) (r : Option Root) : (s.withTree slot r).tree slot = r := by
  simp [State.tree]

theorem exec_htBuild (cls : TableClass) (dst : Fin 4) (s : State) :
    exec (.htBuild cls dst) s = .next (buildSlot (slotOf cls dst) s) := rfl

theorem buildSlot_of_buildable {s : State} (h : Buildable s) (slot : Fin 8) :
    ∃ r, buildTree (histogram s) (symbolList s) = some r ∧ buildSlot slot s = succeed (s.withTree slot (some r)) := by
  obtain ⟨hpos, hle, hkraft⟩ := h
  have htree := (buildTree_histogram_isSome_iff s).2 ⟨hpos, hkraft⟩
  rw [← symbolCount_eq_totalCount] at hpos hle
  rcases buildSlot_cases slot s with ⟨hmany, -⟩ | ⟨hempty, -⟩ | ⟨-, -, hnone, -⟩ | ⟨-, -, r, hr, hslot⟩
  · omega
  · omega
  · simp [hnone] at htree
  · exact ⟨r, hr, hslot⟩

/-- The code of a rejected build depends on the first rule the histogram breaks. -/
theorem buildSlot_of_not_buildable {s : State} (h : ¬ Buildable s) (slot : Fin 8) :
    ∃ c, buildSlot slot s = fail c (s.withTree slot none) ∧ (256 < totalCount s → c = .buildTooMany) ∧
      (totalCount s = 0 → c = .buildEmpty) ∧ (1 ≤ totalCount s → totalCount s ≤ 256 → c = .buildOversub) := by
  rcases buildSlot_cases slot s with
    ⟨hmany, hslot⟩ | ⟨hempty, hslot⟩ | ⟨hpos, hle, -, hslot⟩ | ⟨hpos, hle, r, hr, -⟩
  · rw [symbolCount_eq_totalCount] at hmany
    exact ⟨_, hslot, fun _ => rfl, fun _ => by omega, fun _ _ => by omega⟩
  · rw [symbolCount_eq_totalCount] at hempty
    exact ⟨_, hslot, fun _ => by omega, fun _ => rfl, fun _ _ => by omega⟩
  · rw [symbolCount_eq_totalCount] at hpos hle
    exact ⟨_, hslot, fun _ => by omega, fun _ => by omega, fun _ _ => rfl⟩
  · obtain ⟨-, hkraft⟩ := (buildTree_histogram_isSome_iff s).1 (by simp [hr])
    exact absurd ⟨hpos, hle, hkraft⟩ h

end Sys2Proof.Machine

namespace Sys2Proof.Proofs

open Sys2Proof.Machine

/-- Settles O24, by whether the histogram is accepted. -/
theorem htBuildSucceedsExactly : Obligations.HtBuildSucceedsExactly := by
  intro s cls dst
  refine ⟨_, exec_htBuild cls dst s, ?_⟩
  change (_ ↔ Buildable s) ∧ _
  by_cases h : Buildable s
  · obtain ⟨r, -, hslot⟩ := buildSlot_of_buildable h (slotOf cls dst)
    rw [hslot]
    exact ⟨by simp [h], by simp [tree_of_trees_eq (succeed_trees _), h]⟩
  · obtain ⟨c, hslot, -⟩ := buildSlot_of_not_buildable h (slotOf cls dst)
    rw [hslot]
    exact ⟨by simp [h], by simp [tree_of_trees_eq (fail_trees c _), h]⟩

/-- Settles O25, by the table that an accepted histogram builds. -/
theorem htBuildFillsOnlyItsSlot : Obligations.HtBuildFillsOnlyItsSlot := by
  intro s cls dst h
  obtain ⟨r, -, hslot⟩ := buildSlot_of_buildable h (slotOf cls dst)
  refine ⟨_, r, (exec_htBuild cls dst s).trans (congrArg Host.Outcome.next hslot), succeeded_of_status rfl, ?_,
    fun slot hne => ?_, rfl, memorySame_of_mem_eq rfl rfl⟩
  · exact tree_withTree_same s _ _
  · exact tree_withTree_of_ne s _ hne.symm

/-- Settles O26, by whether the histogram is accepted: each error names a rule that an accepted one meets. -/
theorem htBuildErrorsEmptyTheSlot : Obligations.HtBuildErrorsEmptyTheSlot := by
  intro s cls dst
  refine ⟨_, exec_htBuild cls dst s, ?_⟩
  by_cases h : Buildable s
  · obtain ⟨hpos, hle, hkraft⟩ := h
    exact ⟨fun _ => by omega, fun _ => by omega, fun _ _ _ => by omega, fun hn => absurd ⟨hpos, hle, hkraft⟩ hn⟩
  · obtain ⟨c, hslot, hmany, hempty, hover⟩ := buildSlot_of_not_buildable h (slotOf cls dst)
    have hfailed : Failed c.number c.stickyBit s (fail c (s.withTree (slotOf cls dst) none)) :=
      failed_of_status c rfl rfl
    rw [hslot]
    refine ⟨fun hn => ?_, fun hn => ?_, fun hpos hle _ => ?_, fun _ => ⟨?_, fun slot hne => ?_, rfl,
      memorySame_of_mem_eq rfl rfl⟩⟩
    · cases hmany hn
      exact hfailed
    · cases hempty hn
      exact hfailed
    · cases hover hpos hle
      exact hfailed
    · exact tree_withTree_same s _ _
    · exact tree_withTree_of_ne s _ hne.symm

end Sys2Proof.Proofs
end

section
/-! HT.DECODE (42_huffman.md R181 to R187): the checks before the walk, and how the command ends where the stream's bits
lead to a node. -/

namespace Sys2Proof.Machine

theorem exec_htDecode (cls : TableClass) (dst : Fin 4) (s : State) :
    exec (.htDecode cls dst) s = decodeSlot (slotOf cls dst) s := rfl

/-- At an inner node with no bit left a walk ends in UNDERRUN (R185). -/
theorem walk_inner_of_no_bit (s : State) (c0 c1 : Child) {c : Cursor} (ha : c.avail = 0) :
    walk s (.inner c0 c1) c = .ok (.underrun, c) := by
  rw [walk, if_pos ha]

/-- No bit is left at a cursor that is as many bits further as were left. -/
theorem Cursor.avail_eq_zero_of_all_taken {c d : Cursor} (hp : d.position = c.position + c.avail)
    (he : d.endBound = c.endBound) : d.avail = 0 := by
  have hc := c.avail_eq
  have hd := d.avail_eq
  rw [he] at hd
  omega

section
variable {slot : Fin 8} {s : State} {r : Root}

theorem decodeSlot_of_empty (ht : s.tree slot = none) : decodeSlot slot s = .next (fail .tableInvalid s) := by
  simp [decodeSlot, ht]

theorem decodeSlot_of_invalid (ht : s.tree slot = some r) (hv : s.cursor.valid = false) :
    decodeSlot slot s = .next (fail .cursorInvalid s) := by
  simp [decodeSlot, ht, hv]

theorem decodeSlot_of_walk (ht : s.tree slot = some r) (hv : s.cursor.valid = true) {e : WalkEnd × Cursor}
    (hw : walk s r.node s.cursor = .ok e) : decodeSlot slot s = .next (endWalk s e) := by
  rw [Root.node] at hw
  simp [decodeSlot, ht, hv, hw]

/-- Where `n` bits are left and lead from the root to a node at which a walk ends as `e`, the command ends so, `n` bits
further. -/
theorem decodeSlot_of_follow (h : StateInv s) (ht : s.tree slot = some r) (hv : s.cursor.valid = true) {n : Nat}
    (hn : n ≤ s.cursor.avail) {node : Child} {e : WalkEnd}
    (hf : r.node.follow (streamBits s s.cursor.position n) = some node)
    (hend : ∀ c : Cursor, c.position = s.cursor.position + n → c.endBound = s.cursor.endBound →
      walk s node c = .ok (e, c)) :
    ∃ c, decodeSlot slot s = .next (endWalk s (e, c)) ∧ c.position = s.cursor.position + n ∧ c.valid = true ∧
      c.endBound = s.cursor.endBound := by
  obtain ⟨c, hw, hvalid, hbound, hpos⟩ := walk_follow h.stream_lt h.cursor.end_le hn hf
  exact ⟨c, decodeSlot_of_walk ht hv (hw.trans (hend c hpos hbound)), hpos, hvalid.trans hv, hbound⟩

/-- A walk that reaches a leaf ends the command with the leaf's symbol, the bits of its path consumed (R184). -/
theorem decodeSlot_of_leaf (h : StateInv s) (ht : s.tree slot = some r) (hv : s.cursor.valid = true) {n : Nat}
    (hn : n ≤ s.cursor.avail) {sym : Byte}
    (hf : r.node.follow (streamBits s s.cursor.position n) = some (.leaf sym)) :
    ∃ c, decodeSlot slot s = .next (succeedWith (sym.setWidth 32) (s.withCursor c)) ∧
      c.position = s.cursor.position + n ∧ c.valid = true ∧ c.endBound = s.cursor.endBound :=
  decodeSlot_of_follow (e := .symbol sym) h ht hv hn hf fun _ _ _ => rfl

/-- HT.DECODE takes no more bits than are left, nor more than the table is deep. -/
theorem decodeSlot_position {t : State} (h : StateInv s) (hd : decodeSlot slot s = .next t) :
    s.cursor.position ≤ t.cursor.position ∧ t.cursor.position ≤ s.cursor.position + min s.cursor.avail 16 := by
  rcases decodeSlot_cases hd with ⟨-, rfl⟩ | ⟨r, -, -, rfl⟩ | ⟨r, e, c, ht, -, hw, rfl⟩
  · exact ⟨le_refl _, Nat.le_add_right ..⟩
  · exact ⟨le_refl _, Nat.le_add_right ..⟩
  · obtain ⟨e', c', hw', -, -, hlo, hhi⟩ := walk_of_le (node := r.node) h.stream_lt h.cursor.end_le
    cases hw.symm.trans hw'
    have hdepth := h.depth slot r ht
    have hpos : (endWalk s (e, c)).cursor.position = c.position := by
      rcases endWalk_cases s e c with ⟨sym, -, he⟩ | ⟨-, he⟩ | ⟨-, he⟩ <;> rw [he] <;> rfl
    rw [hpos]
    omega

end

end Sys2Proof.Machine

namespace Sys2Proof.Proofs

open Sys2Proof.Machine

/-- Settles O30: the walk follows the stream's bits to the leaf. -/
theorem htDecodeReturnsTheLeaf : Obligations.HtDecodeReturnsTheLeaf := by
  intro s cls dst r n sym h ht hv hn hf
  obtain ⟨c, hd, hpos, hvalid, hbound⟩ := decodeSlot_of_leaf h ht hv hn hf
  exact ⟨_, hd, succeeded_of_status rfl, rfl, hpos, hvalid, hbound, rfl, memorySame_of_mem_eq rfl rfl⟩

/-- Settles O31, by the node at which the walk ends: an Empty child, or an inner node with no bit left. -/
theorem failedWalkKeepsConsumedBits : Obligations.FailedWalkKeepsConsumedBits := by
  intro s cls dst r h ht hv
  constructor
  · intro n hn hf
    obtain ⟨c, hd, hpos, -, hbound⟩ := decodeSlot_of_follow (e := .invalidCode) h ht hv hn hf fun _ _ _ => rfl
    exact ⟨_, hd, failed_of_status .invalidCode rfl rfl, hpos, rfl, hbound, rfl, memorySame_of_mem_eq rfl rfl⟩
  · intro c0 c1 hf
    obtain ⟨c, hd, hpos, -, hbound⟩ := decodeSlot_of_follow (e := .underrun) h ht hv le_rfl hf fun c hpos hbound =>
      walk_inner_of_no_bit s c0 c1 (Cursor.avail_eq_zero_of_all_taken hpos hbound)
    exact ⟨_, hd, failed_of_status .underrun rfl rfl, hpos, rfl, hbound, rfl, memorySame_of_mem_eq rfl rfl⟩

/-- Settles O33, by the depth clause of the invariant. -/
theorem htDecodeTakesAtMostSixteenBits : Obligations.HtDecodeTakesAtMostSixteenBits := by
  intro s t cls dst h hd
  obtain ⟨hlo, hhi⟩ := decodeSlot_position h hd
  omega

/-- Settles O32, by the order of the two checks. -/
theorem htDecodeChecksTableThenCursor : Obligations.HtDecodeChecksTableThenCursor := by
  intro s cls dst
  constructor
  · intro ht
    exact ⟨_, decodeSlot_of_empty ht, failed_of_status .tableInvalid rfl rfl, rfl, memorySame_of_mem_eq rfl rfl⟩
  · intro r ht hv
    exact ⟨_, decodeSlot_of_invalid ht hv, failed_of_status .cursorInvalid rfl rfl, rfl, memorySame_of_mem_eq rfl rfl⟩

end Sys2Proof.Proofs
end

section
/-! The canonical codes (42_huffman.md R178, R180, R188). A symbol's code is the path from the root to its leaf, shown level
by level from the bottom of the tree; in the tree whose symbols are their own positions that tells two codes apart. -/

namespace Sys2Proof.Machine

/-! Paths (R183). -/

theorem Child.follow_append (node : Child) (a b : List Bool) :
    node.follow (a ++ b) = (node.follow a).bind (·.follow b) := by
  induction a generalizing node with
  | nil => rfl
  | cons bit a ih =>
    cases node with
    | empty => rfl
    | leaf sym => rfl
    | inner c0 c1 => exact ih _

/-- Nothing is below a leaf. -/
theorem Child.follow_leaf_eq_some {sym : Byte} {bits : List Bool} {node : Child}
    (h : (Child.leaf sym).follow bits = some node) : node = .leaf sym := by
  cases bits with
  | nil => exact (Option.some.inj h).symm
  | cons bit bits => cases h

/-- The node at place `j` of a level is the child of the parent at place `j / 2` that the lowest bit of `j` selects. -/
theorem pairUp_getElem? {nodes : List Child} {j : Nat} {node : Child} (h : nodes[j]? = some node) :
    ∃ parent, (pairUp nodes)[j / 2]? = some parent ∧
      ∀ bits, parent.follow (j.testBit 0 :: bits) = node.follow bits := by
  induction nodes using pairUp.induct generalizing j with
  | case1 => simp at h
  | case2 a =>
    match j, h with
    | 0, h => cases h; exact ⟨_, rfl, fun _ => rfl⟩
  | case3 a b rest ih =>
    match j, h with
    | 0, h => cases h; exact ⟨_, rfl, fun _ => rfl⟩
    | 1, h => cases h; exact ⟨_, rfl, fun _ => rfl⟩
    | j + 2, h =>
      obtain ⟨parent, hparent, hfollow⟩ := ih h
      refine ⟨parent, ?_, fun bits => ?_⟩
      · rw [Nat.add_div_right j (by decide)]
        exact hparent
      · rw [← hfollow bits]
        simp [Nat.testBit_zero]

/-! Codes (R178). -/

theorem codeBits_succ (k code : Nat) : codeBits (k + 1) code = codeBits k (code / 2) ++ [code.testBit 0] := by
  induction k with
  | zero => rfl
  | succ k ih =>
    rw [codeBits, ih, codeBits, Nat.testBit_succ, List.cons_append]

theorem canonicalCodesFrom_length (k code : Nat) (lengths : List Nat) :
    (canonicalCodesFrom k code lengths).length = lengths.sum := by
  induction lengths generalizing k code with
  | nil => rfl
  | cons n lengths ih => simp [canonicalCodesFrom, ih]

/-- The code of symbol `i` goes on from the `k` bits of some node of the level at depth `k`, whose first node has the bits
of `code`, along the path from that node to the symbol's leaf. -/
theorem canonicalCodesFrom_follow {lengths : List Nat} {syms : List Byte} (hs : lengths.sum ≤ syms.length)
    {k code i : Nat} {bits : List Bool} (h : (canonicalCodesFrom k code lengths)[i]? = some bits) :
    ∃ j node path sym, (nodesAtDepthOne (splitByLength lengths syms))[j]? = some node ∧
      bits = codeBits k (code + j) ++ path ∧ syms[i]? = some sym ∧ node.follow path = some (.leaf sym) := by
  induction lengths generalizing syms k code i with
  | nil => simp [canonicalCodesFrom] at h
  | cons n lengths ih =>
    rw [List.sum_cons] at hs
    rw [canonicalCodesFrom] at h
    rw [splitByLength, nodesAtDepthOne]
    have hleaves : ((syms.take n).map Child.leaf).length = n := by
      rw [List.length_map, List.length_take]
      omega
    by_cases hi : i < n
    · rw [List.getElem?_append_left (by simpa using hi)] at h
      have hbits : codeBits k (code + i) = bits := by simpa [hi] using h
      have hsym : syms[i]? = some syms[i] := List.getElem?_eq_getElem _
      refine ⟨i, .leaf syms[i], [], syms[i], ?_, by simp [hbits], hsym, rfl⟩
      rw [List.getElem?_append_left (by omega)]
      simp [hi]
    · rw [List.getElem?_append_right (by simpa using hi), List.length_map, List.length_range] at h
      obtain ⟨j, node, path, sym, hnode, hbits, hsym, hfollow⟩ := ih (syms := syms.drop n)
        (by rw [List.length_drop]; omega) h
      obtain ⟨parent, hparent, hstep⟩ := pairUp_getElem? hnode
      refine ⟨n + j / 2, parent, j.testBit 0 :: path, sym, ?_, ?_, ?_, by rw [hstep, hfollow]⟩
      · rw [List.getElem?_append_right (by omega), hleaves, Nat.add_sub_cancel_left, hparent]
      · have hhalf : (2 * (code + n) + j) / 2 = code + (n + j / 2) := by omega
        have hlow : (2 * (code + n) + j).testBit 0 = j.testBit 0 := by simp [Nat.testBit_zero]
        rw [hbits, codeBits_succ, hhalf, hlow, List.append_assoc]
        rfl
      · rw [← hsym, List.getElem?_drop]
        congr 1
        omega

/-- The canonical code of symbol `i` leads from the root of a built table to that symbol. -/
theorem follow_canonicalCode {lengths : List Nat} {syms : List Byte} {r : Root} (hb : buildTree lengths syms = some r)
    (hs : lengths.sum ≤ syms.length) {i : Nat} {code : List Bool} (h : (canonicalCodes lengths)[i]? = some code) :
    ∃ sym, syms[i]? = some sym ∧ r.node.follow code = some (.leaf sym) := by
  have hroot : canonicalCodesFrom 0 0 (0 :: lengths) = canonicalCodes lengths := rfl
  rw [← hroot] at h
  obtain ⟨j, node, path, sym, hnode, rfl, hsym, hfollow⟩ :=
    canonicalCodesFrom_follow (syms := syms) (by simpa using hs) h
  rw [nodesAtDepthZero_of_buildTree hb] at hnode
  obtain ⟨rfl, rfl⟩ : j = 0 ∧ r.node = node := by
    simpa [List.getElem?_singleton] using hnode
  exact ⟨sym, hsym, hfollow⟩

theorem lt_and_eq_of_getElem?_map_range {α : Type} {f : Nat → α} {n i : Nat} {x : α}
    (h : ((List.range n).map f)[i]? = some x) : i < n ∧ f i = x := by
  obtain ⟨hi, rfl⟩ := List.getElem?_eq_some_iff.1 h
  simpa using hi

/-- A symbol list in which every symbol is its own position. -/
def positionSymbols (n : Nat) : List Byte := (List.range n).map (BitVec.ofNat 8)

theorem positionSymbols_length (n : Nat) : (positionSymbols n).length = n := by
  simp [positionSymbols]

theorem positionSymbols_inj {n : Nat} (hn : n ≤ 256) {i j : Nat} {sym : Byte} (hi : (positionSymbols n)[i]? = some sym)
    (hj : (positionSymbols n)[j]? = some sym) : i = j := by
  obtain ⟨hi, rfl⟩ := lt_and_eq_of_getElem?_map_range hi
  obtain ⟨hj, hsym⟩ := lt_and_eq_of_getElem?_map_range hj
  have hval := congrArg BitVec.toNat hsym
  simp only [BitVec.toNat_ofNat] at hval
  omega

/-- Codes of at most 256 symbols whose Kraft sum is at most 1 are prefix-free: each leads to a leaf of its own in one
tree. -/
theorem canonicalCodes_prefixFree {lengths : List Nat} (hpos : 1 ≤ lengths.sum) (hle : lengths.sum ≤ 256)
    (hkraft : kraftOf lengths ≤ 2 ^ lengths.length) {i j : Nat} {a b : List Bool}
    (ha : (canonicalCodes lengths)[i]? = some a) (hb : (canonicalCodes lengths)[j]? = some b) (hab : a <+: b) :
    i = j := by
  have hlen : lengths.sum ≤ (positionSymbols lengths.sum).length := (positionSymbols_length _).ge
  obtain ⟨r, hr⟩ := Option.isSome_iff_exists.1 ((buildTree_isSome_iff hlen).2 ⟨hpos, hkraft⟩)
  obtain ⟨sym, hi, hfa⟩ := follow_canonicalCode hr hlen ha
  obtain ⟨sym', hj, hfb⟩ := follow_canonicalCode hr hlen hb
  obtain ⟨rest, rfl⟩ := hab
  rw [Child.follow_append, hfa] at hfb
  cases Child.follow_leaf_eq_some hfb
  exact positionSymbols_inj hle hi hj

theorem symbolList_getElem? {s : State} {i : Nat} {sym : Byte} (h : (symbolList s)[i]? = some sym) :
    s.byteAt .htSym i = sym :=
  (lt_and_eq_of_getElem?_map_range h).2

/-- The table an accepted build leaves in its slot. -/
theorem tree_of_htBuild {s built : State} {cls : TableClass} {dst : Fin 4} (h : Buildable s)
    (hexec : exec (.htBuild cls dst) s = .next built) :
    ∃ r, buildTree (histogram s) (symbolList s) = some r ∧ built.tree (slotOf cls dst) = some r := by
  obtain ⟨r, hr, hslot⟩ := buildSlot_of_buildable h (slotOf cls dst)
  obtain rfl : built = succeed (s.withTree (slotOf cls dst) (some r)) := (execHtBuild_cases hexec).trans hslot
  exact ⟨r, hr, tree_withTree_same s _ _⟩

/-! A complete code (R180). -/

/-- No Empty child at or below a node. -/
def Child.NoEmpty : Child → Prop
  | .empty => False
  | .leaf _ => True
  | .inner c0 c1 => c0.NoEmpty ∧ c1.NoEmpty

/-- An even number of nodes pairs off with no Empty child. -/
theorem pairUp_noEmpty {nodes : List Child} (heven : 2 ∣ nodes.length) (h : ∀ a ∈ nodes, a.NoEmpty) :
    ∀ a ∈ pairUp nodes, a.NoEmpty := by
  induction nodes using pairUp.induct with
  | case1 => simp [pairUp]
  | case2 a => simp at heven
  | case3 a b rest ih =>
    simp only [List.length_cons] at heven
    intro parent hparent
    rw [pairUp, List.mem_cons] at hparent
    rcases hparent with rfl | hparent
    · exact ⟨h a (by simp), h b (by simp)⟩
    · exact ih (by omega) (fun node hnode => h node (by simp [hnode])) parent hparent

/-- Where the codes from a level down fill every node of the level, there is no Empty child at or below it. -/
theorem nodesAtDepthOne_noEmpty {groups : List (List Byte)}
    (h : 2 * kraftOf (groups.map List.length) = (nodesAtDepthOne groups).length * 2 ^ groups.length) :
    ∀ a ∈ nodesAtDepthOne groups, a.NoEmpty := by
  induction groups with
  | nil => simp [nodesAtDepthOne]
  | cons g groups ih =>
    have hfit := (nodesAtDepthOne_length_le_iff groups _).1 le_rfl
    have hpow : 0 < 2 ^ groups.length := Nat.two_pow_pos _
    simp only [nodesAtDepthOne, List.map_cons, kraftOf, List.length_append, List.length_map, pairUp_length,
      List.length_cons, pow_succ] at h ⊢
    set nodes := nodesAtDepthOne groups
    have hround : nodes.length ≤ 2 * ((nodes.length + 1) / 2) := by omega
    have hfull : 2 * kraftOf (groups.map List.length) = 2 * ((nodes.length + 1) / 2) * 2 ^ groups.length := by
      linarith
    have heven : nodes.length = 2 * ((nodes.length + 1) / 2) :=
      le_antisymm hround (Nat.le_of_mul_le_mul_right (hfull ▸ hfit) hpow)
    intro a ha
    rcases List.mem_append.1 ha with ha | ha
    · obtain ⟨sym, -, rfl⟩ := List.mem_map.1 ha
      exact trivial
    · exact pairUp_noEmpty ⟨_, heven⟩ (ih (by rw [hfull, ← heven])) a ha

theorem buildTree_noEmpty {lengths : List Nat} {syms : List Byte} {r : Root} (hb : buildTree lengths syms = some r)
    (hs : lengths.sum ≤ syms.length) (hkraft : kraftOf lengths = 2 ^ lengths.length) : r.node.NoEmpty := by
  have hroot := nodesAtDepthZero_of_buildTree hb
  refine nodesAtDepthOne_noEmpty (groups := splitByLength (0 :: lengths) syms) ?_ r.node (by simp [hroot])
  rw [splitByLength_map_length _ _ (by simpa using hs), splitByLength_length, hroot, List.length_singleton,
    List.length_cons, pow_succ, kraftOf, hkraft]
  ring

theorem walk_ne_invalidCode {s : State} {node : Child} (hn : node.NoEmpty) {c c' : Cursor} {e : WalkEnd}
    (h : walk s node c = .ok (e, c')) : e ≠ .invalidCode := by
  induction node generalizing c with
  | empty => exact hn.elim
  | leaf sym =>
    cases h
    simp
  | inner c0 c1 ih0 ih1 =>
    obtain ⟨h0, h1⟩ := hn
    rw [walk] at h
    split at h
    · cases h
      simp
    · split at h
      · cases h
      · exact ih0 h0 h
      · exact ih1 h1 h

end Sys2Proof.Machine

namespace Sys2Proof.Proofs

open Sys2Proof.Machine

/-- Settles O28: the code leads to its symbol in the built table, and HT.DECODE follows it there. -/
theorem canonicalCodeDecodesToItsSymbol : Obligations.CanonicalCodeDecodesToItsSymbol := by
  intro s built u cls dst i code hbuild hexec hu htree hv hcode hn hbits
  obtain ⟨r, hr, hbuilt⟩ := tree_of_htBuild hbuild hexec
  obtain ⟨sym, hsym, hfollow⟩ := follow_canonicalCode hr (symbolList_length s).ge hcode
  rw [symbolList_getElem? hsym]
  exact htDecodeReturnsTheLeaf u cls dst r code.length sym hu (htree.trans hbuilt) hv hn (by rw [hbits, hfollow])

/-- Settles O27, by a tree in which every code leads to its own position. -/
theorem canonicalCodesArePrefixFree : Obligations.CanonicalCodesArePrefixFree := by
  intro s hbuild
  obtain ⟨hpos, hle, hkraft⟩ := hbuild
  exact ⟨canonicalCodesFrom_length 1 0 (histogram s), fun i j a b ha hb hab =>
    canonicalCodes_prefixFree hpos hle hkraft ha hb hab⟩

/-- Settles O29: the built table has no Empty child for a walk to reach, and no other end reports INVALID_CODE. -/
theorem completeCodeHasNoInvalidCode : Obligations.CompleteCodeHasNoInvalidCode := by
  intro s built u t cls dst hpos hle hkraft hexec htree hdecode
  obtain ⟨r, hr, hbuilt⟩ := tree_of_htBuild ⟨hpos, hle, hkraft.le⟩ hexec
  have hfull := buildTree_noEmpty hr (symbolList_length s).ge hkraft
  rcases decodeSlot_cases hdecode with ⟨-, rfl⟩ | ⟨r', -, -, rfl⟩ | ⟨r', e, c, hr', -, hw, rfl⟩
  · simp [ErrCode.number]
  · simp [ErrCode.number]
  · cases (htree.trans hbuilt).symm.trans hr'
    rcases endWalk_cases u e c with ⟨sym, -, he⟩ | ⟨-, he⟩ | ⟨rfl, -⟩
    · simp [he]
    · simp [he, ErrCode.number]
    · exact absurd rfl (walk_ne_invalidCode hfull hw)

end Sys2Proof.Proofs
end

section
/-! The scanline filter's commands (43_scanline.md R211 to R227): how SF.INIT and SF.PUSH end, the filter type of a tag,
the reconstruction formulas, and what a data byte leaves in each bank. -/

namespace Sys2Proof.Machine

/-! How SF.INIT and SF.PUSH end outside a scanline. -/

theorem exec_sfInit_of_configOk {s : State}
    (h : configOk s.params s.sfWidth.toNat s.sfHeight.toNat s.sfBpp.toNat = true) :
    exec .sfInit s = .next (succeed (s.withFilter (initialFilter s))) := if_pos h

theorem exec_sfInit_of_not_configOk {s : State}
    (h : ¬ configOk s.params s.sfWidth.toNat s.sfHeight.toNat s.sfBpp.toNat = true) :
    exec .sfInit s = .next (fail .sfBadConfig (s.withFilter { s.filter with active := false })) := if_neg h

theorem execSfPush_of_inactive {s : State} (ha : s.filter.active = false) (b : Byte) :
    execSfPush b s = .next (fail .sfNotReady s) := if_pos ha

theorem execSfPush_of_complete {s : State} (ha : s.filter.active = true) (hr : s.filter.row = s.filter.height)
    (b : Byte) : execSfPush b s = .next (fail .sfOverrun s) := by
  rw [execSfPush, if_neg (by simp [ha]), if_pos hr]

/-! Tags (R214). -/

/-- The filter type of a tag is that of its number. -/
theorem filterType_of_toNat {b : Byte} {type type' : FilterType} {n : Nat} (h : filterTypeOf b = some type)
    (hn : b.toNat = n) (h' : filterTypeOf (BitVec.ofNat 8 n) = some type') : type = type' := by
  rw [← hn, BitVec.ofNat_toNat, BitVec.setWidth_eq, h] at h'
  exact Option.some.inj h'

/-! Reconstruction (R218 to R222). -/

theorem recon_toNat (type : FilterType) (raw : Byte) (n : Neighbours) :
    (recon type raw n).toNat = (raw.toNat + (predictor type n).toNat) % 256 :=
  BitVec.toNat_add ..

/-- How far the candidate `v` lies from A + B - C (R222). -/
def paethDistance (a b c v : Byte) : Int := |(a.toNat : Int) + b.toNat - c.toNat - v.toNat|

/-- The Paeth predictor is the nearest candidate, ties in the order A, B, C. -/
theorem paeth_eq (a b c : Byte) :
    paeth a b c =
      if paethDistance a b c a ≤ paethDistance a b c b ∧ paethDistance a b c a ≤ paethDistance a b c c then a
      else if paethDistance a b c b ≤ paethDistance a b c c then b else c := by
  simp only [paeth, paethDistance, Int.abs_eq_natAbs, Int.ofNat_le]

/-- The halved sum of two bytes is a byte. -/
theorem average_toNat (n : Neighbours) : (predictor .average n).toNat = (n.a.toNat + n.b.toNat) / 2 := by
  have ha := n.a.isLt
  have hb := n.b.isLt
  rw [predictor, BitVec.toNat_ofNat, Nat.mod_eq_of_lt (by omega)]

/-! A data byte, bank by bank (R223 to R225). -/

section
variable (s : State) (r c : Nat) (x : Byte)

/-- The state after the data byte `x` of row `r` and column `c` is stored and the column advanced (R213). -/
def storedAndAdvanced : State := advanced (stored s r c x) r c

/-- A data byte changes memory and the filter alone. -/
theorem storedAndAdvanced_eq :
    storedAndAdvanced s r c x =
      { s with mem := (storedAndAdvanced s r c x).mem, filter := (storedAndAdvanced s r c x).filter } := by
  have hstored := stored_eq s r c x
  have hadvanced := advanced_eq (stored s r c x) r c
  unfold storedAndAdvanced
  generalize advanced (stored s r c x) r c = u at *
  generalize stored s r c x = w at *
  rw [hadvanced, hstored]

/-- With the success procedure, STATUS too. -/
theorem succeed_storedAndAdvanced_eq :
    succeed (storedAndAdvanced s r c x) =
      { s with
        status := (succeed (storedAndAdvanced s r c x)).status
        mem := (storedAndAdvanced s r c x).mem
        filter := (storedAndAdvanced s r c x).filter } := by
  have h := storedAndAdvanced_eq s r c x
  generalize storedAndAdvanced s r c x = u at *
  rw [h]
  rfl

theorem storedAndAdvanced_status : (storedAndAdvanced s r c x).status = s.status := by
  rw [storedAndAdvanced_eq]

theorem byteAt_cur_storedAndAdvanced (i : Nat) :
    (storedAndAdvanced s r c x).byteAt .cur i = if i = c then x else s.byteAt .cur i := by
  rw [storedAndAdvanced, bankSame_advanced _ _ _ (by decide)]
  simp [byteAt_stored]

theorem byteAt_out_storedAndAdvanced (i : Nat) :
    (storedAndAdvanced s r c x).byteAt .out i =
      if writesAlpha s.filter c = true ∧ i = alphaIndex s.filter r c then 255#8
      else if i = outIndex s.filter r c then x else s.byteAt .out i := by
  rw [storedAndAdvanced, bankSame_advanced _ _ _ (by decide)]
  simp [byteAt_stored]

/-- A pixel byte's place is no alpha byte, so the alpha write leaves it. -/
theorem byteAt_out_storedAndAdvanced_place :
    (storedAndAdvanced s r c x).byteAt .out (outIndex s.filter r c) = x := by
  rw [byteAt_out_storedAndAdvanced, if_neg, if_pos rfl]
  rintro ⟨hw, he⟩
  exact outIndex_ne_alpha ((writesAlpha_iff ..).1 hw).1 r c _ he

/-- At the end of the line PREV takes the line that CUR holds (R225). -/
theorem byteAt_prev_storedAndAdvanced (i : Nat) :
    (storedAndAdvanced s r c x).byteAt .prev i =
      if c + 1 = s.filter.line.toNat ∧ i < s.filter.line.toNat then (storedAndAdvanced s r c x).byteAt .cur i
      else s.byteAt .prev i := by
  rw [storedAndAdvanced, byteAt_advanced, bankSame_advanced _ _ _ (by decide)]
  simp [byteAt_stored]

theorem bankSame_storedAndAdvanced {b : ByteBank} (hc : b ≠ .cur) (ho : b ≠ .out) (hp : b ≠ .prev) :
    BankSame b s (storedAndAdvanced s r c x) := by
  intro i
  rw [storedAndAdvanced, bankSame_advanced _ _ _ hp]
  simp [byteAt_stored, hc, ho]

theorem wordsSame_storedAndAdvanced (b : WordBank) : WordsSame b s (storedAndAdvanced s r c x) := fun i =>
  (wordAt_advanced _ r c b i).trans (wordAt_stored s r c x b i)

variable {s r c}

theorem storedAndAdvanced_filter_of_ne (h : c + 1 ≠ s.filter.line.toNat) :
    (storedAndAdvanced s r c x).filter = { s.filter with col := BitVec.ofNat 32 (c + 1) } := by
  rw [storedAndAdvanced, advanced_filter_of_ne (by simpa using h), stored_filter]

theorem storedAndAdvanced_filter_of_eq (h : c + 1 = s.filter.line.toNat) :
    (storedAndAdvanced s r c x).filter = { s.filter with col := tagNext, row := BitVec.ofNat 32 (r + 1) } := by
  rw [storedAndAdvanced, advanced_filter_of_eq (by simpa using h), stored_filter]

end

/-- A data byte is reconstructed from its neighbours in the lines that CUR and PREV hold (R213, R217). -/
theorem exec_sfPush_data {s : State} (h : StateInv s) (raw : Byte) (ha : s.filter.active = true)
    (hr : s.filter.row ≠ s.filter.height) (hc : s.filter.col ≠ tagNext) :
    exec (.sfPush raw) s = .next (succeed (storedAndAdvanced s s.filter.row.toNat s.filter.col.toNat
      (recon s.filter.filterType raw (rowNeighbours s.filter.bpp.toNat (s.filter.row.toNat == 0) (s.byteAt .cur)
        (s.byteAt .prev) s.filter.col.toNat)))) := by
  obtain ⟨hbpp, -⟩ := (configOk_iff ..).1 (h.filter ha).config
  rw [← neighboursOf_eq_rowNeighbours s.filter.row.toNat (by omega) (fun _ _ => rfl) fun _ => rfl]
  exact execSfPush_data h raw ha hr hc

end Sys2Proof.Machine

namespace Sys2Proof.Proofs

open Sys2Proof.Machine

/-- Settles O38, by the accepted configuration. -/
theorem sfInitLatchesTheConfiguration : Obligations.SfInitLatchesTheConfiguration := by
  intro s hbpp hw hh hline himage
  exact ⟨_, exec_sfInit_of_configOk ((configOk_iff ..).2 ⟨hbpp, hw, hh, hline, himage⟩), succeeded_of_status rfl,
    rfl, rfl, rfl, BitVec.toNat_ofNat .., rfl, rfl, rfl, rfl, rfl, rfl, memorySame_of_mem_eq rfl rfl⟩

/-- Settles O39, by the rejected configuration. -/
theorem sfInitRejectsBadConfigurations : Obligations.SfInitRejectsBadConfigurations := by
  intro s hbad
  exact ⟨_, exec_sfInit_of_not_configOk fun hok => hbad ((configOk_iff ..).1 hok),
    failed_of_status .sfBadConfig rfl rfl, rfl, rfl, memorySame_of_mem_eq rfl rfl⟩

/-- Settles O40, by whether the tag has a filter type. -/
theorem tagByteSelectsTheFilter : Obligations.TagByteSelectsTheFilter := by
  intro s b ha hr hc
  have hexec : exec (.sfPush b) s = .next (tagByte b s) := execSfPush_tag ha hr hc b
  rw [hexec]
  rcases tagByte_cases b s with ⟨type, htype, htag⟩ | ⟨hnone, htag⟩ <;> rw [htag]
  · have hle : ¬ 4 < b.toNat := fun hlt => by simp [(filterTypeOf_eq_none_iff b).2 hlt] at htype
    refine ⟨fun _ => ⟨_, rfl, succeeded_of_status rfl, ?_, ?_, ?_, ?_, ?_, rfl, memorySame_of_mem_eq rfl rfl⟩,
      fun hlt => absurd hlt hle⟩
    all_goals exact fun hn => filterType_of_toNat htype hn rfl
  · have hlt := (filterTypeOf_eq_none_iff b).1 hnone
    exact ⟨fun hle => absurd hlt (Nat.not_lt_of_le hle),
      fun _ => ⟨_, rfl, failed_of_status .sfBadFilter rfl rfl, rfl, memorySame_of_mem_eq rfl rfl⟩⟩

/-- Settles O41: the byte is stored, then the filter advances. -/
theorem dataByteIsReconstructedAndStored : Obligations.DataByteIsReconstructedAndStored := by
  intro s raw h ha hr hc f r c x place alpha third
  have hrow : r < f.height.toNat := row_lt_of_ne (h.filter ha) hr
  have hheight := f.height.isLt
  have hrowNext : r + 1 < 2 ^ 32 := by omega
  refine ⟨_, exec_sfPush_data h raw ha hr hc,
    succeeded_of_status (congrArg statusSucceed (storedAndAdvanced_status s r c x)), ?cur, fun i hi => ?curFrame,
    byteAt_out_storedAndAdvanced_place s r c x, fun hthird => ?alpha, fun i hplace halpha => ?outFrame,
    fun hne => ⟨storedAndAdvanced_filter_of_ne x hne, fun i => ?prevKept⟩,
    fun hend => ⟨?row, ?filter, fun i hi => ?prevLine, fun i hi => ?prevFrame⟩,
    bankSame_storedAndAdvanced s r c x (by decide) (by decide) (by decide),
    bankSame_storedAndAdvanced s r c x (by decide) (by decide) (by decide),
    bankSame_storedAndAdvanced s r c x (by decide) (by decide) (by decide),
    wordsSame_storedAndAdvanced s r c x, ?frame⟩
  case cur => exact (byteAt_cur_storedAndAdvanced s r c x c).trans (if_pos rfl)
  case curFrame => exact (byteAt_cur_storedAndAdvanced s r c x i).trans (if_neg hi)
  case alpha =>
    exact (byteAt_out_storedAndAdvanced s r c x alpha).trans (if_pos ⟨(writesAlpha_iff f c).2 hthird, rfl⟩)
  case outFrame =>
    have hno : ¬ (writesAlpha f c = true ∧ i = alphaIndex f r c) :=
      fun ⟨hw, hi⟩ => halpha ⟨(writesAlpha_iff f c).1 hw, hi⟩
    exact (byteAt_out_storedAndAdvanced s r c x i).trans ((if_neg hno).trans (if_neg hplace))
  case prevKept => exact (byteAt_prev_storedAndAdvanced s r c x i).trans (if_neg fun hp => hne hp.1)
  case row =>
    rw [succeed_filter, storedAndAdvanced_filter_of_eq _ hend, BitVec.toNat_ofNat, Nat.mod_eq_of_lt hrowNext]
  case filter =>
    rw [succeed_filter, storedAndAdvanced_filter_of_eq _ hend]
    rfl
  case prevLine => exact (byteAt_prev_storedAndAdvanced s r c x i).trans (if_pos ⟨hend, hi⟩)
  case prevFrame =>
    exact (byteAt_prev_storedAndAdvanced s r c x i).trans (if_neg fun hp => absurd hp.2 (Nat.not_lt_of_le hi))
  case frame => exact succeed_storedAndAdvanced_eq s r c x

/-- Settles O42, by the predictor of each filter type. -/
theorem reconstructionFormulas : Obligations.ReconstructionFormulas := by
  intro raw n d
  have hpaeth : predictor .paeth n =
      if d n.a ≤ d n.b ∧ d n.a ≤ d n.c then n.a else if d n.b ≤ d n.c then n.b else n.c := paeth_eq n.a n.b n.c
  refine ⟨BitVec.add_zero raw, recon_toNat .sub raw n, recon_toNat .up raw n, ?_, fun hab hac => ?_,
    fun ha hbc => ?_, fun ha hb => ?_⟩
  · rw [recon_toNat, average_toNat]
  · rw [recon_toNat, hpaeth, if_pos ⟨hab, hac⟩]
  · rw [recon_toNat, hpaeth, if_neg ha, if_pos hbc]
  · rw [recon_toNat, hpaeth, if_neg ha, if_neg hb]

/-- Settles O43, by the two checks that come before the byte. -/
theorem pushOutsideAnImageFails : Obligations.PushOutsideAnImageFails := by
  intro s b
  constructor
  · intro ha
    exact ⟨_, execSfPush_of_inactive ha b, failed_of_status .sfNotReady rfl rfl, rfl, memorySame_of_mem_eq rfl rfl⟩
  · intro ha hr
    exact ⟨_, execSfPush_of_complete ha hr b, failed_of_status .sfOverrun rfl rfl, rfl,
      memorySame_of_mem_eq rfl rfl⟩

end Sys2Proof.Proofs
end

section
/-! The inverse DCT (44_idct.md): what the command leaves, the cosine basis as a matrix, in which the separable form and
the round trip are matrix identities, and the accuracy that a block of any accurate arithmetic inherits. -/

namespace Sys2Proof.Machine

open Matrix

/-! The command (R240, R243). -/

theorem exec_idct (s : State) : exec .idct s = idctWith Config.idctImpl s := rfl

theorem wordAt_idctOut_of_exec_idct {s t : State} (h : exec .idct s = .next t) (j : Fin 64) :
    t.wordAt .idctOut j.val = (Config.idctImpl (block s .idctIn)).get j := by
  obtain ⟨u, hu, hout⟩ := idctWith_next Config.idctImpl s
  rw [exec_idct, hu] at h
  cases h
  exact hout j

/-- Elements past the block keep their value (R240). -/
theorem wordAt_idctOut_of_exec_idct_of_le {s t : State} (h : exec .idct s = .next t) {j : Nat} (hj : 64 ≤ j) :
    t.wordAt .idctOut j = s.wordAt .idctOut j := by
  rw [execIdct_cases h, wordAt_succeed, wordAt_writeBlock, dif_neg fun hlt => absurd hlt.2 (Nat.not_lt_of_le hj)]

theorem block_congr {s s' : State} {b : WordBank} (h : ∀ j, j < 64 → s.wordAt b j = s'.wordAt b j) :
    block s b = block s' b :=
  congrArg Vector.ofFn (funext fun j => h j.val j.isLt)

/-- The rows and columns of a block cover it (10_state.md R61). -/
theorem exists_blockIndex (j : Fin 64) : ∃ x y, blockIndex x y = j :=
  ⟨⟨j.val / 8, by omega⟩, ⟨j.val % 8, by omega⟩, Fin.ext (Nat.div_add_mod j.val 8)⟩

/-- An accurate arithmetic leaves each output within `eps` of the exact transform of IDCT_IN (R242). -/
theorem idctWith_accurate {impl : Vector Word 64 → Vector Word 64} {eps : Rat} (hacc : IdctAccurate impl eps)
    {s : State} (hdom : InIdctDomain (block s .idctIn)) :
    ∃ t, idctWith impl s = .next t ∧ ∀ (x y : Fin 8) (e : ℝ),
      IsIdctExact (fun u v => (coefficient (block s .idctIn) u v : ℝ)) x y e →
        floatFinite (t.wordAt .idctOut (blockIndex x y).val) = true ∧
          |(floatValue (t.wordAt .idctOut (blockIndex x y).val) : ℝ) - e| ≤ eps := by
  obtain ⟨t, ht, hout⟩ := idctWith_next impl s
  refine ⟨t, ht, fun x y e he => ?_⟩
  rw [hout]
  exact hacc _ hdom x y e he

/-! The cosine basis (R241, R246, R247). -/

/-- Row `u`, column `x`: the weight C(u) times cos((2x + 1) u pi / 16). -/
noncomputable def dctBasis : Matrix (Fin 8) (Fin 8) ℝ := Matrix.of fun u x =>
  (if u = 0 then 1 / √2 else 1) * Real.cos ((2 * x.val + 1) * u.val * Real.pi / 16)

theorem dctBasis_apply (u x : Fin 8) :
    dctBasis u x = (if u = 0 then 1 / √2 else 1) * Real.cos ((2 * x.val + 1) * u.val * Real.pi / 16) := rfl

theorem dctBasis_zero (x : Fin 8) : dctBasis 0 x = 1 / √2 := by
  simp [dctBasis_apply]

/-- The columns are orthogonal, each of squared length 4. -/
theorem dctBasis_transpose_mul_self : dctBasisᵀ * dctBasis = (4 : ℝ) • (1 : Matrix (Fin 8) (Fin 8) ℝ) := by
  ext x a
  calc (dctBasisᵀ * dctBasis) x a = if x = a then 4 else 0 := by
        rw [← cosine_orthonormal x a, Matrix.mul_apply]
        refine Finset.sum_congr rfl fun u _ => ?_
        rw [Matrix.transpose_apply, dctBasis_apply, dctBasis_apply]
        ring
    _ = ((4 : ℝ) • (1 : Matrix (Fin 8) (Fin 8) ℝ)) x a := by
        simp [Matrix.one_apply]

theorem isTransform1d_iff (c : Fin 8 → ℝ) (x : Fin 8) (g : ℝ) :
    IsTransform1d c x g ↔ g = 1 / 2 * ∑ u, c u * dctBasis u x := by
  have hterm : ∀ u : Fin 8, (if u = 0 then 1 / √2 else 1) * c u *
      Real.cos ((2 * x.val + 1) * u.val * Real.pi / 16) = c u * dctBasis u x := by
    intro u
    rw [dctBasis_apply]
    ring
  simp only [IsTransform1d, hterm]

theorem isIdctExact_iff_sum (f : Fin 8 → Fin 8 → ℝ) (x y : Fin 8) (e : ℝ) :
    IsIdctExact f x y e ↔ e = 1 / 4 * ∑ u, ∑ v, f u v * dctBasis v y * dctBasis u x := by
  have hterm : ∀ u v : Fin 8, (if u = 0 then 1 / √2 else 1) * (if v = 0 then 1 / √2 else 1) * f u v *
      Real.cos ((2 * x.val + 1) * u.val * Real.pi / 16) * Real.cos ((2 * y.val + 1) * v.val * Real.pi / 16) =
        f u v * dctBasis v y * dctBasis u x := by
    intro u v
    rw [dctBasis_apply, dctBasis_apply]
    ring
  simp only [IsIdctExact, hterm]

/-- The exact transform of `f` is (1/4) Bᵀ f B. -/
theorem isIdctExact_iff_matrix (f : Fin 8 → Fin 8 → ℝ) (x y : Fin 8) (e : ℝ) :
    IsIdctExact f x y e ↔ e = 1 / 4 * (dctBasisᵀ * (Matrix.of f * dctBasis)) x y := by
  rw [isIdctExact_iff_sum]
  simp only [Matrix.mul_apply, Matrix.transpose_apply, Matrix.of_apply, Finset.sum_mul, mul_comm (dctBasis _ x)]

/-- The forward DCT of `f` is (1/4) B f Bᵀ. -/
theorem isForwardDct_iff_matrix (f : Fin 8 → Fin 8 → ℝ) (u v : Fin 8) (c : ℝ) :
    IsForwardDct f u v c ↔ c = 1 / 4 * (dctBasis * (Matrix.of f * dctBasisᵀ)) u v := by
  have hsum : (dctBasis * (Matrix.of f * dctBasisᵀ)) u v = (if u = 0 then 1 / √2 else 1) *
      (if v = 0 then 1 / √2 else 1) * ∑ x : Fin 8, ∑ y : Fin 8, f x y *
        Real.cos ((2 * x.val + 1) * u.val * Real.pi / 16) * Real.cos ((2 * y.val + 1) * v.val * Real.pi / 16) := by
    simp only [Matrix.mul_apply, Matrix.transpose_apply, Matrix.of_apply, Finset.mul_sum]
    refine Finset.sum_congr rfl fun x _ => Finset.sum_congr rfl fun y _ => ?_
    rw [dctBasis_apply, dctBasis_apply]
    ring
  rw [hsum, IsForwardDct, mul_assoc, mul_assoc, mul_assoc]

/-- The 1-D transform of each row, then of the results, is the double sum (R247). -/
theorem isTransform1d_rows_iff_isIdctExact {f : Fin 8 → Fin 8 → ℝ} {x y : Fin 8} {rows : Fin 8 → ℝ}
    (hrows : ∀ u, IsTransform1d (f u) y (rows u)) (e : ℝ) : IsTransform1d rows x e ↔ IsIdctExact f x y e := by
  have hterm : ∀ u, rows u * dctBasis u x = 1 / 2 * ∑ v, f u v * dctBasis v y * dctBasis u x := by
    intro u
    rw [(isTransform1d_iff ..).1 (hrows u), mul_assoc, Finset.sum_mul]
  rw [isTransform1d_iff, isIdctExact_iff_sum]
  simp only [hterm]
  rw [← Finset.mul_sum, ← mul_assoc]
  norm_num

/-- In exact arithmetic the transform undoes the forward DCT: (1/16) Bᵀ B f Bᵀ B = f (R246). -/
theorem isIdctExact_of_isForwardDct {f F : Fin 8 → Fin 8 → ℝ} (hF : ∀ u v, IsForwardDct f u v (F u v)) (x y : Fin 8) :
    IsIdctExact F x y (f x y) := by
  have hmatrix : Matrix.of F = (1 / 4 : ℝ) • (dctBasis * (Matrix.of f * dctBasisᵀ)) := by
    ext u v
    exact (isForwardDct_iff_matrix ..).1 (hF u v)
  have hcancel : dctBasisᵀ * (Matrix.of F * dctBasis) = (4 : ℝ) • Matrix.of f := by
    calc dctBasisᵀ * (Matrix.of F * dctBasis)
        = (1 / 4 : ℝ) • ((dctBasisᵀ * dctBasis) * Matrix.of f * (dctBasisᵀ * dctBasis)) := by
          rw [hmatrix]
          simp only [Matrix.smul_mul, Matrix.mul_smul, Matrix.mul_assoc]
      _ = (4 : ℝ) • Matrix.of f := by
          rw [dctBasis_transpose_mul_self]
          simp [smul_smul]
  rw [isIdctExact_iff_matrix, hcancel]
  simp

/-- The exact transform of a DC coefficient alone is an eighth of it everywhere (R245). -/
theorem isIdctExact_of_dcOnly (d : ℝ) (x y : Fin 8) :
    IsIdctExact (fun u v => if u = 0 ∧ v = 0 then d else 0) x y (d / 8) := by
  have hdc : ∑ u : Fin 8, ∑ v : Fin 8, (if u = 0 ∧ v = 0 then d else 0) * dctBasis v y * dctBasis u x =
      d * dctBasis 0 y * dctBasis 0 x := by
    simp [ite_and]
  have hhalf : 1 / √2 * (1 / √2) = (1 / 2 : ℝ) := by
    rw [div_mul_div_comm, Real.mul_self_sqrt (by norm_num), one_mul]
  rw [isIdctExact_iff_sum, hdc, dctBasis_zero, dctBasis_zero, mul_assoc, hhalf]
  ring

end Sys2Proof.Machine

namespace Sys2Proof.Proofs

open Sys2Proof.Machine

/-- Settles O34: the block is written, then success reported. -/
theorem idctWritesTheTransform : Obligations.IdctWritesTheTransform := by
  intro s
  obtain ⟨t, hexec, hout⟩ := idctWith_next Config.idctImpl s
  obtain ⟨hbytes, hin⟩ := execIdct_memory hexec
  have ht := execIdct_cases hexec
  have hstatus : t.status = statusSucceed s.status := by rw [ht, succeed_status, writeBlock_status]
  have hframe : t = { s with status := t.status, mem := t.mem } := by
    rw [ht, writeBlock_eq]
    rfl
  exact ⟨t, hexec, succeeded_of_status hstatus, hout, fun j hj => wordAt_idctOut_of_exec_idct_of_le hexec hj, hin,
    hbytes, hframe⟩

/-- Settles O35: equal elements make equal blocks. -/
theorem idctDependsOnItsInputAlone : Obligations.IdctDependsOnItsInputAlone := by
  intro s s' t t' hin ht ht' j hj
  rw [wordAt_idctOut_of_exec_idct ht ⟨j, hj⟩, wordAt_idctOut_of_exec_idct ht' ⟨j, hj⟩, block_congr hin]

/-- Settles O36: the exact transform of a DC coefficient is an eighth of it, and the block is within `eps` of that. -/
theorem dcOnlyBlockComesOutFlat : Obligations.DcOnlyBlockComesOutFlat := by
  refine ⟨exec_idct, fun impl eps s d hacc hdom hdc => ?_⟩
  obtain ⟨t, ht, hout⟩ := idctWith_accurate hacc hdom
  refine ⟨t, ht, fun j hj => ?_⟩
  obtain ⟨x, y, hxy⟩ := exists_blockIndex ⟨j, hj⟩
  have hcoefficients : (fun u v => (coefficient (block s .idctIn) u v : ℝ)) =
      fun u v => if u = 0 ∧ v = 0 then (d : ℝ) else 0 := by
    funext u v
    rw [hdc, apply_ite (Rat.cast : ℚ → ℝ), Rat.cast_zero]
  obtain ⟨hfinite, hnear⟩ := hout x y _ (hcoefficients ▸ isIdctExact_of_dcOnly d x y)
  rw [hxy] at hfinite hnear
  exact ⟨hfinite, by exact_mod_cast hnear⟩

/-- Settles O37: the output is within `eps` of the exact transform of the coefficients, and that within 16 delta of the
exact transform of the forward DCT, which is `f`. -/
theorem transformIsSeparableAndInvertsTheForwardDct : Obligations.TransformIsSeparableAndInvertsTheForwardDct := by
  refine ⟨fun f x y rows e hrows => isTransform1d_rows_iff_isIdctExact hrows e,
    fun f F hF => isIdctExact_of_isForwardDct hF, exec_idct,
    fun impl eps s f F delta hacc hdom hF hdelta => ?_⟩
  obtain ⟨t, ht, hout⟩ := idctWith_accurate hacc hdom
  refine ⟨t, ht, fun x y => ?_⟩
  obtain ⟨hfinite, hnear⟩ := hout x y _ rfl
  have hinput := IsIdctExact.abs_le hdelta (IsIdctExact.sub rfl (isIdctExact_of_isForwardDct hF x y))
  exact ⟨hfinite, (abs_sub_le _ _ _).trans (add_le_add hnear hinput)⟩

end Sys2Proof.Proofs
end


section
/-! The two procedures by which a command ends (60_exceptions.md R260 to R262). -/

namespace Sys2Proof.Machine

/-- Each row of the table of R260 holds its code's own number and sticky bit: the converse of `mem_errorTable`. -/
theorem eq_of_mem_errorTable {code : ErrCode} {number : Byte} {bit : Nat} (h : (code, number, bit) ∈ errorTable) :
    number = code.number ∧ bit = code.stickyBit := by
  have hrows : ∀ row ∈ errorTable, row.2 = (row.1.number, row.1.stickyBit) := by decide
  exact Prod.mk.inj (hrows _ h)

end Sys2Proof.Machine

namespace Sys2Proof.Proofs

open Sys2Proof.Machine

/-- Settles O8: what `failed_of_status` says of a code's own number and bit, for the number and bit of its row. -/
theorem errorProcedureEffect : Obligations.ErrorProcedureEffect := by
  rintro ⟨code, number, bit⟩ hrow s
  obtain ⟨rfl, rfl⟩ := eq_of_mem_errorTable hrow
  exact ⟨failed_of_status code rfl rfl, rfl⟩

/-- Settles O7: the procedure replaces STATUS alone, and `succeeded_of_status` reads the new STATUS. -/
theorem successProcedureEffect : Obligations.SuccessProcedureEffect :=
  fun _ => ⟨succeeded_of_status rfl, rfl⟩

end Sys2Proof.Proofs
end


section
/-! The two resets (70_reset_and_hazards.md R290, R293): what the host reads after power-on reset, and the state SRESET
leaves as a power-on reset that keeps memory and the host's configuration. -/

namespace Sys2Proof.Machine

theorem statusSucceed_zero : statusSucceed 0#32 = 0x00000001#32 := by decide

/-- What SRESET leaves of the running machine is power-on reset's state but for ARG, BC_END, SF_WIDTH, SF_HEIGHT, SF_BPP
and memory, and the host's own queue and answers (R131, R293). -/
theorem execSreset_eq_resetWith (s : State) :
    execSreset s = .next { State.resetWith s.params s.draw with
      arg := s.arg, cursor := { Cursor.reset with endBound := s.cursor.endBound },
      sfWidth := s.sfWidth, sfHeight := s.sfHeight, sfBpp := s.sfBpp, mem := s.mem,
      pending := s.pending, answers := s.answers } := by
  simp only [execSreset, succeed, statusSucceed_zero]
  rfl

theorem htValid_eq_zero {s : State} (h : ∀ slot, s.tree slot = none) : htValid s = 0#32 := by
  refine BitVec.eq_of_getLsbD_eq fun i _ => ?_
  simp [getLsbD_htValid, h]

/-- The reset value of register `r` (10_state.md R32). -/
def resetValue (r : Byte) : Word :=
  if r = 1#8 then 0x00000001#32 else if r = 13#8 then 0xFFFFFFFF#32 else 0#32

theorem resetValue_of_not_mem {r : Byte} (h : r ∉ readableRegisters) : resetValue r = 0#32 := by
  have hstatus : r ≠ 1#8 := fun hr => h (hr ▸ by decide)
  have hcol : r ≠ 13#8 := fun hr => h (hr ▸ by decide)
  rw [resetValue, if_neg hstatus, if_neg hcol]

/-- After power-on reset each register reads its reset value. HT_VALID alone is assembled, from the empty slots; a
register with no value to read reads 0 (10_state.md R32, R290). -/
theorem hostReadReg_resetWith (p : Params) (d : Nat) (r : Byte) :
    hostReadReg r (State.resetWith p d) = resetValue r := by
  by_cases hr : r ∈ readableRegisters
  · by_cases hvalid : r = 8#8
    · subst hvalid
      exact htValid_eq_zero (tree_resetWith p d)
    · simp only [readableRegisters, List.mem_cons, List.not_mem_nil, or_false, hvalid, false_or] at hr
      rcases hr with rfl | rfl | rfl | rfl | rfl | rfl | rfl | rfl | rfl | rfl | rfl | rfl | rfl | rfl | rfl <;> rfl
  · rw [hostReadReg_of_not_mem hr, resetValue_of_not_mem hr]

end Sys2Proof.Machine

namespace Sys2Proof.Proofs

open Sys2Proof.Machine

/-- Settles O15: SRESET answers that state, so it completes. -/
theorem sresetMatchesPowerOnReset : Obligations.SresetMatchesPowerOnReset :=
  fun s => ⟨_, execSreset_eq_resetWith s, rfl⟩

/-- Settles O50: the registers through the host's reads, the slots by the empty vector, the rest as reset sets it. -/
theorem resetValues : Obligations.ResetValues :=
  ⟨hostReadReg_resetWith Config.params 0, tree_resetWith Config.params 0, rfl, rfl, rfl, rfl, rfl, rfl⟩

end Sys2Proof.Proofs
end
